-- ==== Sys2Proof/Word.lean ====
section
/-! DEFINITION. The word and byte types of the 2D convolution engine (00_scope R10: every register is 32 bits wide). -/

namespace Sys2Proof

/-- A 32-bit register, memory or command word; a binary32 value is its bit pattern (00_scope R10, R12). -/
abbrev Word := BitVec 32

/-- One byte of memory; also one colour channel, a `u8` (00_scope R10). -/
abbrev Byte := BitVec 8

end Sys2Proof
end

