-- ==== Sys2Proof/Machine/Float32.lean ====
section
/-! DEFINITION. IEEE 754 binary32 on bit patterns: the three operations of the block, rounded to nearest, ties to even
(00_scope R12; 40_pixel_alu R150 to R155; 93 G1 to G3; log 20). Exact values are Nat and Int; rounding is one function. -/

namespace Sys2Proof.Machine.F32

/-- The canonical NaN (40_pixel_alu R152). -/
def canonicalNaN : Word := 0x7FC00000

/-- `1.0` (00_scope R12). -/
def one : Word := 0x3F800000

/-- `255.0` (00_scope R12). -/
def twoFiftyFive : Word := 0x437F0000

/-- `+0.0` (00_scope R12). -/
def posZero : Word := 0x00000000

/-- The magnitude pattern of infinity. -/
def infMag : Nat := 0x7F800000

/-- Bit 31: true for a negative value. -/
def negative (x : Word) : Bool := x.msb

/-- The pattern without its sign bit. -/
def mag (x : Word) : Nat := x.toNat % 2 ^ 31

/-- The exponent field, bits [30:23]. -/
def expField (x : Word) : Nat := mag x / 2 ^ 23

/-- The fraction field, bits [22:0]. -/
def frac (x : Word) : Nat := mag x % 2 ^ 23

/-- A NaN, quiet or signalling. -/
def isNaN (x : Word) : Bool := infMag < mag x

/-- An infinity of either sign. -/
def isInf (x : Word) : Bool := mag x == infMag

/-- A zero of either sign. -/
def isZero (x : Word) : Bool := mag x == 0

/-- The significand as an integer: a finite `x` has magnitude `significand x * 2 ^ shift x` units of `2 ^ -149`. -/
def significand (x : Word) : Nat := if expField x = 0 then frac x else frac x + 2 ^ 23

/-- The power of two that goes with `significand`. -/
def shift (x : Word) : Nat := expField x - 1

/-- The magnitude of a finite value, in units of `2 ^ -149`. -/
def units (x : Word) : Nat := significand x * 2 ^ shift x

/-- A finite value with its sign, in units of `2 ^ -149`. -/
def signedUnits (x : Word) : Int := if negative x then - (units x : Int) else (units x : Int)

/-- The quotient `n / d` rounded to the nearest integer, ties to even. -/
def roundQuot (n d : Nat) : Nat :=
  if 2 * (n % d) < d then n / d
  else if d < 2 * (n % d) then n / d + 1
  else n / d + n / d % 2

/-- The magnitude pattern nearest to `n / d` units of `2 ^ -149`, ties to even, infinity on overflow (40_pixel_alu R150,
R151, R153). The quotient is cut to 24 significant bits, or to whole units where it is subnormal; a carry out of the
significand moves into the exponent field by itself. -/
def roundMag (n d : Nat) : Nat :=
  let q := Nat.log2 (n / d) - 23
  min (q * 2 ^ 23 + roundQuot n (d * 2 ^ q)) infMag

/-- A pattern from its sign and its magnitude pattern. -/
def pack (neg : Bool) (m : Nat) : Word := BitVec.ofNat 32 (if neg then m + 2 ^ 31 else m)

/-- The sum of two finite values (40_pixel_alu R150, R154): an exact zero is `-0.0` only when both operands are. -/
def addFinite (x y : Word) : Word :=
  let s := signedUnits x + signedUnits y
  if s = 0 then pack (negative x && negative y) 0
  else pack (decide (s < 0)) (roundMag s.natAbs 1)

/-- binary32 addition (00_scope R12; 40_pixel_alu R150 to R154). -/
def fadd (x y : Word) : Word :=
  if isNaN x || isNaN y then canonicalNaN
  else if isInf x then (if isInf y && negative x != negative y then canonicalNaN else x)
  else if isInf y then y
  else addFinite x y

/-- binary32 multiplication (00_scope R12; 40_pixel_alu R150 to R154). -/
def fmul (x y : Word) : Word :=
  if isNaN x || isNaN y then canonicalNaN
  else if isInf x || isInf y then
    (if isZero x || isZero y then canonicalNaN else pack (negative x != negative y) infMag)
  else
    pack (negative x != negative y)
      (roundMag (significand x * significand y * 2 ^ (shift x + shift y - 149)) (2 ^ (149 - (shift x + shift y))))

/-- binary32 division (00_scope R12; 40_pixel_alu R150 to R154). -/
def fdiv (x y : Word) : Word :=
  if isNaN x || isNaN y then canonicalNaN
  else if isInf x then (if isInf y then canonicalNaN else pack (negative x != negative y) infMag)
  else if isInf y then pack (negative x != negative y) 0
  else if isZero y then (if isZero x then canonicalNaN else pack (negative x != negative y) infMag)
  else
    pack (negative x != negative y)
      (roundMag (significand x * 2 ^ (shift x + 149 - shift y)) (significand y * 2 ^ (shift y - (shift x + 149))))

/-- `float(n)`, exact for `n ≤ 2 ^ 24` (00_scope R12). -/
def ofNat (n : Nat) : Word := pack false (roundMag (n * 2 ^ 149) 1)

/-- The order of values that are not NaN: both zeros are equal, and a larger value has a larger key. -/
def key (x : Word) : Int := if negative x then - (mag x : Int) else (mag x : Int)

/-- `clamp(x, lo, hi)` of values that are not NaN (00_scope R11). -/
def clamp (x lo hi : Word) : Word :=
  if key x < key lo then lo else if key hi < key x then hi else x

/-- `trunc(t)` of a finite value that is not negative (00_scope R11). -/
def trunc (t : Word) : Nat := units t / 2 ^ 149

end Sys2Proof.Machine.F32
end

