-- ==== Sys2Proof/Config.lean ====
section
/-! DEFINITION. What this hardware fixes (00_scope R8) and the free values: opaque constants without a body, so that
nothing can be proved of what they are. A free value is drawn with the counter `State.free`, except REG_BASE. -/

namespace Sys2Proof.Config

/-- `KDIM_MAX`, the largest kernel width or height (00_scope R8). -/
def kdimMax : Nat := 15

/-- `NPREG`, the number of pixel registers (00_scope R8). -/
def npreg : Nat := 4

/-- The usable words of the kernel weight memory, `KDIM_MAX * KDIM_MAX` (00_scope R8, 10_state R52). -/
def kwWords : Nat := 225

/-- The identification value (10_state R31). -/
def idValue : Word := 0x49430001

/-- The number of 32-bit byte addresses (00_scope R8: `ADDR_W` is 32). -/
def addrSpace : Nat := 4294967296

/-- `REG_BASE`, OPEN: the platform's base address of the register window (00_scope R8, 10_state R30; log 18). -/
opaque regBase : Word

/-- `PASS_ORDER`, OPEN: which pending output point the engine takes next (43_engine R264; log 6). -/
opaque passOrder : Nat → Nat

/-- Which pending points lanes still complete when a pass is stopped, in the order they finish (43_engine R267; log 7). -/
opaque drainPicks : Nat → List Nat

/-- Which pending points had a write in flight when reset struck (70_reset R341; log 13). -/
opaque inFlight : Nat → List Nat

/-- How many of the writes that land during a command its read number `k` sees (20_memory R108; log 21). -/
opaque raceRead : Nat → Nat → Nat

/-- An output word computed from a source word that is also written during the pass (70_reset R345; log 8). -/
opaque raceWord : Nat → Word

/-- Which of two racing writes of one word stays, for the word at that address (70_reset R346; log 9). -/
opaque raceWins : Nat → Nat → Bool

/-- Which of the values held since the pass began an early reader of memory sees (20_memory R107, R108; log 10). -/
opaque earlyView : Nat → Nat

/-- What memory holds where a write returned a bus error (20_memory R98; log 11). -/
opaque busErrWord : Nat → Word

/-- Which of several failing addresses FAULT_ADDR receives (43_engine R267; log 12). -/
opaque faultChoice : Nat → Nat

/-- A word whose write was in flight at reset and was neither completed nor dropped (70_reset R341; log 13). -/
opaque inFlightWord : Nat → Word

/-- What KWMEM word `i` holds after a reset event, by the event and the word (10_state R52, R58; log 14). -/
opaque kwmemAfterReset : Nat → Nat → Word

end Sys2Proof.Config
end

