-- ==== Sys2Proof/Syntax.lean ====
section
/-! DEFINITION. The command set as syntax (30_encoding R120 to R123), the raw fields of a command word, and the names of
the register window (10_state R30). -/

namespace Sys2Proof

/-- The number of a pixel register, P0 to P3 (30_encoding R122; 10_state R50). -/
abbrev PReg := Fin 4

/-- The four channels of a pixel, in their order (00_scope R13; 10_state R50). -/
inductive Channel where
  | r | g | b | a
deriving DecidableEq, Repr

/-- The twelve commands (30_encoding R123). A constructor holds the fields its command reads; every other field of
the word is ignored (R124). -/
inductive Instr where
  | nop
  | kcommit
  | start
  | abort
  | map
  | sample (d : PReg)
  | conv1 (d : PReg)
  | padd (d s1 s2 : PReg)
  | pscale (d s1 : PReg)
  | pdiv (d s1 : PReg)
  | tocolor (s1 : PReg)
  | fromcolor (d : PReg)
deriving DecidableEq, Repr

/-- The fields of a command word (30_encoding R121). -/
structure CmdFields where
  op  : BitVec 8
  d   : BitVec 2
  s1  : BitVec 2
  s2  : BitVec 2
  rsv : BitVec 18
deriving DecidableEq, Repr

/-- Why bits are no command. The first two are the two causes of ILLEGAL_CMD (30_encoding R125). -/
inductive DecodeError where
  /-- RSV is not 0. -/
  | reservedBits
  /-- OP is not a value of R123. -/
  | unassignedOpcode
  /-- Fewer than the four bytes of a command word (R120: there is one command length). -/
  | truncated
deriving DecidableEq, Repr

/-- The registers of the window, one name per row of 10_state R30; `reserved` covers every reserved offset and the
words 225 to 255 of KWMEM (R52). -/
inductive Reg where
  | id | ctrl | status | cmd | imgDim | kdim | srcBase | srcStride | dstBase | dstStride
  | wsum | nfactor | coord | mapres | scalar | color | pcount | faultAddr
  | preg (n : PReg) (c : Channel)
  | kwmem (i : Fin 225)
  | reserved
deriving DecidableEq, Repr

end Sys2Proof
end

