-- ==== Sys2Proof/WellFormed.lean ====
section
/-! DEFINITION. Which raw command words are commands (30_encoding R125), and the bound on an instruction's registers. -/

namespace Sys2Proof

/-- The opcodes of 30_encoding R123. -/
def assignedOpcodes : List (BitVec 8) :=
  [0x00, 0x01, 0x02, 0x03, 0x04, 0x05, 0x06] ++ [0x10, 0x11, 0x12, 0x13, 0x14]

/-- OP is one of the assigned opcodes (30_encoding R123, R125). -/
def CmdFields.opAssigned (f : CmdFields) : Bool := assignedOpcodes.contains f.op

/-- RSV is 0 (30_encoding R121, R125). -/
def CmdFields.rsvZero (f : CmdFields) : Bool := f.rsv == 0

/-- A command word is legal when both checks of 30_encoding R125 pass. -/
def CmdFields.wellFormed (f : CmdFields) : Bool := f.rsvZero && f.opAssigned

/-- The pixel registers an instruction names. -/
def Instr.regs : Instr → List PReg
  | .nop | .kcommit | .start | .abort | .map => []
  | .sample d => [d]
  | .conv1 d => [d]
  | .padd d s1 s2 => [d, s1, s2]
  | .pscale d s1 => [d, s1]
  | .pdiv d s1 => [d, s1]
  | .tocolor s1 => [s1]
  | .fromcolor d => [d]

/-- Every register named exists (10_state R50: `NPREG = 4`). `PReg` already has this bound, so every instruction is
well-formed; the checks a word can fail are those of `CmdFields.wellFormed`. -/
def Instr.wellFormed (i : Instr) : Bool := i.regs.all (fun n => decide (n.val < Config.npreg))

end Sys2Proof
end

