-- ==== Sys2Proof/Decode.lean ====
section
/-! DEFINITION. The decoder of command words, total, refusing by name; and the encoder, from the same tables of
30_encoding (R121, R123, R124, R131). -/

namespace Sys2Proof

/-- Cut a command word into its fields (30_encoding R121). -/
def CmdFields.ofWord (w : Word) : CmdFields where
  op  := w.extractLsb' 0 8
  d   := w.extractLsb' 8 2
  s1  := w.extractLsb' 10 2
  s2  := w.extractLsb' 12 2
  rsv := w.extractLsb' 14 18

/-- Lay the fields out as a command word (30_encoding R121). -/
def CmdFields.toWord (f : CmdFields) : Word := f.rsv ++ f.s2 ++ f.s1 ++ f.d ++ f.op

/-- A two-bit field as a register number (30_encoding R122). -/
def pregOfBits (b : BitVec 2) : PReg := b.toFin

/-- A register number as a two-bit field (30_encoding R122). -/
def bitsOfPReg (n : PReg) : BitVec 2 := BitVec.ofFin n

/-- The command a legal OP value selects; a field the command does not read is dropped (30_encoding R123, R124). -/
def decodeOp (f : CmdFields) : Except DecodeError Instr :=
  match f.op with
  | 0x00#8 => .ok .nop
  | 0x01#8 => .ok .kcommit
  | 0x02#8 => .ok .start
  | 0x03#8 => .ok .abort
  | 0x04#8 => .ok .map
  | 0x05#8 => .ok (.sample (pregOfBits f.d))
  | 0x06#8 => .ok (.conv1 (pregOfBits f.d))
  | 0x10#8 => .ok (.padd (pregOfBits f.d) (pregOfBits f.s1) (pregOfBits f.s2))
  | 0x11#8 => .ok (.pscale (pregOfBits f.d) (pregOfBits f.s1))
  | 0x12#8 => .ok (.pdiv (pregOfBits f.d) (pregOfBits f.s1))
  | 0x13#8 => .ok (.tocolor (pregOfBits f.s1))
  | 0x14#8 => .ok (.fromcolor (pregOfBits f.d))
  | _ => .error .unassignedOpcode

/-- Decode a command word (30_encoding R125, R128). -/
def decode (w : Word) : Except DecodeError Instr :=
  if (CmdFields.ofWord w).rsvZero then decodeOp (CmdFields.ofWord w) else .error .reservedBits

/-- A word from its four bytes, the least significant first (20_memory R92). -/
def wordOfBytes (b0 b1 b2 b3 : Byte) : Word := b3 ++ b2 ++ b1 ++ b0

/-- The four bytes of a word, the least significant first (20_memory R92, R96). -/
def bytesOfWord (w : Word) : List Byte :=
  [w.extractLsb' 0 8, w.extractLsb' 8 8, w.extractLsb' 16 8, w.extractLsb' 24 8]

/-- Decode the bytes at CMD as a byte-addressed host lays them (20_memory R92), and give the rest of the bytes. -/
def decodeBytes : List Byte → Except DecodeError (Instr × List Byte)
  | b0 :: b1 :: b2 :: b3 :: rest => (decode (wordOfBytes b0 b1 b2 b3)).map (fun i => (i, rest))
  | _ => .error .truncated

/-- The OP value of a command (30_encoding R123). -/
def Instr.opcode : Instr → BitVec 8
  | .nop => 0x00
  | .kcommit => 0x01
  | .start => 0x02
  | .abort => 0x03
  | .map => 0x04
  | .sample _ => 0x05
  | .conv1 _ => 0x06
  | .padd _ _ _ => 0x10
  | .pscale _ _ => 0x11
  | .pdiv _ _ => 0x12
  | .tocolor _ => 0x13
  | .fromcolor _ => 0x14

/-- The fields an assembler writes: 0 in every field the command does not read (30_encoding R131). -/
def Instr.fields (i : Instr) : CmdFields :=
  match i with
  | .nop | .kcommit | .start | .abort | .map => ⟨i.opcode, 0, 0, 0, 0⟩
  | .sample d | .conv1 d | .fromcolor d => ⟨i.opcode, bitsOfPReg d, 0, 0, 0⟩
  | .padd d s1 s2 => ⟨i.opcode, bitsOfPReg d, bitsOfPReg s1, bitsOfPReg s2, 0⟩
  | .pscale d s1 | .pdiv d s1 => ⟨i.opcode, bitsOfPReg d, bitsOfPReg s1, 0, 0⟩
  | .tocolor s1 => ⟨i.opcode, 0, bitsOfPReg s1, 0, 0⟩

/-- The word of a command (30_encoding R131). -/
def encode (i : Instr) : Word := i.fields.toWord

/-- The bits of a command word that select exactly this instruction: RSV and OP, and the register fields its command reads
(30_encoding R124). -/
def Instr.mask : Instr → Word
  | .nop | .kcommit | .start | .abort | .map => 0xFFFFC0FF
  | .sample _ | .conv1 _ | .fromcolor _ => 0xFFFFC3FF
  | .padd _ _ _ => 0xFFFFFFFF
  | .pscale _ _ | .pdiv _ _ => 0xFFFFCFFF
  | .tocolor _ => 0xFFFFCCFF

/-- The assembler's name of a pixel register, `p0` to `p3` (30_encoding R131). -/
def pregText (n : PReg) : String := "p" ++ toString n.val

/-- The assembler's text of a command (30_encoding R131). -/
def Instr.asm : Instr → String
  | .nop => "NOP"
  | .kcommit => "KCOMMIT"
  | .start => "START"
  | .abort => "ABORT"
  | .map => "MAP"
  | .sample d => "SAMPLE " ++ pregText d
  | .conv1 d => "CONV1 " ++ pregText d
  | .padd d s1 s2 => "PADD " ++ pregText d ++ ", " ++ pregText s1 ++ ", " ++ pregText s2
  | .pscale d s1 => "PSCALE " ++ pregText d ++ ", " ++ pregText s1
  | .pdiv d s1 => "PDIV " ++ pregText d ++ ", " ++ pregText s1
  | .tocolor s1 => "TOCOLOR " ++ pregText s1
  | .fromcolor d => "FROMCOLOR " ++ pregText d

/-- The instruction the decoder reads from a word numbered as the opcode table numbers it: its low `nbits` bits, the
rest 0, laid out as the four bytes of CMD and decoded from them. -/
def decodeTableWord (nbits w : Nat) : Option Instr :=
  match decodeBytes (bytesOfWord (BitVec.ofNat 32 (w % 2 ^ nbits))) with
  | .ok (i, _) => some i
  | .error _ => none

end Sys2Proof
end

