-- ==== Sys2Proof/Machine/State.lean ====
section
/-! DEFINITION. The state of the machine as plain data: every register and hidden piece of state of 10_state, the memory
and platform the block acts on, and the outside world's pending actions. INVENTORY.md lists each field with its rule. -/

namespace Sys2Proof.Machine

/-- CTRL (10_state R32). `bpol = 3` names no policy but is stored (R33). -/
structure Ctrl where
  bpol   : BitVec 2
  wrapm  : Bool
  norm   : Bool
  ieDone : Bool
  ieCerr : Bool
deriving DecidableEq, Repr

/-- STATUS (10_state R35). -/
structure Status where
  busy   : Bool
  done   : Bool
  cerr   : Bool
  kvalid : Bool
  wign   : Bool
  cecode : BitVec 4
  pres   : BitVec 2
deriving DecidableEq, Repr

/-- IMG_DIM (10_state R38). -/
structure ImgDim where
  width  : BitVec 16
  height : BitVec 16
deriving DecidableEq, Repr

/-- KDIM: the host's KW and KH, and the committed kernel's centre offsets KA and KB (10_state R39). -/
structure KDim where
  kw : BitVec 8
  kh : BitVec 8
  ka : BitVec 8
  kb : BitVec 8
deriving DecidableEq, Repr

/-- COORD (10_state R42, two's complement) or MAPRES (R43, unsigned). -/
structure Point where
  x : BitVec 16
  y : BitVec 16
deriving DecidableEq, Repr

/-- A Pixel: four binary32 channels (00_scope R13; 10_state R50). -/
structure Pixel where
  r : Word
  g : Word
  b : Word
  a : Word
deriving DecidableEq, Repr

/-- A Color: four 8-bit channels (00_scope R13). -/
structure Color where
  r : Byte
  g : Byte
  b : Byte
  a : Byte
deriving DecidableEq, Repr

/-- The rejection codes of 60_exceptions R302. -/
inductive Rej where
  | illegalCmd | busy | kdimEven | kdimRange | notCommitted | bpolReserved | dimZero | busErr
deriving DecidableEq, Repr

/-- The boundary policies, the Wrap policy with its two moduli (00_scope R3; 41_boundary R191 to R194). -/
inductive Policy where
  | extend | wrapRef | wrapCor | mirror
deriving DecidableEq, Repr

/-- `STOP`: whether a pass has been told to stop (43_engine R261). -/
inductive Stop where
  | none | aborted | busErr
deriving DecidableEq, Repr

/-- The output points `lo ≤ y*W + x < hi`, a part of `PENDING` (43_engine R261). -/
structure Span where
  lo : Nat
  hi : Nat
deriving DecidableEq, Repr

/-- One write of a word of memory since the running pass began: its address, the value it held before, and whether the
pass or another master wrote it (20_memory R108; 70_reset R346). -/
structure Overwrite where
  addr   : Word
  old    : Word
  byPass : Bool
deriving DecidableEq, Repr

/-- A write of memory by another master (20_memory R101, R108). -/
structure MemWrite where
  addr  : Word
  bytes : List Byte
deriving DecidableEq, Repr

/-- Addresses at which the platform answers the block's reads, writes or both with a bus error (20_memory R97, R98, R104). -/
structure BusRegion where
  base    : Nat
  size    : Nat
  onRead  : Bool
  onWrite : Bool
deriving DecidableEq, Repr

/-- What a memory access, or a computation that reads memory, gives (20_memory R95, R97; 41_boundary R200). -/
inductive Bus (α : Type) where
  | ok (v : α)
  | busErr (addr : Word)
deriving DecidableEq, Repr

/-- One transaction on the register port: its byte offset in the window, its size in bytes, and for a write its byte
enables and data (20_memory R90, R91). -/
structure Access where
  isWrite : Bool
  offset  : BitVec 12
  size    : Nat
  enables : BitVec 4
  data    : Word
deriving DecidableEq, Repr

/-- What the outside world does to the machine, or whose turn it is (log 3). -/
inductive Event where
  /-- The host makes one register-port transaction (20_memory R90). -/
  | access (t : Access)
  /-- The host makes a transaction while other masters' writes land, oldest first (20_memory R108). -/
  | accessDuring (t : Access) (writes : List MemWrite)
  /-- The host reads a register until its masked value is as given: `POLL` (30_encoding R132). -/
  | poll (offset : BitVec 12) (mask value : Word)
  /-- The host waits for `irq` (70_reset R344 step 7). -/
  | awaitIrq
  /-- The engine's turn, with the pending point it takes (43_engine R262, R264). -/
  | engine (pick : Nat)
  /-- The reset input is asserted (70_reset R340). -/
  | resetOn
  /-- The reset input is released. -/
  | resetOff
  /-- Another master, or the host, writes bytes of memory (20_memory R105, R108). -/
  | memWrite (addr : Word) (bytes : List Byte)
  /-- Another master, or the host, reads a word of memory (20_memory R106, R107). -/
  | memRead (addr : Word)
  /-- The platform changes which addresses answer with a bus error (20_memory R104). -/
  | setBusMap (regions : List BusRegion)
deriving DecidableEq, Repr

/-- The last answer the outside world got (20_memory R90). -/
inductive Resp where
  /-- No answer yet. -/
  | none
  /-- A register write with response OK. -/
  | ok
  /-- A register read with response OK and its value. -/
  | data (v : Word)
  /-- The ERROR response of 20_memory R91. -/
  | error
  /-- No response: the reset input is asserted (70_reset R340). -/
  | notAccepted
  /-- The word another master read from memory. -/
  | memData (v : Word)
deriving DecidableEq, Repr

/-- Memory: address and byte pairs, addresses strictly rising, no byte equal to what an unlisted address reads as. -/
abbrev Memory := List Host.Cell

/-- The whole machine. -/
structure State where
  ctrl      : Ctrl
  status    : Status
  imgDim    : ImgDim
  kdim      : KDim
  srcBase   : Word
  srcStride : Word
  dstBase   : Word
  dstStride : Word
  wsum      : Word
  nfactor   : Word
  coord     : Point
  mapres    : Point
  scalar    : Word
  color     : Word
  pcount    : Word
  faultAddr : Word
  pregs     : Vector Pixel 4
  kwmem     : Vector Word 225
  pending   : List Span
  stop      : Stop
  overs     : List Overwrite
  inReset   : Bool
  during    : List MemWrite
  mem       : Memory
  busMap    : List BusRegion
  agenda    : List Event
  resp      : Resp
  free      : Nat
deriving DecidableEq, Repr

/-- Why the machine stops. It has no constructor: the block has no faults and no traps; its errors are rejections and
pass results, which STATUS records and after which it goes on (60_exceptions R300, R310). -/
inductive Fault where
deriving DecidableEq, Repr

/-- Why an instruction has no meaning. -/
inductive Refusal where
  /-- Raised by no arm of `exec`: every command of 30_encoding R123 has its meaning. Safe. -/
  | notModelled (mnemonic : String)
deriving DecidableEq, Repr

/-- What executing an instruction, or one step, answers. -/
abbrev Result := Host.Outcome State Fault Refusal

/-- Every channel `+0.0` (00_scope R13: `ZERO`). -/
def Pixel.zero : Pixel := ⟨0, 0, 0, 0⟩

/-- The machine right after reset (10_state R58; 70_reset R342): the block's registers at the spec's values. KWMEM has
no value in the spec and is zero here: DESIGN CHOICE (log 1). Memory lists nothing (log 2), the bus-error map is empty
(log 15), nothing is on the agenda (log 3). -/
def State.reset : State where
  ctrl      := ⟨0, false, false, false, false⟩
  status    := ⟨false, false, false, false, false, 0, 0⟩
  imgDim    := ⟨0, 0⟩
  kdim      := ⟨0, 0, 0, 0⟩
  srcBase   := 0
  srcStride := 0
  dstBase   := 0
  dstStride := 0
  wsum      := 0
  nfactor   := 0x3F800000
  coord     := ⟨0, 0⟩
  mapres    := ⟨0, 0⟩
  scalar    := 0
  color     := 0
  pcount    := 0
  faultAddr := 0
  pregs     := Vector.replicate 4 Pixel.zero
  kwmem     := Vector.replicate 225 0
  pending   := []
  stop      := .none
  overs     := []
  inReset   := false
  during    := []
  mem       := []
  busMap    := []
  agenda    := []
  resp      := .none
  free      := 0

end Sys2Proof.Machine
end

