-- ==== Sys2Proof/Machine/Flags.lean ====
section
/-! DEFINITION. Every computation on STATUS and CTRL: the register words, what sets and clears each flag, the rejection
codes and `irq` (10_state R32 to R36, R55; 60_exceptions R301, R302, R307). -/

namespace Sys2Proof.Machine

/-- CTRL as the host reads it (10_state R32): bits [31:6] are 0. -/
def Ctrl.word (c : Ctrl) : Word :=
  (0 : BitVec 26) ++ BitVec.ofBool c.ieCerr ++ BitVec.ofBool c.ieDone ++ BitVec.ofBool c.norm
    ++ BitVec.ofBool c.wrapm ++ c.bpol

/-- CTRL with bits [5:0] of a written word (10_state R32, R34). -/
def Ctrl.ofWord (v : Word) : Ctrl where
  bpol   := v.extractLsb' 0 2
  wrapm  := v.getLsbD 2
  norm   := v.getLsbD 3
  ieDone := v.getLsbD 4
  ieCerr := v.getLsbD 5

/-- CTRL after a write while a pass runs: only the interrupt enables change (10_state R34). -/
def Ctrl.withEnables (c : Ctrl) (v : Word) : Ctrl :=
  { c with ieDone := v.getLsbD 4, ieCerr := v.getLsbD 5 }

/-- The written bits [3:0] differ from CTRL[3:0] (10_state R34). -/
def Ctrl.differsLow (c : Ctrl) (v : Word) : Bool := c.word.extractLsb' 0 4 != v.extractLsb' 0 4

/-- The boundary policy CTRL selects; `none` for the reserved BPOL 3 (10_state R32, R33; 41_boundary R195). -/
def Ctrl.policy (c : Ctrl) : Option Policy :=
  match c.bpol with
  | 0#2 => some .extend
  | 1#2 => some (if c.wrapm then .wrapCor else .wrapRef)
  | 2#2 => some .mirror
  | _ => none

/-- STATUS as the host reads it (10_state R35): bits [7:5] and [31:14] are 0. -/
def Status.word (t : Status) : Word :=
  (0 : BitVec 18) ++ t.pres ++ t.cecode ++ (0 : BitVec 3) ++ BitVec.ofBool t.wign ++ BitVec.ofBool t.kvalid
    ++ BitVec.ofBool t.cerr ++ BitVec.ofBool t.done ++ BitVec.ofBool t.busy

/-- STATUS after the host writes `v` to it: each W1C bit written 1 is cleared, and CECODE goes with CERR (10_state R36). -/
def Status.cleared (t : Status) (v : Word) : Status :=
  { t with
    done   := t.done && !v.getLsbD 1
    cerr   := t.cerr && !v.getLsbD 2
    wign   := t.wign && !v.getLsbD 4
    cecode := if v.getLsbD 2 then 0 else t.cecode }

/-- The code of a rejection (60_exceptions R302). -/
def Rej.code : Rej → BitVec 4
  | .illegalCmd => 1
  | .busy => 2
  | .kdimEven => 3
  | .kdimRange => 4
  | .notCommitted => 5
  | .bpolReserved => 6
  | .dimZero => 7
  | .busErr => 8

/-- STATUS after a rejection: CERR and CECODE, an earlier code overwritten (60_exceptions R301). -/
def Status.rejected (t : Status) (c : Rej) : Status := { t with cerr := true, cecode := c.code }

/-- STATUS after a write that a running pass made the block ignore (10_state R34, R57). -/
def Status.ignored (t : Status) : Status := { t with wign := true }

/-- STATUS with KVALID as given (10_state R53). -/
def Status.withKvalid (t : Status) (v : Bool) : Status := { t with kvalid := v }

/-- STATUS when a pass starts (43_engine R260). -/
def Status.started (t : Status) : Status := { t with busy := true, done := false, pres := 0 }

/-- STATUS after the zero-dimension START: DONE at once, BUSY as it was (43_engine R260, R270). -/
def Status.emptyPass (t : Status) : Status := { t with done := true, pres := 0 }

/-- PRES of a stopped pass (43_engine R267). -/
def Stop.pres : Stop → BitVec 2
  | .aborted => 2
  | _ => 1

/-- STATUS when a pass ends, with its result (43_engine R265, R267). -/
def Status.ended (t : Status) (pres : BitVec 2) : Status := { t with busy := false, done := true, pres := pres }

/-- The interrupt output (60_exceptions R307). -/
def irq (s : State) : Bool := (s.status.done && s.ctrl.ieDone) || (s.status.cerr && s.ctrl.ieCerr)

end Sys2Proof.Machine
end

