-- ==== Sys2Proof/Machine/Operands.lean ====
section
/-! DEFINITION. Every operand a command reads: pixel registers and their channels, SCALAR, COLOR, COORD, the image and
kernel dimensions, raster addresses and kernel weights (30_encoding R122; 20_memory R96, R99; 42_kernel R221, R224). -/

namespace Sys2Proof.Machine

/-- Channel `c` of a pixel (00_scope R13). -/
def Pixel.get (p : Pixel) : Channel → Word
  | .r => p.r
  | .g => p.g
  | .b => p.b
  | .a => p.a

/-- A pixel with channel `c` replaced (10_state R50). -/
def Pixel.set (p : Pixel) (c : Channel) (v : Word) : Pixel :=
  match c with
  | .r => { p with r := v }
  | .g => { p with g := v }
  | .b => { p with b := v }
  | .a => { p with a := v }

/-- The same operation on each channel (00_scope R13). -/
def Pixel.map (f : Word → Word) (p : Pixel) : Pixel := ⟨f p.r, f p.g, f p.b, f p.a⟩

/-- The same two-operand operation on each channel (00_scope R13). -/
def Pixel.zip (f : Word → Word → Word) (p q : Pixel) : Pixel := ⟨f p.r q.r, f p.g q.g, f p.b q.b, f p.a q.a⟩

/-- `P[n]` (00_scope R14; 10_state R50). -/
def preg (s : State) (n : PReg) : Pixel := s.pregs[n]

/-- The Color of a raster word or of COLOR: R in bits [7:0] (20_memory R96; 10_state R45). -/
def colorOfWord (v : Word) : Color where
  r := v.extractLsb' 0 8
  g := v.extractLsb' 8 8
  b := v.extractLsb' 16 8
  a := v.extractLsb' 24 8

/-- `ColorWord`: a Color as a raster word (43_engine R263; 40_pixel_alu R165). -/
def colorWord (k : Color) : Word := k.a ++ k.b ++ k.g ++ k.r

/-- `x` of COORD, sign-extended (10_state R42). -/
def coordX (s : State) : Int := s.coord.x.toInt

/-- `y` of COORD, sign-extended (10_state R42). -/
def coordY (s : State) : Int := s.coord.y.toInt

/-- `W` (10_state R38). -/
def imgW (s : State) : Nat := s.imgDim.width.toNat

/-- `H` (10_state R38). -/
def imgH (s : State) : Nat := s.imgDim.height.toNat

/-- The image has no pixel (60_exceptions R302: DIM_ZERO; 43_engine R270). -/
def dimZero (s : State) : Bool := imgW s == 0 || imgH s == 0

/-- `PixelAddr`, modulo 2^32 (20_memory R99). -/
def pixelAddr (base stride : Word) (x y : Nat) : Word := base + BitVec.ofNat 32 y * stride + 4 * BitVec.ofNat 32 x

/-- `SrcAddr` (41_boundary R199). -/
def srcAddr (s : State) (x y : Nat) : Word := pixelAddr s.srcBase s.srcStride x y

/-- `DstAddr` (43_engine R274). -/
def dstAddr (s : State) (x y : Nat) : Word := pixelAddr s.dstBase s.dstStride x y

/-- KWMEM word `n`: words 225 and above hold nothing and read 0 (10_state R52; log 24). -/
def kwWord (m : Vector Word 225) (n : Nat) : Word := if h : n < 225 then m[n] else 0

/-- The places of a grid, row by row, each as its column and its row: the tap order (42_kernel R223, R229). -/
def tapGrid (cols rows : Nat) : List (Nat × Nat) :=
  (List.range rows).flatMap (fun j => (List.range cols).map (fun i => (i, j)))

/-- The taps of the committed kernel in tap order, each as `(dx + a, dy + b)` (42_kernel R220, R229). -/
def taps (s : State) : List (Nat × Nat) := tapGrid (2 * s.kdim.ka.toNat + 1) (2 * s.kdim.kb.toNat + 1)

/-- `dx` of a tap (42_kernel R220). -/
def tapDx (s : State) (t : Nat × Nat) : Int := (t.1 : Int) - (s.kdim.ka.toNat : Int)

/-- `dy` of a tap (42_kernel R220). -/
def tapDy (s : State) (t : Nat × Nat) : Int := (t.2 : Int) - (s.kdim.kb.toNat : Int)

/-- `K(dx, dy)`: word `(dy + b)*KW + (dx + a)` of KWMEM (42_kernel R221, R224). -/
def tapWeight (s : State) (t : Nat × Nat) : Word := kwWord s.kwmem (t.2 * s.kdim.kw.toNat + t.1)

end Sys2Proof.Machine
end

