-- ==== Sys2Proof/Machine/Ops.lean ====
section
/-! DEFINITION. The named operations: bytes and words of memory, the master port, pixel registers, free values, and the
block's one form of exception, the rejection, with the host's return from it (20_memory R95 to R101; 60_exceptions R301). -/

namespace Sys2Proof.Machine

/-- What a byte of memory that nothing has written reads as: DESIGN CHOICE (log 2). -/
def unlistedByte : Byte := 0

/-- The entries rise strictly from `lo`, fit the address space, and none is an unlisted byte. -/
def Memory.wfFrom : Nat → Memory → Bool
  | _, [] => true
  | lo, (a, b) :: rest =>
    decide (lo ≤ a) && decide (a < Config.addrSpace) && (b != unlistedByte) && Memory.wfFrom (a + 1) rest

/-- Memory is in its one canonical form. -/
def Memory.wf (m : Memory) : Bool := Memory.wfFrom 0 m

/-- One byte of memory. -/
def readByte : Memory → Nat → Byte
  | [], _ => unlistedByte
  | (a, b) :: rest, k => if a = k then b else readByte rest k

/-- An entry in front of the rest, unless it is an unlisted byte. -/
def consCell (k : Nat) (b : Byte) (rest : Memory) : Memory := if b = unlistedByte then rest else (k, b) :: rest

/-- Memory with one byte written, in canonical form. -/
def writeByte : Memory → Nat → Byte → Memory
  | [], k, b => consCell k b []
  | (a, c) :: rest, k, b =>
    if k < a then consCell k b ((a, c) :: rest)
    else if k = a then consCell k b rest
    else (a, c) :: writeByte rest k b

/-- The address of byte `i` of the word at `a`, modulo 2^32 (20_memory R96, R99). -/
def byteAddr (a : Word) (i : Nat) : Nat := (a + BitVec.ofNat 32 i).toNat

/-- The word at `a`: its first byte is bits [7:0] (20_memory R96). -/
def readWord (m : Memory) (a : Word) : Word :=
  wordOfBytes (readByte m (byteAddr a 0)) (readByte m (byteAddr a 1)) (readByte m (byteAddr a 2)) (readByte m (byteAddr a 3))

/-- Memory with bytes written from `a` upwards, modulo 2^32. -/
def writeBytes : Memory → Word → List Byte → Memory
  | m, _, [] => m
  | m, a, b :: bs => writeBytes (writeByte m a.toNat b) (a + 1) bs

/-- Memory with the word at `a` written (20_memory R96, R98). -/
def writeWord (m : Memory) (a : Word) (v : Word) : Memory := writeBytes m a (bytesOfWord v)

/-- Memory with other masters' writes landed, oldest first (20_memory R101). -/
def landWrites (m : Memory) (ws : List MemWrite) : Memory := ws.foldl (fun m w => writeBytes m w.addr w.bytes) m

/-- Memory with the first `n` of other masters' writes landed, all of them if there are no more. -/
def landSome : Memory → List MemWrite → Nat → Memory
  | m, [], _ => m
  | m, w :: ws, n => if n = 0 then m else landSome (writeBytes m w.addr w.bytes) ws (n - 1)

/-- Memory as read number `k` of SAMPLE or CONV1 sees it: as before the command, or with some of the writes that land during
it; each read on its own (20_memory R108; log 21). -/
def seenMem (s : State) (k : Nat) : Memory := landSome s.mem s.during (Config.raceRead s.free k)

/-- The address lies in the region. -/
def BusRegion.covers (r : BusRegion) (a : Word) : Bool := decide (r.base ≤ a.toNat) && decide (a.toNat < r.base + r.size)

/-- The platform answers a read at `a` with a bus error (20_memory R97, R104; log 15). -/
def refusesRead (s : State) (a : Word) : Bool := s.busMap.any (fun r => r.onRead && r.covers a)

/-- The platform answers a write at `a` with a bus error (20_memory R98, R104; log 15). -/
def refusesWrite (s : State) (a : Word) : Bool := s.busMap.any (fun r => r.onWrite && r.covers a)

/-- `MemRead(addr, 4)` (20_memory R97). It changes no state. -/
def memRead (s : State) (a : Word) : Bus Word := if refusesRead s a then .busErr a else .ok (readWord s.mem a)

/-- `P[n] <- p` (00_scope R14; 10_state R50). -/
def setPreg (s : State) (n : PReg) (p : Pixel) : State := { s with pregs := s.pregs.set n p }

/-- The next free values are drawn with a new counter (log 26). -/
def State.tick (s : State) : State := { s with free := s.free + 1 }

/-- A rejection with code `c`: CERR and CECODE, and nothing else (00_scope R14; 60_exceptions R301). -/
def reject (c : Rej) (s : State) : State := { s with status := s.status.rejected c }

/-- The rejection BUSERR of SAMPLE and CONV1: FAULT_ADDR first (60_exceptions R301, R304, R306). -/
def rejectBusErr (addr : Word) (s : State) : State := reject .busErr { s with faultAddr := addr }

/-- One check of a command: rejected with `c` when it fails, and no later check is made (30_encoding R128; 60_exceptions
R303). -/
def rejectIf (failed : Bool) (c : Rej) (s : State) (k : Result) : Result := if failed then .next (reject c s) else k

/-- The BPOL_RESERVED check of a command that maps, which then goes on with the policy CTRL selects (41_boundary R197,
R198). -/
def withPolicy (s : State) (k : Policy → Result) : Result :=
  match s.ctrl.policy with
  | none => .next (reject .bpolReserved s)
  | some pol => k pol

/-- The host's return from an error: the W1C write of STATUS (10_state R36; 60_exceptions R308, R311). -/
def clearStatus (v : Word) (s : State) : State := { s with status := s.status.cleared v }

end Sys2Proof.Machine
end

