-- ==== Sys2Proof/Machine/PixelAlu.lean ====
section
/-! DEFINITION. The channel-wise pixel arithmetic unit and its five commands (40_pixel_alu). -/

namespace Sys2Proof.Machine

/-- `PAddPix` (40_pixel_alu R157). -/
def pAddPix (p q : Pixel) : Pixel := p.zip F32.fadd q

/-- `PScalePix` (40_pixel_alu R158). -/
def pScalePix (p : Pixel) (k : Word) : Pixel := p.map (fun v => F32.fmul v k)

/-- `PDivPix` (40_pixel_alu R159). -/
def pDivPix (p : Pixel) (k : Word) : Pixel := p.map (fun v => F32.fdiv v k)

/-- `ToColorCh` (40_pixel_alu R160): scale by 255 and round, NaN gives 0, clamp, truncate. -/
def toColorCh (v : Word) : Byte :=
  let t := F32.fmul v F32.twoFiftyFive
  if F32.isNaN t then 0 else BitVec.ofNat 8 (F32.trunc (F32.clamp t F32.posZero F32.twoFiftyFive))

/-- `ToColor` (40_pixel_alu R160). -/
def toColor (p : Pixel) : Color := ⟨toColorCh p.r, toColorCh p.g, toColorCh p.b, toColorCh p.a⟩

/-- One channel of `FromColor` (40_pixel_alu R161). -/
def fromColorCh (c : Byte) : Word := F32.fdiv (F32.ofNat c.toNat) F32.twoFiftyFive

/-- `FromColor` (40_pixel_alu R161). -/
def fromColor (k : Color) : Pixel := ⟨fromColorCh k.r, fromColorCh k.g, fromColorCh k.b, fromColorCh k.a⟩

/-- PADD (40_pixel_alu R162): both sources are read before the destination is written (10_state R51). -/
def execPadd (d s1 s2 : PReg) (s : State) : Result := .next (setPreg s d (pAddPix (preg s s1) (preg s s2)))

/-- PSCALE (40_pixel_alu R163). -/
def execPscale (d s1 : PReg) (s : State) : Result := .next (setPreg s d (pScalePix (preg s s1) s.scalar))

/-- PDIV (40_pixel_alu R164). -/
def execPdiv (d s1 : PReg) (s : State) : Result := .next (setPreg s d (pDivPix (preg s s1) s.scalar))

/-- TOCOLOR (40_pixel_alu R165). -/
def execTocolor (s1 : PReg) (s : State) : Result := .next { s with color := colorWord (toColor (preg s s1)) }

/-- FROMCOLOR (40_pixel_alu R166). -/
def execFromcolor (d : PReg) (s : State) : Result := .next (setPreg s d (fromColor (colorOfWord s.color)))

end Sys2Proof.Machine
end

