-- ==== Sys2Proof/Machine/Boundary.lean ====
section
/-! DEFINITION. The boundary policies, the sampler, and the commands MAP and SAMPLE (41_boundary_sampler). Coordinates
are exact integers (00_scope R9). -/

namespace Sys2Proof.Machine

/-- `fmod` (00_scope R11): the remainder that lies in `[0, m - 1]` for `m ≥ 1`. -/
def floorMod (v m : Int) : Int := v % m

/-- `clamp` of integers (00_scope R11). -/
def clampInt (v lo hi : Int) : Int := min (max v lo) hi

/-- `ExtendCh` (41_boundary R191). -/
def extendCh (v n : Int) : Int := clampInt v 0 (n - 1)

/-- `WrapRefCh` (41_boundary R192). -/
def wrapRefCh (v n : Int) : Int := if n = 1 then 0 else floorMod v (n - 1)

/-- `WrapCorCh` (41_boundary R193). -/
def wrapCorCh (v n : Int) : Int := floorMod v n

/-- `MirrorCh` (41_boundary R194). -/
def mirrorCh (v n : Int) : Int :=
  if n = 1 then 0
  else
    let r := floorMod v (2 * (n - 1))
    if r ≤ n - 1 then r else 2 * (n - 1) - r

/-- One coordinate mapped by a policy (41_boundary R191 to R194). -/
def mapCh : Policy → Int → Int → Int
  | .extend => extendCh
  | .wrapRef => wrapRefCh
  | .wrapCor => wrapCorCh
  | .mirror => mirrorCh

/-- A point is in range for a `w` by `h` image (41_boundary R190). -/
def inRange (w h x y : Int) : Bool := decide (0 ≤ x) && decide (x < w) && decide (0 ≤ y) && decide (y < h)

/-- `Map(x, y)`: the policy is applied only to a point out of range, and then to both coordinates (41_boundary R195). -/
def mapPoint (pol : Policy) (w h x y : Int) : Int × Int :=
  if inRange w h x y then (x, y) else (mapCh pol x w, mapCh pol y h)

/-- The address the sampler reads for a point (41_boundary R199, R200). -/
def sampleAddr (s : State) (pol : Policy) (x y : Int) : Word :=
  let m := mapPoint pol (imgW s) (imgH s) x y
  srcAddr s m.1.toNat m.2.toNat

/-- `Sample(x, y)` (41_boundary R200). -/
def sample (s : State) (pol : Policy) (x y : Int) : Bus Pixel :=
  match memRead s (sampleAddr s pol x y) with
  | .busErr a => .busErr a
  | .ok v => .ok (fromColor (colorOfWord v))

/-- A command's Pixel result: written to `P[D]`, or the rejection BUSERR (41_boundary R202; 42_kernel R235; 60_exceptions
R304). -/
def storePixel (d : PReg) (r : Bus Pixel) (s : State) : State :=
  match r with
  | .busErr a => rejectBusErr a s
  | .ok p => setPreg s d p

/-- `MAPRES` for a mapped point (41_boundary R201). -/
def mapresOf (m : Int × Int) : Point := ⟨BitVec.ofInt 16 m.1, BitVec.ofInt 16 m.2⟩

/-- MAP (41_boundary R201). -/
def execMap (s : State) : Result :=
  withPolicy s fun pol =>
  rejectIf (dimZero s) .dimZero s (.next { s with mapres := mapresOf (mapPoint pol (imgW s) (imgH s) (coordX s) (coordY s)) })

/-- SAMPLE (41_boundary R202; 20_memory R108). -/
def execSample (d : PReg) (s : State) : Result :=
  rejectIf s.status.busy .busy s <|
  withPolicy s fun pol =>
  rejectIf (dimZero s) .dimZero s (.next (storePixel d (sample { s with mem := seenMem s 0 } pol (coordX s) (coordY s)) s))

end Sys2Proof.Machine
end

