-- ==== Sys2Proof/Machine/Kernel.lean ====
section
/-! DEFINITION. The kernel, the accumulator with optional normalization, and the commands KCOMMIT and CONV1
(42_kernel_accumulator). -/

namespace Sys2Proof.Machine

/-- `WeightSum`: from `+0.0`, in tap order (42_kernel R223). -/
def weightSum (m : Vector Word 225) (kw kh : Nat) : Word :=
  (tapGrid kw kh).foldl (fun acc t => F32.fadd acc (kwWord m (t.2 * kw + t.1))) F32.posZero

/-- `NormFactor` (42_kernel R225). -/
def normFactor (sum : Word) (norm : Bool) : Word :=
  if norm then (if F32.isZero sum then F32.one else F32.fdiv F32.one sum) else F32.one

/-- KDIM.KW or KDIM.KH is even, 0 included (60_exceptions R302). -/
def kdimEven (k : KDim) : Bool := k.kw.toNat % 2 == 0 || k.kh.toNat % 2 == 0

/-- KDIM.KW or KDIM.KH is above `KDIM_MAX` (60_exceptions R302). -/
def kdimRange (k : KDim) : Bool := decide (Config.kdimMax < k.kw.toNat) || decide (Config.kdimMax < k.kh.toNat)

/-- The effect of a successful KCOMMIT (42_kernel R222). -/
def commitKernel (s : State) : State :=
  let sum := weightSum s.kwmem s.kdim.kw.toNat s.kdim.kh.toNat
  { s with
    kdim    := { s.kdim with ka := s.kdim.kw >>> 1, kb := s.kdim.kh >>> 1 }
    wsum    := sum
    nfactor := normFactor sum s.ctrl.norm
    status  := s.status.withKvalid true }

/-- KCOMMIT (42_kernel R222). -/
def execKcommit (s : State) : Result :=
  rejectIf s.status.busy .busy s <|
  rejectIf (kdimEven s.kdim) .kdimEven s <|
  rejectIf (kdimRange s.kdim) .kdimRange s (.next (commitKernel s))

/-- The accumulation of a convolution over taps still to visit, read number `k` seeing the memory `m k` (42_kernel R228 to
R232). -/
def accumulate (m : Nat → Memory) (s : State) (pol : Policy) (x y : Int) : Nat → List (Nat × Nat) → Pixel → Bus Pixel
  | _, [], acc => .ok acc
  | k, t :: ts, acc =>
    match sample { s with mem := m k } pol (x + tapDx s t) (y + tapDy s t) with
    | .busErr a => .busErr a
    | .ok p => accumulate m s pol x y (k + 1) ts (pAddPix acc (pScalePix p (tapWeight s t)))

/-- The normalization after the full sum (42_kernel R233). -/
def normalize (s : State) (acc : Pixel) : Pixel := if s.ctrl.norm then pScalePix acc s.nfactor else acc

/-- `Conv(x, y)`, unclamped, read number `k` seeing the memory `m k` (42_kernel R232, R234; 20_memory R108). -/
def convSeen (m : Nat → Memory) (s : State) (pol : Policy) (x y : Int) : Bus Pixel :=
  match accumulate m s pol x y 0 (taps s) Pixel.zero with
  | .busErr a => .busErr a
  | .ok acc => .ok (normalize s acc)

/-- `Conv(x, y)` of memory as it stands (42_kernel R232). -/
def conv (s : State) (pol : Policy) (x y : Int) : Bus Pixel := convSeen (fun _ => s.mem) s pol x y

/-- CONV1 (42_kernel R235; 20_memory R108). -/
def execConv1 (d : PReg) (s : State) : Result :=
  rejectIf s.status.busy .busy s <|
  rejectIf (!s.status.kvalid) .notCommitted s <|
  withPolicy s fun pol =>
  rejectIf (dimZero s) .dimZero s (.next (storePixel d (convSeen (seenMem s) s pol (coordX s) (coordY s)) s))

end Sys2Proof.Machine
end

