-- ==== Sys2Proof/Machine/Pending.lean ====
section
/-! DEFINITION. The set `PENDING` of output points not yet written (10_state R56; 43_engine R261), as rising, disjoint,
non-empty spans of the index `y*W + x`. -/

namespace Sys2Proof.Machine

/-- All points of a `w` by `h` output raster (43_engine R260). -/
def pendingAll (w h : Nat) : List Span := if w * h = 0 then [] else [⟨0, w * h⟩]

/-- How many points are pending. -/
def pendingSize : List Span → Nat
  | [] => 0
  | sp :: rest => (sp.hi - sp.lo) + pendingSize rest

/-- Whether the point with index `i` is pending. -/
def pendingHas (ps : List Span) (i : Nat) : Bool := ps.any (fun sp => decide (sp.lo ≤ i) && decide (i < sp.hi))

/-- The pending point number `k`, counting from 0; none when fewer are pending. -/
def pendingNth : List Span → Nat → Option Nat
  | [], _ => none
  | sp :: rest, k => if k < sp.hi - sp.lo then some (sp.lo + k) else pendingNth rest (k - (sp.hi - sp.lo))

/-- The points `lo` up to `hi`, no span when there are none. -/
def spanOf (lo hi : Nat) : List Span := if lo < hi then [⟨lo, hi⟩] else []

/-- The point with index `i` taken out. -/
def pendingRemove : List Span → Nat → List Span
  | [], _ => []
  | sp :: rest, i =>
    if sp.lo ≤ i ∧ i < sp.hi then spanOf sp.lo i ++ spanOf (i + 1) sp.hi ++ rest
    else sp :: pendingRemove rest i

/-- The pending point a free pick selects: any pick selects one while any is pending. -/
def pendingPick (ps : List Span) (pick : Nat) : Option Nat :=
  pendingNth ps (if pendingSize ps ≤ 1 then 0 else pick % pendingSize ps)

/-- The spans rise from `lo`, are not empty, and end by `bound`. -/
def pendingWfFrom (bound : Nat) : Nat → List Span → Bool
  | _, [] => true
  | lo, sp :: rest =>
    decide (lo ≤ sp.lo) && decide (sp.lo < sp.hi) && decide (sp.hi ≤ bound) && pendingWfFrom bound sp.hi rest

end Sys2Proof.Machine
end

