-- ==== Sys2Proof/Machine/Engine.lean ====
section
/-! DEFINITION. The pass driver: the commands NOP, START and ABORT, the engine's step, and the early ends of a pass
(43_engine; 70_reset R341, R345, R346). -/

namespace Sys2Proof.Machine

/-- NOP (43_engine R269). -/
def execNop (s : State) : Result := .next s

/-- The effect of an accepted START (43_engine R260, R270). -/
def startPass (s : State) : State :=
  if dimZero s then { s with pcount := 0, status := s.status.emptyPass }
  else
    { s with
      pcount  := 0
      pending := pendingAll (imgW s) (imgH s)
      stop    := .none
      overs   := []
      status  := s.status.started }

/-- START (43_engine R260). -/
def execStart (s : State) : Result :=
  rejectIf s.status.busy .busy s <|
  rejectIf (!s.status.kvalid) .notCommitted s <|
  withPolicy s fun _ => .next (startPass s)

/-- The output point with index `i`: its `x` (43_engine R261). -/
def pointX (s : State) (i : Nat) : Nat := i % imgW s

/-- The output point with index `i`: its `y` (43_engine R261). -/
def pointY (s : State) (i : Nat) : Nat := i / imgW s

/-- Where the output point with index `i` is written (43_engine R274). -/
def pointAddr (s : State) (i : Nat) : Word := dstAddr s (pointX s i) (pointY s i)

/-- The source addresses of the taps of an output point, in tap order (42_kernel R237). -/
def tapAddrs (s : State) (pol : Policy) (i : Nat) : List Word :=
  (taps s).map (fun t => sampleAddr s pol (pointX s i + tapDx s t) (pointY s i + tapDy s t))

/-- The word at `a` was written since the pass began (20_memory R108). -/
def overwritten (s : State) (a : Word) : Bool := s.overs.any (fun o => o.addr == a)

/-- `a` is `DstAddr(x, y)` for some `(x, y)` of the raster, found row by row (43_engine R274; 70_reset R345). -/
def isOutput (s : State) (a : Word) : Bool :=
  (List.range (imgH s)).any fun y =>
    let off := (a - dstAddr s 0 y).toNat
    decide (off < 4 * imgW s) && decide (off % 4 = 0)

/-- A source read of the word at `a` races: the word was written since the pass began, or it is an output word of the pass
(20_memory R108; 70_reset R345, R346). -/
def raced (s : State) (a : Word) : Bool := overwritten s a || isOutput s a

/-- Another master wrote the word at `a` since the pass began (70_reset R346). -/
def contested (s : State) (a : Word) : Bool := s.overs.any (fun o => o.addr == a && !o.byPass)

/-- The word an output point gets: `ColorWord(ToColor(Conv))` (43_engine R263), or a free word when one of its taps
races, whatever that tap's weight (70_reset R345; 93 I5; log 8). -/
def outputWord (s : State) (pol : Policy) (i : Nat) (p : Pixel) : Word :=
  if (tapAddrs s pol i).any (raced s) then Config.raceWord s.free else colorWord (toColor p)

/-- The address FAULT_ADDR receives when reads at `as` fail, `a` the first of them: any of them (43_engine R267; log 12). -/
def faultPick (s : State) (a : Word) (as : List Word) : Word :=
  if as.all (· == a) then a else as.getD (Config.faultChoice s.free % as.length) a

/-- Memory's word at `a` is written by the pass; the value before is kept for the races (20_memory R108). -/
def passWrite (s : State) (a v : Word) : State :=
  { s with mem := writeWord s.mem a v, overs := ⟨a, readWord s.mem a, true⟩ :: s.overs }

/-- The output write of a point (43_engine R262, R266): on a bus error the word's content is unknown (20_memory R98) and
the address is given back; a word another master wrote during the pass ends with one of the two values (70_reset R346). -/
def writePoint (i : Nat) (v : Word) (s : State) : Option Word × State :=
  let a := pointAddr s i
  if refusesWrite s a then (some a, (passWrite s a (Config.busErrWord s.free)).tick)
  else
    let kept := contested s a && !Config.raceWins s.free a.toNat
    let t := passWrite s a (if kept then readWord s.mem a else v)
    (none, { t with pending := pendingRemove s.pending i, pcount := s.pcount + 1 }.tick)

/-- One output point computed and written, or the address of a bus error (43_engine R262). -/
def attempt (pol : Policy) (i : Nat) (s : State) : Option Word × State :=
  match conv s pol (pointX s i) (pointY s i) with
  | .busErr a => (some (faultPick s a ((tapAddrs s pol i).filter (refusesRead s))), s.tick)
  | .ok p => writePoint i (outputWord s pol i p) s

/-- `PassEnd` (43_engine R265). -/
def passEnd (s : State) : State := { s with status := s.status.ended 0, overs := [] }

/-- The lanes that complete a pixel while a stopped pass drains, in the order of the picks; each bus error is recorded
(43_engine R267; 60_exceptions R306). -/
def drainLoop (pol : Policy) : List Nat → State → State
  | [], s => s
  | k :: ks, s =>
    match pendingPick s.pending k with
    | none => s
    | some i =>
      match attempt pol i s with
      | (none, t) => drainLoop pol ks t
      | (some a, t) => drainLoop pol ks { t with faultAddr := a }

/-- The state in which the lanes of a stopped pass have completed the pixels they complete (43_engine R267; log 7). -/
def drained (s : State) : State :=
  match s.ctrl.policy with
  | none => s.tick
  | some pol => drainLoop pol (Config.drainPicks s.free) s.tick

/-- `s` with what the output points of a pass change taken from `t`. -/
def State.withPass (s t : State) : State :=
  { s with
    mem       := t.mem
    pending   := t.pending
    pcount    := t.pcount
    faultAddr := t.faultAddr
    overs     := t.overs
    free      := t.free }

/-- `Drain` (43_engine R267). -/
def drain (s : State) : State :=
  { s.withPass (drained s) with status := s.status.ended s.stop.pres, overs := [] }

/-- The pass is told to stop, unless it already was (43_engine R267, R268). -/
def State.stopBy (s : State) (why : Stop) : State := { s with stop := if s.stop = .none then why else s.stop }

/-- `PassFault(addr)` (43_engine R267). -/
def passFault (a : Word) (s : State) : State := drain ({ s with faultAddr := a }.stopBy .busErr)

/-- What a pass does after one output point: it goes on, ends, or faults (43_engine R262). -/
def settle : Option Word × State → State
  | (some a, t) => passFault a t
  | (none, t) => if pendingSize t.pending = 0 then passEnd t else t

/-- The engine has a step (43_engine R262). -/
def engineEnabled (s : State) : Bool :=
  s.status.busy && (s.stop == .none) && (pendingSize s.pending != 0) && !s.inReset

/-- `EngineStep`, with the pending point that `pick` selects (43_engine R262, R264). Under BPOL 3, which no running pass
has (41_boundary R197), there is no step (log 28). -/
def engineStep (pick : Nat) (s : State) : State :=
  match s.ctrl.policy, pendingPick s.pending pick with
  | some pol, some i => settle (attempt pol i s)
  | _, _ => s

/-- The engine's turn: its step if it has one. -/
def engineTurn (pick : Nat) (s : State) : State := if engineEnabled s then engineStep pick s else s

/-- ABORT (43_engine R268). -/
def execAbort (s : State) : Result := .next (if s.status.busy then drain (s.stopBy .aborted) else s)

/-- The writes in flight at reset that were neither completed nor dropped (70_reset R341; log 13). -/
def wildLoop : List Nat → State → State
  | [], s => s
  | k :: ks, s =>
    match pendingPick s.pending k with
    | none => s
    | some i =>
      wildLoop ks { s with
        mem     := writeWord s.mem (pointAddr s i) (Config.inFlightWord s.free)
        pending := pendingRemove s.pending i
        free    := s.free + 1 }

/-- What a reset during a pass leaves of it: memory (70_reset R341). -/
def abandonPass (s : State) : State := if s.status.busy then wildLoop (Config.inFlight s.free) (drained s) else s

end Sys2Proof.Machine
end

