-- ==== Sys2Proof/Machine/Dispatch.lean ====
section
/-! DEFINITION. One arm per command (30_encoding R123), each one call of its meaning. -/

namespace Sys2Proof.Machine

def exec (i : Instr) (s : State) : Host.Outcome State Fault Refusal :=
  match i with
  | .nop => Sys2Proof.Machine.execNop s
  | .kcommit => Sys2Proof.Machine.execKcommit s
  | .start => Sys2Proof.Machine.execStart s
  | .abort => Sys2Proof.Machine.execAbort s
  | .map => Sys2Proof.Machine.execMap s
  | .sample d => Sys2Proof.Machine.execSample d s
  | .conv1 d => Sys2Proof.Machine.execConv1 d s
  | .padd d s1 s2 => Sys2Proof.Machine.execPadd d s1 s2 s
  | .pscale d s1 => Sys2Proof.Machine.execPscale d s1 s
  | .pdiv d s1 => Sys2Proof.Machine.execPdiv d s1 s
  | .tocolor s1 => Sys2Proof.Machine.execTocolor s1 s
  | .fromcolor d => Sys2Proof.Machine.execFromcolor d s

end Sys2Proof.Machine
end

