-- ==== Sys2Proof/Machine/RegPort.lean ====
section
/-! DEFINITION. The register port: the window's map, reads and writes of every register, the issue of commands, and the
transaction rules (10_state R30 to R53, R57; 20_memory R90 to R94; 30_encoding R125, R128). -/

namespace Sys2Proof.Machine

/-- The registers at offsets 0x000 to 0x044, in order (10_state R30). -/
def fixedRegs : List Reg :=
  [.id, .ctrl, .status, .cmd, .imgDim, .kdim, .srcBase, .srcStride, .dstBase]
    ++ [.dstStride, .wsum, .nfactor, .coord, .mapres, .scalar, .color, .pcount, .faultAddr]

/-- The channel at place `c` of a pixel register: 0 R, 1 G, 2 B, 3 A (10_state R50). -/
def channelAt : Nat → Channel
  | 0 => .r
  | 1 => .g
  | 2 => .b
  | _ => .a

/-- The place of a channel (10_state R50). -/
def channelIndex : Channel → Nat
  | .r => 0
  | .g => 1
  | .b => 2
  | .a => 3

/-- The register at word `w` of the window (10_state R30, R50, R52). -/
def regAtWord (w : Nat) : Reg :=
  if w < 18 then fixedRegs.getD w .reserved
  else if h : 32 ≤ w ∧ w < 48 then .preg ⟨(w - 32) / 4, by omega⟩ (channelAt ((w - 32) % 4))
  else if h : 64 ≤ w ∧ w < 289 then .kwmem ⟨w - 64, by omega⟩
  else .reserved

/-- The register at a 4-byte-aligned offset (10_state R30). -/
def regAt (offset : BitVec 12) : Reg := regAtWord (offset.toNat / 4)

/-- The word of the window a register is at; `reserved` stands for its first word (10_state R30). -/
def regWordIndex : Reg → Nat
  | .id => 0
  | .ctrl => 1
  | .status => 2
  | .cmd => 3
  | .imgDim => 4
  | .kdim => 5
  | .srcBase => 6
  | .srcStride => 7
  | .dstBase => 8
  | .dstStride => 9
  | .wsum => 10
  | .nfactor => 11
  | .coord => 12
  | .mapres => 13
  | .scalar => 14
  | .color => 15
  | .pcount => 16
  | .faultAddr => 17
  | .preg n c => 32 + 4 * n.val + channelIndex c
  | .kwmem i => 64 + i.val
  | .reserved => 18

/-- The offset of a register (10_state R30). -/
def regOffset (r : Reg) : BitVec 12 := BitVec.ofNat 12 (4 * regWordIndex r)

/-- The platform address of an offset, from REG_BASE (10_state R30; log 18). -/
def windowAddr (offset : BitVec 12) : Word := Config.regBase + offset.zeroExtend 32

/-- The offset a platform address selects, if it lies in the block's window (20_memory R90; log 18). -/
def windowOffset (addr : Word) : Option (BitVec 12) :=
  if (addr - Config.regBase).toNat < 4096 then some (BitVec.ofNat 12 (addr - Config.regBase).toNat) else none

/-- What a register reads as (10_state R31 to R53). -/
def regRead (r : Reg) (s : State) : Word :=
  match r with
  | .id => Config.idValue
  | .ctrl => s.ctrl.word
  | .status => s.status.word
  | .cmd => 0
  | .imgDim => s.imgDim.height ++ s.imgDim.width
  | .kdim => s.kdim.kb ++ s.kdim.ka ++ s.kdim.kh ++ s.kdim.kw
  | .srcBase => s.srcBase
  | .srcStride => s.srcStride
  | .dstBase => s.dstBase
  | .dstStride => s.dstStride
  | .wsum => s.wsum
  | .nfactor => s.nfactor
  | .coord => s.coord.y ++ s.coord.x
  | .mapres => s.mapres.y ++ s.mapres.x
  | .scalar => s.scalar
  | .color => s.color
  | .pcount => s.pcount
  | .faultAddr => s.faultAddr
  | .preg n c => (preg s n).get c
  | .kwmem i => s.kwmem[i]
  | .reserved => 0

/-- A configuration write: ignored with WIGN while a pass runs (10_state R57). -/
def configWrite (s t : State) : State := if s.status.busy then { s with status := s.status.ignored } else t

/-- Bits [1:0] of the base and stride registers are hardwired to 0 (10_state R40, R41). -/
def dropLow (v : Word) : Word := v &&& 0xFFFFFFFC

/-- A write of CTRL (10_state R32, R34, R53). -/
def writeCtrl (v : Word) (s : State) : State :=
  if s.status.busy then
    { s with ctrl := s.ctrl.withEnables v, status := if s.ctrl.differsLow v then s.status.ignored else s.status }
  else
    { s with
      ctrl   := Ctrl.ofWord v
      status := if (Ctrl.ofWord v).norm != s.ctrl.norm then s.status.withKvalid false else s.status }

/-- A write of KDIM (10_state R39, R53). -/
def writeKdim (v : Word) (s : State) : State :=
  configWrite s { s with
    kdim   := { s.kdim with kw := v.extractLsb' 0 8, kh := v.extractLsb' 8 8 }
    status := s.status.withKvalid false }

/-- A write of a usable KWMEM word (10_state R52, R53). -/
def writeKwmem (i : Fin 225) (v : Word) (s : State) : State :=
  configWrite s { s with kwmem := s.kwmem.set i v, status := s.status.withKvalid false }

/-- A write of a register other than CMD (10_state R31 to R53); a read-only or reserved one ignores it (R30). -/
def regWrite (r : Reg) (v : Word) (s : State) : State :=
  match r with
  | .ctrl => writeCtrl v s
  | .status => clearStatus v s
  | .imgDim => configWrite s { s with imgDim := ⟨v.extractLsb' 0 16, v.extractLsb' 16 16⟩ }
  | .kdim => writeKdim v s
  | .srcBase => configWrite s { s with srcBase := dropLow v }
  | .srcStride => configWrite s { s with srcStride := dropLow v }
  | .dstBase => configWrite s { s with dstBase := dropLow v }
  | .dstStride => configWrite s { s with dstStride := dropLow v }
  | .coord => { s with coord := ⟨v.extractLsb' 0 16, v.extractLsb' 16 16⟩ }
  | .scalar => { s with scalar := v }
  | .color => { s with color := v }
  | .preg n c => setPreg s n ((preg s n).set c v)
  | .kwmem i => writeKwmem i v s
  | .id | .cmd | .wsum | .nfactor | .mapres | .pcount | .faultAddr | .reserved => s

/-- A word written to CMD: executed if it is a command, else rejected ILLEGAL_CMD (30_encoding R125, R128). -/
def command (w : Word) (s : State) : Result :=
  match decode w with
  | .ok i => exec i s
  | .error _ => .next (reject .illegalCmd s)

/-- A write of a register: CMD issues a command, any other register is written (10_state R37). -/
def portWrite (r : Reg) (v : Word) (s : State) : Result := if r = .cmd then command v s else .next (regWrite r v s)

/-- The offset is 4-byte aligned (20_memory R91). -/
def aligned (offset : BitVec 12) : Bool := offset.toNat % 4 == 0

/-- The port accepts the transaction: 4 bytes, aligned, and a write with every byte enable on (20_memory R91). -/
def Access.accepted (t : Access) : Bool := t.size == 4 && aligned t.offset && (!t.isWrite || t.enables == 0xF)

/-- One register-port transaction (20_memory R90, R91, R93; 70_reset R340). -/
def portAccess (t : Access) (s : State) : Result :=
  if s.inReset then .next { s with resp := .notAccepted }
  else if !t.accepted then .next { s with resp := .error }
  else if t.isWrite then portWrite (regAt t.offset) t.data { s with resp := .ok }
  else .next { s with resp := .data (regRead (regAt t.offset) s) }

end Sys2Proof.Machine
end

