-- ==== Sys2Proof/Machine/Environment.lean ====
section
/-! DEFINITION. What the outside world does besides register transactions: polling and waiting, the reset input, and other
masters' accesses to memory (30_encoding R132; 70_reset R340, R341, R346, R347; 20_memory R104 to R108). -/

namespace Sys2Proof.Machine

/-- The host is not done waiting: the engine gets a turn, and then the host looks again (log 23). -/
def keepWaiting (s : State) : State := { s with agenda := .engine (Config.passOrder s.free) :: s.agenda }.tick

/-- One read of a `POLL` (30_encoding R132). `s` still has the poll at the head of its agenda, `rest` is what follows. -/
def pollTurn (offset : BitVec 12) (mask value : Word) (rest : List Event) (s : State) : State :=
  if s.inReset then { s with agenda := rest, resp := .notAccepted }
  else if !aligned offset then { s with agenda := rest, resp := .error }
  else
    let v := regRead (regAt offset) s
    if v &&& mask = value then { s with agenda := rest, resp := .data v }
    else keepWaiting { s with resp := .data v }

/-- The host waits for `irq` (70_reset R344 step 7). -/
def irqTurn (rest : List Event) (s : State) : State := if irq s then { s with agenda := rest } else keepWaiting s

/-- Reset asserted: the block's registers take their reset values and any pass is abandoned; KWMEM is unspecified; memory
is not the block's and keeps what the pass left (70_reset R340, R341; 10_state R58; logs 13, 14, 16). -/
def assertReset (s : State) : State :=
  let t := abandonPass s
  { State.reset with
    kwmem   := Vector.ofFn (fun i => Config.kwmemAfterReset t.free i.val)
    inReset := true
    mem     := t.mem
    busMap  := s.busMap
    agenda  := s.agenda
    resp    := s.resp
    free    := t.free + 1 }

/-- Reset released: the block waits for register transactions (70_reset R343). -/
def releaseReset (s : State) : State := { s with inReset := false }

/-- The address of the aligned word that holds the byte at `a` (20_memory R95). -/
def wordBase (a : Word) : Word := a &&& 0xFFFFFFFC

/-- The aligned words that `n` bytes from `a` touch. -/
def touchedWords (a : Word) (n : Nat) : List Word := ((List.range n).map (fun k => wordBase (a + BitVec.ofNat 32 k))).eraseDups

/-- The pass wrote the word at `a`. -/
def writtenByPass (s : State) (a : Word) : Bool := s.overs.any (fun o => o.addr == a && o.byPass)

/-- One word of another master's write during a pass, `new` being memory with the whole write done: a word the pass wrote
too ends with one of the two values (70_reset R346; log 9). -/
def settleWord (new : Memory) (s : State) (a : Word) : State :=
  let kept := writtenByPass s a && Config.raceWins s.free a.toNat
  { s with
    mem   := writeWord s.mem a (if kept then readWord s.mem a else readWord new a)
    overs := ⟨a, readWord s.mem a, false⟩ :: s.overs }

/-- Another master writes bytes of memory (20_memory R101, R105, R108; 70_reset R346). -/
def otherWrite (a : Word) (bs : List Byte) (s : State) : State :=
  if s.status.busy then ((touchedWords a bs.length).foldl (settleWord (writeBytes s.mem a bs)) s).tick
  else { s with mem := writeBytes s.mem a bs }

/-- Other masters' writes, one after the other. -/
def landAll (ws : List MemWrite) (s : State) : State := ws.foldl (fun u w => otherWrite w.addr w.bytes u) s

/-- A transaction while other masters' writes land. With no pass running, what it reads of memory sees any of them or none
(20_memory R108), and afterwards they all have landed, before any read of a pass that it starts (20_memory R105). While a pass
runs they race with the pass (70_reset R346). There, DESIGN CHOICE, they land first, so that under ABORT what the drained taps
read, and which value an output word keeps, are the free values of any racing write (20_memory R108; logs 8, 9, 21). -/
def accessDuring (t : Access) (ws : List MemWrite) (s : State) : Result :=
  if s.status.busy then portAccess t (landAll ws s)
  else
    match portAccess t { s with during := ws } with
    | .next u => .next { u with during := [], mem := landWrites u.mem ws }.tick
    | stopped => stopped

/-- The values the word at `a` has held since the pass began, the present one first (20_memory R108). -/
def heldValues (s : State) (a : Word) : List Word :=
  readWord s.mem a :: (s.overs.filter (fun o => o.addr == a)).map (fun o => o.old)

/-- Another master reads the word that holds the byte at `a`: during a pass it may see any value the word has held since the
pass began, afterwards the present one (20_memory R106, R107; 70_reset R347; log 10). -/
def otherRead (a : Word) (s : State) : State :=
  let w := wordBase a
  let v :=
    if s.status.busy && overwritten s w then
      (heldValues s w).getD (Config.earlyView s.free % (heldValues s w).length) (readWord s.mem w)
    else readWord s.mem w
  { s with resp := .memData v }.tick

end Sys2Proof.Machine
end

