-- ==== Sys2Proof/Machine/HostProgram.lean ====
section
/-! DEFINITION. The host notation of 30_encoding R132 as agenda events: WR, RD, CMD, POLL and the pseudo-instructions. -/

namespace Sys2Proof.Machine

/-- `WR <reg>, <value>`. -/
def hostWr (r : Reg) (v : Word) : Event := .access ⟨true, regOffset r, 4, 0xF, v⟩

/-- `RD <reg>`. -/
def hostRd (r : Reg) : Event := .access ⟨false, regOffset r, 4, 0, 0⟩

/-- `CMD <command>`. -/
def hostCmd (i : Instr) : Event := hostWr .cmd (encode i)

/-- `POLL <reg>, <mask>, <value>`. -/
def hostPoll (r : Reg) (mask value : Word) : Event := .poll (regOffset r) mask value

/-- `WAITIDLE`. -/
def hostWaitIdle : List Event := [hostPoll .status 0x00000001 0x00000000]

/-- `RUN`. -/
def hostRun : List Event := hostCmd .start :: hostWaitIdle

/-- `CLEARST`. -/
def hostClearSt : List Event := [hostWr .status 0x00000016]

/-- `WR KWMEM[i], w` for the weights `ws` from word `i` on; a word above 224 is a reserved one. -/
def hostWeights : Nat → List Word → List Event
  | _, [] => []
  | i, w :: ws => hostWr (if h : i < 225 then .kwmem ⟨i, h⟩ else .reserved) w :: hostWeights (i + 1) ws

/-- `LDKERNEL kw, kh, w0, ..., wn`. -/
def hostLdKernel (kw kh : Byte) (ws : List Word) : List Event :=
  hostWr .kdim ((0 : BitVec 16) ++ kh ++ kw) :: (hostWeights 0 ws ++ [hostCmd .kcommit])

/-- `LDPIX pn, r, g, b, a`. -/
def hostLdPix (n : PReg) (p : Pixel) : List Event :=
  [hostWr (.preg n .r) p.r, hostWr (.preg n .g) p.g, hostWr (.preg n .b) p.b, hostWr (.preg n .a) p.a]

end Sys2Proof.Machine
end

