-- ==== Sys2Proof/Machine/Step.lean ====
section
/-! DEFINITION. One step of the machine: the head of the agenda says which agent moves and what it does; with an empty
agenda the engine moves if a pass runs, and an idle block waits (00_scope R6; 43_engine R262; 60_exceptions R319; log 4). -/

namespace Sys2Proof.Machine

/-- One step. -/
def step (s : State) : Host.Outcome State Fault Refusal :=
  match s.agenda with
  | [] => .next (engineTurn (Config.passOrder s.free) s)
  | .access t :: rest => portAccess t { s with agenda := rest }
  | .accessDuring t ws :: rest => accessDuring t ws { s with agenda := rest }
  | .poll offset mask value :: rest => .next (pollTurn offset mask value rest s)
  | .awaitIrq :: rest => .next (irqTurn rest s)
  | .engine pick :: rest => .next (engineTurn pick { s with agenda := rest })
  | .resetOn :: rest => .next (assertReset { s with agenda := rest })
  | .resetOff :: rest => .next (releaseReset { s with agenda := rest })
  | .memWrite a bs :: rest => .next (otherWrite a bs { s with agenda := rest })
  | .memRead a :: rest => .next (otherRead a { s with agenda := rest })
  | .setBusMap regions :: rest => .next { s with busMap := regions, agenda := rest }

/-- `s` with the host about to write the word `w` to CMD, so that the next step issues it (log 3). -/
def State.withFetchWord (s : State) (nbits w : Nat) : State :=
  { s with
    inReset := false
    agenda  := .access ⟨true, 0x00C, 4, 0xF, BitVec.ofNat 32 (w % 2 ^ nbits)⟩ :: s.agenda }

end Sys2Proof.Machine
end

