-- ==== Sys2Proof/Safety.lean ====
section
/-! DEFINITION. What claims call a legal state of the machine: the invariants that the spec's rules give, each of which every
step keeps. After them the convolution in the terms of claims: written out from the rules, and used by no part of the machine. -/

namespace Sys2Proof.Machine

/-- Memory is in its canonical form. -/
def State.memCanonical (s : State) : Prop := Memory.wf s.mem = true

/-- The hardwired low bits of the base and stride registers are 0 (10_state R40, R41). -/
def State.basesAligned (s : State) : Prop :=
  s.srcBase.toNat % 4 = 0 ∧ s.srcStride.toNat % 4 = 0 ∧ s.dstBase.toNat % 4 = 0 ∧ s.dstStride.toNat % 4 = 0

/-- STATUS holds only values the block produces: CECODE is 0 exactly when CERR is 0, CECODE 9 to 15 and PRES 3 never
occur (10_state R35; 60_exceptions R302; 93 I17). -/
def State.statusLegal (s : State) : Prop :=
  s.status.pres ≠ 3 ∧ s.status.cecode.toNat ≤ 8 ∧ (s.status.cerr = true ↔ s.status.cecode ≠ 0)

/-- KW and KH as KCOMMIT accepts them: odd and at most 15 (42_kernel R222). -/
def KDim.legal (k : KDim) : Prop :=
  k.kw.toNat % 2 = 1 ∧ k.kh.toNat % 2 = 1 ∧ k.kw.toNat ≤ 15 ∧ k.kh.toNat ≤ 15

/-- While KVALID is 1 the kernel registers are those a KCOMMIT of the present KDIM, KWMEM and NORM gives (10_state R53;
42_kernel R222, R224, R226, R227). -/
def State.kernelCommitted (s : State) : Prop :=
  s.status.kvalid = true →
    s.kdim.legal ∧ s.kdim.ka.toNat = s.kdim.kw.toNat / 2 ∧ s.kdim.kb.toNat = s.kdim.kh.toNat / 2 ∧
    s.wsum = weightSum s.kwmem s.kdim.kw.toNat s.kdim.kh.toNat ∧ s.nfactor = normFactor s.wsum s.ctrl.norm

/-- What holds while a pass runs, between the engine's steps: the checks START made still hold, points are pending, and
PCOUNT counts the others (43_engine R260 to R266; 10_state R56). -/
def State.passRunning (s : State) : Prop :=
  s.status.busy = true →
    s.status.kvalid = true ∧ s.status.done = false ∧ s.status.pres = 0 ∧ s.ctrl.bpol ≠ 3 ∧ s.stop = .none ∧
    s.inReset = false ∧ dimZero s = false ∧
    pendingWfFrom (imgW s * imgH s) 0 s.pending = true ∧ pendingSize s.pending ≠ 0 ∧
    s.pcount.toNat + pendingSize s.pending = imgW s * imgH s

/-- No record of overwritten words is kept when no pass runs, and between steps no command has writes landing during it. -/
def State.idleClean (s : State) : Prop := (s.status.busy = false → s.overs = []) ∧ s.during = []

/-! ### The convolution as the rules state it -/

/-- The source word of the tap in row `j` and column `i` of the kernel at the point `(x, y)`: `SrcAddr(Map(x + dx, y + dy))`
with `dx = i - KA` and `dy = j - KB` (41_boundary R199, R200; 42_kernel R220, R237). -/
def State.tapAddr (s : State) (pol : Policy) (x y : Int) (j i : Nat) : Word :=
  let q := mapPoint pol s.imgDim.width.toNat s.imgDim.height.toNat (x + (i - s.kdim.ka.toNat)) (y + (j - s.kdim.kb.toNat))
  srcAddr s q.1.toNat q.2.toNat

/-- There is a tap in row `j`, from `dy = -KB` to `KB`, and column `i`, from `dx = -KA` to `KA` (42_kernel R220, R229). -/
def State.isTap (s : State) (j i : Nat) : Prop := j < 2 * s.kdim.kb.toNat + 1 ∧ i < 2 * s.kdim.ka.toNat + 1

/-- A channel's byte of a raster word: R lowest, A highest (20_memory R96). -/
def channelByte (c : Channel) (v : Word) : Byte :=
  match c with
  | .r => v.extractLsb' 0 8
  | .g => v.extractLsb' 8 8
  | .b => v.extractLsb' 16 8
  | .a => v.extractLsb' 24 8

/-- A channel of the convolution when the tap in row `j` and column `i` reads the word `v j i`: from `+0.0`, for `dy` from
`-KB` to `KB` and within it `dx` from `-KA` to `KA`, the sum of `FromColor` of the channel's byte times KWMEM word
`(dy + KB)*KW + (dx + KA)`, each product and each sum rounded; then times NFACTOR exactly when NORM is 1 (40_pixel_alu R161;
42_kernel R221, R224, R228 to R233). -/
def State.convChannel (s : State) (v : Nat → Nat → Word) (c : Channel) : Word :=
  let sum := (List.range (2 * s.kdim.kb.toNat + 1)).foldl (fun acc j =>
    (List.range (2 * s.kdim.ka.toNat + 1)).foldl (fun acc i =>
      F32.fadd acc (F32.fmul (F32.fdiv (F32.ofNat (channelByte c (v j i)).toNat) 0x437F0000)
        (s.kwmem.toList.getD (j * s.kdim.kw.toNat + i) 0x00000000))) acc) 0x00000000
  if s.ctrl.norm = true then F32.fmul sum s.nfactor else sum

/-- The correct output value of the point with index `n`, `y*W + x`, of memory as it stands (43_engine R263). -/
def State.correctWord (s : State) (pol : Policy) (n : Nat) : Word :=
  let ch c := toColorCh (s.convChannel (fun j i => readWord s.mem (s.tapAddr pol (n % imgW s : Nat) (n / imgW s : Nat) j i)) c)
  ch .a ++ ch .b ++ ch .g ++ ch .r

/-- A source read of the word at `a` races: it was written since the pass began, or it is an output word of the pass
(20_memory R108; 70_reset R345). -/
def State.races (s : State) (a : Word) : Prop :=
  (∃ o ∈ s.overs, o.addr = a) ∨ ∃ n, n < imgW s * imgH s ∧ pointAddr s n = a

/-- What a stopped pass leaves of the output word of point `i` when it goes from `s` to `t`: the value from before, or the
correct value of a pending point with that address, or any value if a tap of that point races (43_engine R267). -/
def State.keptOrCorrect (s t : State) (pol : Policy) (i : Nat) : Prop :=
  readWord t.mem (pointAddr s i) = readWord s.mem (pointAddr s i) ∨
  ∃ n, pendingHas s.pending n = true ∧ pointAddr s n = pointAddr s i ∧
    (readWord t.mem (pointAddr s i) = s.correctWord pol n ∨ ∃ a ∈ tapAddrs s pol n, s.races a)

end Sys2Proof.Machine
end

