-- ==== Sys2Proof/Certificates/Slice0/Obligations.lean ====
section
/-! DEFINITION. The statements for the provers, from the spec's numbered rules. A next state is written as the record it is, so
that every field not named in it is unchanged: that is the statement's frame, all of memory and every register included. -/

open Sys2Proof Sys2Proof.Machine

/-! ### Encoding and the step -/

/-- Words of 95_test_vectors section 2.7, each built from the fields of 30_encoding R121 and R123. -/
def Obligations.SpecWordsDecode : Prop :=
  decode 0x00000000 = .ok .nop ∧ decode 0x00003F01 = .ok .kcommit ∧ decode 0x00000002 = .ok .start ∧
  decode 0x00000003 = .ok .abort ∧ decode 0x00000004 = .ok .map ∧ decode 0x00003C05 = .ok (.sample 0) ∧
  decode 0x00000206 = .ok (.conv1 2) ∧ decode 0x00000610 = .ok (.padd 2 1 0) ∧ decode 0x00003B11 = .ok (.pscale 3 2) ∧
  decode 0x00000F12 = .ok (.pdiv 3 3) ∧ decode 0x00000313 = .ok (.tocolor 0) ∧ decode 0x00000114 = .ok (.fromcolor 1)

/-- Decode and encode agree, over the bytes of CMD and whatever follows them (30_encoding R121, R123, R131; 20_memory R92). -/
def Obligations.EncodedInstructionsDecodeBack : Prop :=
  ∀ (i : Instr) (rest : List Byte), i.wellFormed = true → decodeBytes (bytesOfWord (encode i) ++ rest) = .ok (i, rest)

/-- A word is an instruction exactly when it matches it under RSV, OP and the fields the command reads; the command itself is
selected by RSV and OP alone (30_encoding R121, R123, R124). -/
def Obligations.DecodeSelectsByMask : Prop :=
  (∀ (w : Word) (i : Instr), decode w = .ok i ↔ w &&& i.mask = encode i) ∧
  (∀ (w : Word) (i : Instr), decode w = .ok i → w &&& 0xFFFFC0FF = i.opcode.zeroExtend 32)

/-- An illegal word is rejected ILLEGAL_CMD in every state, whether or not a pass is running (30_encoding R125). -/
def Obligations.IllegalWordsAreRejected : Prop :=
  ∀ (w : Word) (s : State),
    (w.extractLsb' 14 18 ≠ 0 ∨
      w.extractLsb' 0 8 ∉ ([0x00, 0x01, 0x02, 0x03, 0x04, 0x05, 0x06, 0x10, 0x11, 0x12, 0x13, 0x14] : List (BitVec 8))) →
    command w s = .next { s with status := { s.status with cerr := true, cecode := 1 } }

/-- The host's write of a command word to CMD is one step: the decoded instruction runs in the state in which the host's
transaction is taken off the agenda and answered OK (20_memory R93; 30_encoding R127, R128). With other masters' writes landing
during it and no pass running, it runs in the state that holds them, and the step ends with all of them in memory and no record
of them, so that every read of a pass it starts sees them (20_memory R105, R108). While a pass runs, it runs after they have
raced with that pass, the model's choice of the order (70_reset R346; log 21). -/
def Obligations.CommandWriteRunsTheDecodedInstruction : Prop :=
  (∀ (s : State) (w : Word) (i : Instr) (rest : List Event),
    s.inReset = false → s.agenda = .access ⟨true, 0x00C, 4, 0xF, w⟩ :: rest → decode w = .ok i →
    step s = exec i { s with agenda := rest, resp := .ok }) ∧
  (∀ (s : State) (w : Word) (ws : List MemWrite) (i : Instr) (rest : List Event),
    s.inReset = false → s.agenda = .accessDuring ⟨true, 0x00C, 4, 0xF, w⟩ ws :: rest → decode w = .ok i →
    (s.status.busy = false →
      ∃ u t, exec i { s with agenda := rest, resp := .ok, during := ws } = .next u ∧ step s = .next t ∧
        t = { u with during := [], mem := ws.foldl (fun m w => writeBytes m w.addr w.bytes) u.mem, free := t.free }) ∧
    (s.status.busy = true →
      step s = exec i { ws.foldl (fun u w => otherWrite w.addr w.bytes u) { s with agenda := rest } with resp := .ok }))

/-- The machine never stops: no step is a fault or a refusal, and no command is (60_exceptions R300, R310). -/
def Obligations.EveryStepAnswersAState : Prop :=
  (∀ s : State, ∃ t, step s = .next t) ∧ (∀ (i : Instr) (s : State), ∃ t, exec i s = .next t)

/-! ### NOP and the pixel arithmetic unit -/

/-- NOP (43_engine R269). -/
def Obligations.NopChangesNothing : Prop :=
  (∀ s : State, exec .nop s = .next s) ∧
  (∀ w : Word, w.extractLsb' 0 8 = 0 → w.extractLsb' 14 18 = 0 → decode w = .ok .nop) ∧
  (∀ w : Word, w.extractLsb' 14 18 ≠ 0 → decode w = .error .reservedBits)

/-- PADD, PSCALE and PDIV: the destination holds the channel-wise result of the sources' old values, and nothing else changes
(40_pixel_alu R157 to R159, R162 to R164; 10_state R51). -/
def Obligations.PixelArithmeticResults : Prop :=
  ∀ (s : State) (d s1 s2 : PReg),
    (∃ t, exec (.padd d s1 s2) s = .next t ∧ t = { s with pregs := t.pregs } ∧ (∀ n, n ≠ d → preg t n = preg s n) ∧
      ∀ c, (preg t d).get c = F32.fadd ((preg s s1).get c) ((preg s s2).get c)) ∧
    (∃ t, exec (.pscale d s1) s = .next t ∧ t = { s with pregs := t.pregs } ∧ (∀ n, n ≠ d → preg t n = preg s n) ∧
      ∀ c, (preg t d).get c = F32.fmul ((preg s s1).get c) s.scalar) ∧
    (∃ t, exec (.pdiv d s1) s = .next t ∧ t = { s with pregs := t.pregs } ∧ (∀ n, n ≠ d → preg t n = preg s n) ∧
      ∀ c, (preg t d).get c = F32.fdiv ((preg s s1).get c) s.scalar)

/-- TOCOLOR and FROMCOLOR: their results, and nothing else. `ToColorCh(v)` is 0 for a NaN and for a value with its sign set;
of any other value `t = fmul(v, 255.0)` gives 255 from 255.0 on, and else its integer part, `F32.units` counting units of
`2 ^ -149` (40_pixel_alu R160, R161, R165, R166; 10_state R45). -/
def Obligations.ColorConversionResults : Prop :=
  (∀ (s : State) (n : PReg),
    exec (.tocolor n) s = .next { s with
      color := toColorCh (preg s n).a ++ toColorCh (preg s n).b ++ toColorCh (preg s n).g ++ toColorCh (preg s n).r } ∧
    ∃ t, exec (.fromcolor n) s = .next t ∧ t = { s with pregs := t.pregs } ∧ (∀ k, k ≠ n → preg t k = preg s k) ∧
      (preg t n).r = F32.fdiv (F32.ofNat (s.color.extractLsb' 0 8).toNat) 0x437F0000 ∧
      (preg t n).g = F32.fdiv (F32.ofNat (s.color.extractLsb' 8 8).toNat) 0x437F0000 ∧
      (preg t n).b = F32.fdiv (F32.ofNat (s.color.extractLsb' 16 8).toNat) 0x437F0000 ∧
      (preg t n).a = F32.fdiv (F32.ofNat (s.color.extractLsb' 24 8).toNat) 0x437F0000) ∧
  (∀ v : Word, (0x7F800000 < v.toNat % 2 ^ 31 ∨ v.msb = true) → toColorCh v = 0) ∧
  (∀ v : Word, v.toNat ≤ 0x7F800000 →
    (0x437F0000 ≤ (F32.fmul v 0x437F0000).toNat → toColorCh v = 255) ∧
    ((F32.fmul v 0x437F0000).toNat < 0x437F0000 → (toColorCh v).toNat = F32.units (F32.fmul v 0x437F0000) / 2 ^ 149)) ∧
  (∀ k : Byte, (F32.ofNat k.toNat).toNat < 0x7F800000 ∧ F32.units (F32.ofNat k.toNat) = k.toNat * 2 ^ 149)

/-- FROMCOLOR into a register and TOCOLOR out of it leave COLOR as it was (40_pixel_alu R165, R166, R168). -/
def Obligations.ColorRoundTripThroughRegisters : Prop :=
  ∀ (s : State) (n : PReg), ∃ t u, exec (.fromcolor n) s = .next t ∧ exec (.tocolor n) t = .next u ∧ u.color = s.color

/-- `PAddPix` is exactly commutative and not associative (40_pixel_alu R167). -/
def Obligations.AdditionCommutesAndDoesNotAssociate : Prop :=
  (∀ p q : Pixel, pAddPix p q = pAddPix q p) ∧
  (∃ x y z : Word, F32.fadd (F32.fadd x y) z ≠ F32.fadd x (F32.fadd y z))

/-- A NaN operand or an invalid operation gives the canonical NaN (40_pixel_alu R152). The value patterns are written out:
infinity is `0x7F800000` with either sign, a zero has no bit set but bit 31. -/
def Obligations.InvalidOperationsGiveTheCanonicalNan : Prop :=
  (∀ x y : Word, (F32.isNaN x = true ∨ F32.isNaN y = true) →
    F32.fadd x y = 0x7FC00000 ∧ F32.fmul x y = 0x7FC00000 ∧ F32.fdiv x y = 0x7FC00000) ∧
  F32.fadd 0x7F800000 0xFF800000 = 0x7FC00000 ∧ F32.fadd 0xFF800000 0x7F800000 = 0x7FC00000 ∧
  (∀ x y : Word, x &&& 0x7FFFFFFF = 0 → y &&& 0x7FFFFFFF = 0x7F800000 →
    F32.fmul x y = 0x7FC00000 ∧ F32.fmul y x = 0x7FC00000) ∧
  (∀ x y : Word, x &&& 0x7FFFFFFF = 0 → y &&& 0x7FFFFFFF = 0 → F32.fdiv x y = 0x7FC00000) ∧
  (∀ x y : Word, x &&& 0x7FFFFFFF = 0x7F800000 → y &&& 0x7FFFFFFF = 0x7F800000 → F32.fdiv x y = 0x7FC00000)

/-- The signs of zero sums, products and quotients, and division by zero (40_pixel_alu R153, R154). -/
def Obligations.SignsOfZerosAndDivisionByZero : Prop :=
  F32.fadd 0x00000000 0x80000000 = 0x00000000 ∧ F32.fadd 0x80000000 0x80000000 = 0x80000000 ∧
  (∀ x : Word, x.toNat % 2 ^ 31 < 0x7F800000 → x.toNat % 2 ^ 31 ≠ 0 → F32.fadd x (x ^^^ 0x80000000) = 0x00000000) ∧
  (∀ x y : Word, (F32.fmul x y).toNat % 2 ^ 31 = 0 → (F32.fmul x y).msb = (x.msb ^^ y.msb)) ∧
  (∀ x y : Word, (F32.fdiv x y).toNat % 2 ^ 31 = 0 → (F32.fdiv x y).msb = (x.msb ^^ y.msb)) ∧
  (∀ x y : Word, F32.isNaN x = false → x.toNat % 2 ^ 31 ≠ 0 → y.toNat % 2 ^ 31 = 0 →
    F32.fdiv x y = if (x.msb ^^ y.msb) then 0xFF800000 else 0x7F800000)

/-- Rounding is to nearest, ties to even: for every exact magnitude `n / d` in units of `2 ^ -149`, the pattern `roundMag`
gives is at least as near as any finite pattern, an even one where two are equally near, and it is infinity exactly from half
an ulp above the largest finite value on, `2 ^ 128 - 2 ^ 103` (40_pixel_alu R150, R151, R153). -/
def Obligations.RoundingIsNearestTiesToEven : Prop :=
  ∀ (n d : Nat), 0 < d →
    (F32.roundMag n d = 0x7F800000 ↔ (2 ^ 277 - 2 ^ 252) * d ≤ n) ∧
    (F32.roundMag n d ≠ 0x7F800000 → F32.roundMag n d < 0x7F800000 ∧
      ∀ m : Nat, m < 0x7F800000 →
        ((n : Int) - F32.units (BitVec.ofNat 32 (F32.roundMag n d)) * d).natAbs ≤
          ((n : Int) - F32.units (BitVec.ofNat 32 m) * d).natAbs ∧
        (((n : Int) - F32.units (BitVec.ofNat 32 (F32.roundMag n d)) * d).natAbs =
            ((n : Int) - F32.units (BitVec.ofNat 32 m) * d).natAbs →
          F32.units (BitVec.ofNat 32 m) ≠ F32.units (BitVec.ofNat 32 (F32.roundMag n d)) → F32.roundMag n d % 2 = 0))

/-- Each operation on finite operands rounds its exact result once (40_pixel_alu R150, R155): the exact sum, product and
quotient, in units of `2 ^ -149`, each with the sign of the exact result. -/
def Obligations.FiniteOperationsRoundTheExactResult : Prop :=
  ∀ x y : Word, x.toNat % 2 ^ 31 < 0x7F800000 → y.toNat % 2 ^ 31 < 0x7F800000 →
    (F32.signedUnits x + F32.signedUnits y ≠ 0 →
      F32.fadd x y = F32.pack (decide (F32.signedUnits x + F32.signedUnits y < 0))
        (F32.roundMag (F32.signedUnits x + F32.signedUnits y).natAbs 1)) ∧
    F32.fmul x y = F32.pack (x.msb ^^ y.msb) (F32.roundMag (F32.units x * F32.units y) (2 ^ 149)) ∧
    (F32.units y ≠ 0 →
      F32.fdiv x y = F32.pack (x.msb ^^ y.msb) (F32.roundMag (F32.units x * 2 ^ 149) (F32.units y)))

/-! ### The boundary map and the sampler -/

/-- `ExtendCh`, and how CTRL selects it (41_boundary R191). -/
def Obligations.ExtendRepeatsTheBorder : Prop :=
  (∀ v n : Int, 1 ≤ n →
    mapCh .extend v n = min (max v 0) (n - 1) ∧ (v < 0 → mapCh .extend v n = 0) ∧ (n ≤ v → mapCh .extend v n = n - 1) ∧
    (0 ≤ v → v < n → mapCh .extend v n = v)) ∧
  (∀ c : Ctrl, c.bpol = 0 → c.policy = some .extend)

/-- `WrapRefCh` is the floor modulo and the source's formula with a truncating `mod`, with 0 for `N = 1`, and how CTRL selects
it (41_boundary R192). -/
def Obligations.WrapReferenceIsTheSourceFormula : Prop :=
  (∀ v : Int, mapCh .wrapRef v 1 = 0) ∧
  (∀ v n : Int, 2 ≤ n →
    mapCh .wrapRef v n = v - (n - 1) * (v / (n - 1)) ∧
    mapCh .wrapRef v n = Int.tmod (Int.tmod v (n - 1) + (n - 1)) (n - 1) ∧
    0 ≤ mapCh .wrapRef v n ∧ mapCh .wrapRef v n ≤ n - 2) ∧
  (∀ v : Int, mapCh .wrapRef v 2 = 0) ∧
  (∀ c : Ctrl, c.bpol = 1 → c.wrapm = false → c.policy = some .wrapRef)

/-- `WrapCorCh`, and how CTRL selects a Wrap modulus, the reference one after reset (41_boundary R193). -/
def Obligations.WrapCorrectedTilesTheImage : Prop :=
  (∀ v n : Int, 1 ≤ n →
    0 ≤ mapCh .wrapCor v n ∧ mapCh .wrapCor v n ≤ n - 1 ∧ mapCh .wrapCor v n = v - n * (v / n)) ∧
  (∀ c : Ctrl, c.bpol = 1 → c.policy = some (if c.wrapm then .wrapCor else .wrapRef)) ∧
  State.reset.ctrl.wrapm = false

/-- `MirrorCh` is the source's reflection wherever that is in range, has period `2(N-1)`, and stays in range, and how CTRL
selects it (41_boundary R194). -/
def Obligations.MirrorReflectsAndRepeats : Prop :=
  (∀ v : Int, mapCh .mirror v 1 = 0) ∧
  (∀ v n : Int, 2 ≤ n →
    0 ≤ mapCh .mirror v n ∧ mapCh .mirror v n ≤ n - 1 ∧ mapCh .mirror (v + 2 * (n - 1)) n = mapCh .mirror v n ∧
    (0 ≤ v → v ≤ n - 1 → mapCh .mirror v n = v) ∧ (-(n - 1) ≤ v → v < 0 → mapCh .mirror v n = -v) ∧
    (n - 1 < v → v ≤ 2 * (n - 1) → mapCh .mirror v n = 2 * (n - 1) - v)) ∧
  (∀ n : Int, 2 ≤ n → mapCh .mirror (-1) n = 1 ∧ mapCh .mirror n n = n - 2) ∧
  (∀ c : Ctrl, c.bpol = 2 → c.policy = some .mirror)

/-- The map is total, in range, the identity on the interior; the borders of Extend; the reflections of Mirror (41_boundary
R195, R196). -/
def Obligations.MapStaysInRangeAndFixesTheInterior : Prop :=
  ∀ w h : Int, 1 ≤ w → 1 ≤ h →
    (∀ (pol : Policy) (x y : Int),
      inRange w h (mapPoint pol w h x y).1 (mapPoint pol w h x y).2 = true ∧
      (inRange w h x y = true → mapPoint pol w h x y = (x, y)) ∧
      (inRange w h x y = false → mapPoint pol w h x y = (mapCh pol x w, mapCh pol y h))) ∧
    (∀ x y : Int, (x < 0 → (mapPoint .extend w h x y).1 = 0) ∧ (w ≤ x → (mapPoint .extend w h x y).1 = w - 1) ∧
      (y < 0 → (mapPoint .extend w h x y).2 = 0) ∧ (h ≤ y → (mapPoint .extend w h x y).2 = h - 1)) ∧
    (∀ d : Int, 0 < d → d ≤ w - 1 → mapCh .mirror (-d) w = d ∧ mapCh .mirror (w - 1 + d) w = w - 1 - d)

/-- MAP completes in every state that passes its checks, with `Map(COORD)` in MAPRES (41_boundary R195, R201). -/
def Obligations.MapCommandResult : Prop :=
  ∀ (s : State) (pol : Policy), s.ctrl.policy = some pol → s.imgDim.width ≠ 0 → s.imgDim.height ≠ 0 →
    ∃ t, exec .map s = .next t ∧ t = { s with mapres := t.mapres } ∧
      ((t.mapres.x.toNat : Int), (t.mapres.y.toNat : Int)) =
        mapPoint pol s.imgDim.width.toNat s.imgDim.height.toNat s.coord.x.toInt s.coord.y.toInt

/-- `PixelAddr`, modulo 2^32; a stride above 2^31 is a negative one (20_memory R99; 41_boundary R199; 43_engine R274). -/
def Obligations.PixelAddressFormula : Prop :=
  ∀ (s : State) (x y : Nat), x < 65536 → y < 65536 →
    (srcAddr s x y).toNat = (s.srcBase.toNat + y * s.srcStride.toNat + 4 * x) % 2 ^ 32 ∧
    (dstAddr s x y).toNat = (s.dstBase.toNat + y * s.dstStride.toNat + 4 * x) % 2 ^ 32 ∧
    ((srcAddr s x y).toNat : Int) = ((s.srcBase.toNat : Int) + y * ((s.srcStride.toNat : Int) - 2 ^ 32) + 4 * x) % 2 ^ 32 ∧
    ((dstAddr s x y).toNat : Int) = ((s.dstBase.toNat : Int) + y * ((s.dstStride.toNat : Int) - 2 ^ 32) + 4 * x) % 2 ^ 32

/-- The engine's accesses: the addresses of the sampler, of the taps of an output point and of its output word; their
alignment when the hardwired low bits are 0; and the little-endian order of the bytes of every word it reads or writes
(20_memory R95, R96, R100; 41_boundary R199, R200; 42_kernel R229, R237; 43_engine R274). -/
def Obligations.EngineAccessesAreAlignedWords : Prop :=
  (∀ (s : State) (pol : Policy) (x y : Int),
    sampleAddr s pol x y =
      srcAddr s (mapPoint pol s.imgDim.width.toNat s.imgDim.height.toNat x y).1.toNat
        (mapPoint pol s.imgDim.width.toNat s.imgDim.height.toNat x y).2.toNat) ∧
  (∀ (s : State) (pol : Policy) (n : Nat),
    tapAddrs s pol n = (List.range (2 * s.kdim.kb.toNat + 1)).flatMap (fun j =>
      (List.range (2 * s.kdim.ka.toNat + 1)).map (fun i => s.tapAddr pol (n % imgW s : Nat) (n / imgW s : Nat) j i)) ∧
    pointAddr s n = dstAddr s (n % imgW s) (n / imgW s)) ∧
  (∀ s : State, s.basesAligned →
    (∀ (pol : Policy) (x y : Int), (sampleAddr s pol x y).toNat % 4 = 0) ∧ (∀ n : Nat, (pointAddr s n).toNat % 4 = 0)) ∧
  (∀ (m : Memory) (a v : Word) (k : Nat), k < 4 →
    byteAddr a k = (a.toNat + k) % 2 ^ 32 ∧ (readWord m a).extractLsb' (8 * k) 8 = readByte m (byteAddr a k) ∧
    (Memory.wf m = true → readByte (writeWord m a v) (byteAddr a k) = v.extractLsb' (8 * k) 8))

/-- SAMPLE completes in every state that passes its checks and whose read answers OK: each channel of `P[D]` is `FromColor` of
the channel's byte of the word at `SrcAddr(Map(COORD))`, as memory holds it before the command or after some of the writes that
land during it (41_boundary R199, R200, R202; 40_pixel_alu R161; 20_memory R96, R108). -/
def Obligations.SampleCommandResult : Prop :=
  ∀ (s : State) (d : PReg) (pol : Policy) (mx my : Int), s.status.busy = false → s.ctrl.policy = some pol →
    s.imgDim.width ≠ 0 → s.imgDim.height ≠ 0 →
    mapPoint pol s.imgDim.width.toNat s.imgDim.height.toNat s.coord.x.toInt s.coord.y.toInt = (mx, my) →
    refusesRead s (srcAddr s mx.toNat my.toNat) = false →
    ∃ t n, exec (.sample d) s = .next t ∧ t = { s with pregs := t.pregs } ∧ (∀ k, k ≠ d → preg t k = preg s k) ∧
      ∀ c, (preg t d).get c = F32.fdiv (F32.ofNat (channelByte c (readWord
        ((s.during.take n).foldl (fun m w => writeBytes m w.addr w.bytes) s.mem)
        (srcAddr s mx.toNat my.toNat))).toNat) 0x437F0000

/-- SAMPLE and CONV1 that meet a bus error: FAULT_ADDR gets the address (for CONV1 that of the first failing tap in tap order),
CERR and CECODE 8 are set, and nothing else changes (60_exceptions R301, R304; 42_kernel R229, R237). -/
def Obligations.BusErrorRejectsSampleAndConv1 : Prop :=
  ∀ (s : State) (d : PReg) (pol : Policy), s.status.busy = false → s.ctrl.policy = some pol →
    s.imgDim.width ≠ 0 → s.imgDim.height ≠ 0 →
    (∀ mx my : Int, mapPoint pol s.imgDim.width.toNat s.imgDim.height.toNat s.coord.x.toInt s.coord.y.toInt = (mx, my) →
      refusesRead s (srcAddr s mx.toNat my.toNat) = true →
      exec (.sample d) s = .next { s with
        faultAddr := srcAddr s mx.toNat my.toNat
        status := { s.status with cerr := true, cecode := 8 } }) ∧
    (∀ j i : Nat, s.status.kvalid = true → s.isTap j i →
      (∀ j' i' : Nat, s.isTap j' i' → (j' < j ∨ (j' = j ∧ i' < i)) →
        refusesRead s (s.tapAddr pol s.coord.x.toInt s.coord.y.toInt j' i') = false) →
      refusesRead s (s.tapAddr pol s.coord.x.toInt s.coord.y.toInt j i) = true →
      exec (.conv1 d) s = .next { s with
        faultAddr := s.tapAddr pol s.coord.x.toInt s.coord.y.toInt j i
        status := { s.status with cerr := true, cecode := 8 } })

/-! ### The kernel and the accumulator -/

/-- KCOMMIT completes with KDIM odd and at most 15 and no pass running (42_kernel R222, R223, R225). -/
def Obligations.KcommitCommandResult : Prop :=
  ∀ s : State, s.status.busy = false → s.kdim.legal →
    ∃ t, exec .kcommit s = .next t ∧
      t = { s with kdim := t.kdim, wsum := t.wsum, nfactor := t.nfactor, status := { s.status with kvalid := true } } ∧
      t.kdim.kw = s.kdim.kw ∧ t.kdim.kh = s.kdim.kh ∧
      t.kdim.ka.toNat = s.kdim.kw.toNat / 2 ∧ t.kdim.kb.toNat = s.kdim.kh.toNat / 2 ∧
      t.wsum = (List.range (s.kdim.kw.toNat * s.kdim.kh.toNat)).foldl
        (fun acc i => F32.fadd acc (s.kwmem.toList.getD i 0x00000000)) 0x00000000 ∧
      t.nfactor =
        (if s.ctrl.norm = false then 0x3F800000
         else if t.wsum &&& 0x7FFFFFFF = 0 then 0x3F800000
         else F32.fdiv 0x3F800000 t.wsum)

/-- The normalization factor in every case the rule lists, and the weight sum that is never `-0.0` (42_kernel R225). -/
def Obligations.NormalizationFactorCases : Prop :=
  (∀ x : Word, normFactor x false = 0x3F800000) ∧
  normFactor 0x00000000 true = 0x3F800000 ∧ normFactor 0x80000000 true = 0x3F800000 ∧
  (∀ x : Word, x &&& 0x7FFFFFFF ≠ 0 → normFactor x true = F32.fdiv 0x3F800000 x) ∧
  (∀ x : Word, F32.isNaN x = true → normFactor x true = 0x7FC00000) ∧
  normFactor 0x7F800000 true = 0x00000000 ∧ normFactor 0xFF800000 true = 0x80000000 ∧
  normFactor 0x00000001 true = 0x7F800000 ∧ normFactor 0x80000001 true = 0xFF800000 ∧
  (∀ x : Word, F32.isNaN x = false → x &&& 0x7FFFFFFF ≠ 0 → (normFactor x true).msb = x.msb) ∧
  (∀ (m : Vector Word 225) (kw kh : Nat), weightSum m kw kh ≠ 0x80000000)

/-- CONV1 completes in every state that passes its checks and none of whose reads fails: each channel of `P[D]` is the
convolution at COORD that `State.convChannel` writes out (taps with `dy` outside and `dx` inside, the KWMEM word of each tap,
NFACTOR exactly when NORM is 1), where each tap reads its source word as memory holds it before the command or after some of
the writes that land during it, each tap on its own (42_kernel R220 to R235; 20_memory R108). -/
def Obligations.Conv1CommandResult : Prop :=
  ∀ (s : State) (d : PReg) (pol : Policy), s.status.busy = false → s.status.kvalid = true → s.ctrl.policy = some pol →
    s.imgDim.width ≠ 0 → s.imgDim.height ≠ 0 →
    (∀ j i, s.isTap j i → refusesRead s (s.tapAddr pol s.coord.x.toInt s.coord.y.toInt j i) = false) →
    ∃ t v, exec (.conv1 d) s = .next t ∧ t = { s with pregs := t.pregs } ∧ (∀ n, n ≠ d → preg t n = preg s n) ∧
      (∀ j i, s.isTap j i → ∃ n : Nat,
        v j i = readWord ((s.during.take n).foldl (fun m w => writeBytes m w.addr w.bytes) s.mem)
          (s.tapAddr pol s.coord.x.toInt s.coord.y.toInt j i)) ∧
      ∀ c, (preg t d).get c = s.convChannel v c

/-- The 3 by 3 identity kernel without normalization reproduces every in-range source pixel, under every policy (42_kernel
R236). -/
def Obligations.IdentityKernelReproducesTheInput : Prop :=
  ∀ (s : State) (pol : Policy) (x y : Nat), s.kdim.kw = 3 → s.kdim.ka = 1 → s.kdim.kb = 1 → s.ctrl.norm = false →
    (∀ i, i < 9 → s.kwmem.toList.getD i 0 = if i = 4 then 0x3F800000 else 0) → x < imgW s → y < imgH s →
    (∀ k ∈ taps s, refusesRead s (sampleAddr s pol (x + tapDx s k) (y + tapDy s k)) = false) →
    ∃ p, conv s pol x y = .ok p ∧ colorWord (toColor p) = readWord s.mem (srcAddr s x y)

/-! ### The pass -/

/-- START completes in every state that passes its checks: the start of a pass with every point of the raster pending, or
the no-op of an empty image (43_engine R260, R261, R270). -/
def Obligations.StartCommandResult : Prop :=
  ∀ s : State, s.status.busy = false → s.status.kvalid = true → s.ctrl.bpol ≠ 3 →
    ((s.imgDim.width = 0 ∨ s.imgDim.height = 0) →
      exec .start s = .next { s with pcount := 0, status := { s.status with done := true, pres := 0 } }) ∧
    (s.imgDim.width ≠ 0 → s.imgDim.height ≠ 0 →
      ∃ t, exec .start s = .next t ∧
        t = { s with
          pcount := 0, pending := t.pending, stop := .none, overs := []
          status := { s.status with busy := true, done := false, pres := 0 } } ∧
        pendingSize t.pending = imgW s * imgH s ∧ ∀ i, pendingHas t.pending i = decide (i < imgW s * imgH s))

/-- ABORT completes in every state: nothing without a pass; else the pass ends ABORTED with no fewer pixels counted, only what
output pixels change, STOP and STATUS change, and each output word still pending, but one whose write is refused, holds its
value from before or its correct output value (43_engine R267, R268). What it says of PCOUNT and of memory needs the invariants
of a running pass. -/
def Obligations.AbortCommandResult : Prop :=
  ∀ s : State,
    (s.status.busy = false → exec .abort s = .next s) ∧
    (s.status.busy = true → s.stop = .none →
      ∃ t, exec .abort s = .next t ∧
        t = { s with
          mem := t.mem, pending := t.pending, pcount := t.pcount, faultAddr := t.faultAddr, free := t.free
          stop := .aborted, overs := []
          status := { s.status with busy := false, done := true, pres := 2 } } ∧
        (s.passRunning → s.pcount.toNat ≤ t.pcount.toNat ∧
          t.pcount.toNat + pendingSize t.pending = imgW s * imgH s) ∧
        (s.passRunning → s.memCanonical → s.basesAligned → ∀ (pol : Policy) (i : Nat), s.ctrl.policy = some pol →
          pendingHas s.pending i = true → refusesWrite s (pointAddr s i) = false → s.keptOrCorrect t pol i))

/-- One engine step that meets no bus error and no race writes the correct output value of the picked point at its output
address and no other byte, and counts it; the last one ends the pass (43_engine R262, R263, R265, R266, R274). -/
def Obligations.EngineStepWritesOnePoint : Prop :=
  ∀ (s : State) (pol : Policy) (pick i : Nat) (rest : List Event), s.agenda = .engine pick :: rest →
    s.memCanonical → s.status.busy = true → s.stop = .none → s.inReset = false → s.ctrl.policy = some pol →
    pendingPick s.pending pick = some i →
    (∀ a ∈ tapAddrs s pol i, refusesRead s a = false ∧ ¬ s.races a) →
    refusesWrite s (pointAddr s i) = false → (∀ o ∈ s.overs, o.addr = pointAddr s i → o.byPass = true) →
    ∃ t, step s = .next t ∧ readWord t.mem (pointAddr s i) = s.correctWord pol i ∧
      (∀ k, (∀ j, j < 4 → k ≠ byteAddr (pointAddr s i) j) → readByte t.mem k = readByte s.mem k) ∧
      t = { s with
        agenda := rest, mem := t.mem, overs := t.overs, free := t.free
        pending := pendingRemove s.pending i, pcount := s.pcount + 1, status := t.status } ∧
      t.status = (if pendingSize (pendingRemove s.pending i) = 0
        then { s.status with busy := false, done := true, pres := 0 } else s.status)

/-- What a pass reads from the registers is frozen: no step but a reset changes it while BUSY is 1, whoever moves and
whatever the host writes or commands (43_engine R273; 10_state R34, R57). -/
def Obligations.PassConfigurationIsFrozen : Prop :=
  ∀ s t : State, s.status.busy = true → (∀ rest, s.agenda ≠ .resetOn :: rest) → step s = .next t →
    t.ctrl.bpol = s.ctrl.bpol ∧ t.ctrl.wrapm = s.ctrl.wrapm ∧ t.ctrl.norm = s.ctrl.norm ∧ t.imgDim = s.imgDim ∧
    t.kdim = s.kdim ∧ t.kwmem = s.kwmem ∧ t.wsum = s.wsum ∧ t.nfactor = s.nfactor ∧ t.srcBase = s.srcBase ∧
    t.srcStride = s.srcStride ∧ t.dstBase = s.dstBase ∧ t.dstStride = s.dstStride ∧ t.status.kvalid = s.status.kvalid

/-- A pass that is left alone, with no tap read and no output write of a pending point refused, runs for exactly as many engine
steps as points are pending, in whatever order they are taken, and then ends OK with every point counted (43_engine R264,
R265, R266, R272). -/
def Obligations.PassRunsToItsEnd : Prop :=
  ∀ (s : State) (pol : Policy), s.passRunning → s.status.busy = true → s.agenda = [] → s.ctrl.policy = some pol →
    (∀ i, pendingHas s.pending i = true →
      (∀ a ∈ tapAddrs s pol i, refusesRead s a = false) ∧ refusesWrite s (pointAddr s i) = false) →
    (∀ k, k < pendingSize s.pending → ∃ t, Host.Core.run core k s = .next t ∧ t.status.busy = true) ∧
    ∃ t, Host.Core.run core (pendingSize s.pending) s = .next t ∧
      t.status = { s.status with busy := false, done := true, pres := 0 } ∧ pendingSize t.pending = 0 ∧
      t.pcount.toNat = imgW s * imgH s

/-- A whole pass left alone, none of whose reads and writes is refused, whose output words are distinct and none of which is a
source word: every output word holds the correct output value of the source as it was at the start, for every order of the
points, and every other byte of memory is as it was (43_engine R263 to R265, R271; 70_reset R344, R345). -/
def Obligations.FinishedPassHoldsTheConvolution : Prop :=
  ∀ (s : State) (pol : Policy), s.memCanonical → s.basesAligned → s.passRunning → s.status.busy = true →
    s.ctrl.policy = some pol → s.agenda = [] → s.overs = [] → s.pending = pendingAll (imgW s) (imgH s) →
    (∀ i, i < imgW s * imgH s → (∀ a ∈ tapAddrs s pol i, refusesRead s a = false) ∧ refusesWrite s (pointAddr s i) = false) →
    (∀ i j, i < imgW s * imgH s → j < imgW s * imgH s → i ≠ j → pointAddr s i ≠ pointAddr s j) →
    (∀ i j, i < imgW s * imgH s → j < imgW s * imgH s → pointAddr s j ∉ tapAddrs s pol i) →
    ∃ t, Host.Core.run core (imgW s * imgH s) s = .next t ∧
      t.status = { s.status with busy := false, done := true, pres := 0 } ∧ t.pcount.toNat = imgW s * imgH s ∧
      (∀ i, i < imgW s * imgH s → readWord t.mem (pointAddr s i) = s.correctWord pol i) ∧
      (∀ k, (∀ i j, i < imgW s * imgH s → j < 4 → k ≠ byteAddr (pointAddr s i) j) → readByte t.mem k = readByte s.mem k)

/-- A bus error ends the pass with PRES 1, DONE and no CERR: FAULT_ADDR holds the address of an access of a pending point that
the platform refused, a tap's or the output word's; no fewer pixels are counted; each output word still pending, but one whose
write is refused, holds its value from before or its correct output value; and nothing else of the state changes (43_engine
R262, R267; 60_exceptions R305, R306). -/
def Obligations.BusErrorEndsThePass : Prop :=
  ∀ (s : State) (pol : Policy) (pick i : Nat) (rest : List Event), s.agenda = .engine pick :: rest →
    s.passRunning → s.status.busy = true → s.ctrl.policy = some pol → pendingPick s.pending pick = some i →
    ((∃ a ∈ tapAddrs s pol i, refusesRead s a = true) ∨ refusesWrite s (pointAddr s i) = true) →
    ∃ t, step s = .next t ∧
      t = { s with
        agenda := rest, mem := t.mem, pending := t.pending, pcount := t.pcount, faultAddr := t.faultAddr, free := t.free
        stop := .busErr, overs := []
        status := { s.status with busy := false, done := true, pres := 1 } } ∧
      (∃ n, pendingHas s.pending n = true ∧
        ((t.faultAddr ∈ tapAddrs s pol n ∧ refusesRead s t.faultAddr = true) ∨
         (t.faultAddr = pointAddr s n ∧ refusesWrite s t.faultAddr = true))) ∧
      s.pcount.toNat ≤ t.pcount.toNat ∧ t.pcount.toNat + pendingSize t.pending = imgW s * imgH s ∧
      (s.memCanonical → s.basesAligned → ∀ k, pendingHas s.pending k = true → refusesWrite s (pointAddr s k) = false →
        s.keptOrCorrect t pol k)

/-- Whatever a pass does, in its engine's step, when a bus error ends it, or under ABORT, it changes no byte of memory but
those of output words that were still pending (43_engine R267, R268, R271). -/
def Obligations.PassWritesOnlyPendingOutputWords : Prop :=
  ∀ (s t : State) (k : Nat), s.memCanonical → s.passRunning →
    (∀ i j, pendingHas s.pending i = true → j < 4 → k ≠ byteAddr (pointAddr s i) j) →
    ((exec .abort s = .next t → readByte t.mem k = readByte s.mem k) ∧
     (∀ pick rest, s.agenda = .engine pick :: rest → step s = .next t → readByte t.mem k = readByte s.mem k) ∧
     (s.agenda = [] → step s = .next t → readByte t.mem k = readByte s.mem k))

/-! ### Registers, rejections, interrupt, reset -/

/-- The register port: an accepted read answers the register at its offset, and an accepted write of a register other than
CMD is that register's write; what each register reads after the host writes it while no pass runs, a read-write register its
written bits and a read-only or reserved one what it read before; and each such write changes that register alone, and KVALID
where it clears it. CTRL and STATUS have statements of their own (20_memory R90, R91, R93; 10_state R30 to R53). -/
def Obligations.RegistersReadBackWhatWasWritten : Prop :=
  (∀ (s : State) (r : Reg) (en : BitVec 4) (v : Word) (rest : List Event), s.inReset = false →
    (s.agenda = .access ⟨false, regOffset r, 4, en, v⟩ :: rest →
      step s = .next { s with agenda := rest, resp := .data (regRead r s) }) ∧
    (r ≠ .cmd → s.agenda = .access ⟨true, regOffset r, 4, 0xF, v⟩ :: rest →
      step s = .next (regWrite r v { s with agenda := rest, resp := .ok }))) ∧
  (∀ (s : State) (v : Word), s.status.busy = false →
    regRead .ctrl (regWrite .ctrl v s) = v &&& 0x0000003F ∧
    regRead .imgDim (regWrite .imgDim v s) = v ∧
    regRead .kdim (regWrite .kdim v s) = (regRead .kdim s &&& 0xFFFF0000) ||| (v &&& 0x0000FFFF) ∧
    (∀ r ∈ [Reg.srcBase, .srcStride, .dstBase, .dstStride], regRead r (regWrite r v s) = v &&& 0xFFFFFFFC) ∧
    (∀ r ∈ [Reg.coord, .scalar, .color], regRead r (regWrite r v s) = v) ∧
    (∀ n c, regRead (.preg n c) (regWrite (.preg n c) v s) = v) ∧
    (∀ i, regRead (.kwmem i) (regWrite (.kwmem i) v s) = v) ∧
    (∀ r ∈ [Reg.id, .wsum, .nfactor, .mapres, .pcount, .faultAddr, .reserved], regWrite r v s = s) ∧
    regRead .id s = 0x49430001 ∧ regRead .cmd s = 0 ∧ regRead .reserved s = 0) ∧
  (∀ (s : State) (v : Word), s.status.busy = false →
    (∃ x, regWrite .coord v s = { s with coord := x }) ∧ regWrite .scalar v s = { s with scalar := v } ∧
    regWrite .color v s = { s with color := v } ∧ (∃ x, regWrite .imgDim v s = { s with imgDim := x }) ∧
    (∃ x, regWrite .srcBase v s = { s with srcBase := x }) ∧ (∃ x, regWrite .srcStride v s = { s with srcStride := x }) ∧
    (∃ x, regWrite .dstBase v s = { s with dstBase := x }) ∧ (∃ x, regWrite .dstStride v s = { s with dstStride := x }) ∧
    (∃ x, regWrite .kdim v s = { s with kdim := x, status := { s.status with kvalid := false } }) ∧
    (∀ i, ∃ x, regWrite (.kwmem i) v s = { s with kwmem := x, status := { s.status with kvalid := false } } ∧
      ∀ k : Fin 225, k ≠ i → x[k] = s.kwmem[k]) ∧
    (∀ n c, ∃ x, regWrite (.preg n c) v s = { s with pregs := x } ∧
      ∀ n' c', (n' ≠ n ∨ c' ≠ c) → (preg { s with pregs := x } n').get c' = (preg s n').get c'))

/-- KVALID: what sets and clears it, and that nothing else changes it (10_state R53). -/
def Obligations.KvalidFollowsItsRule : Prop :=
  (∀ (r : Reg) (v : Word) (s : State),
    (regWrite r v s).status.kvalid =
      if s.status.busy = false ∧ (r = .kdim ∨ (∃ i, r = .kwmem i) ∨ (r = .ctrl ∧ v.getLsbD 3 ≠ s.ctrl.norm))
      then false else s.status.kvalid) ∧
  (∀ (i : Instr) (s t : State), exec i s = .next t →
    (t.status.kvalid = true ↔
      s.status.kvalid = true ∨ (i = .kcommit ∧ s.status.busy = false ∧ s.kdim.legal))) ∧
  (∀ (pick : Nat) (s : State), (engineTurn pick s).status.kvalid = s.status.kvalid) ∧
  (∀ s : State, (assertReset s).status.kvalid = false) ∧
  State.reset.status.kvalid = false

/-- While BUSY is 1 configuration writes are ignored and set WIGN; COORD, SCALAR, COLOR and the pixel registers are written
(10_state R57). -/
def Obligations.FrozenRegistersIgnoreWrites : Prop :=
  ∀ (s : State) (v : Word), s.status.busy = true →
    (∀ r ∈ [Reg.imgDim, .kdim, .srcBase, .srcStride, .dstBase, .dstStride],
      regWrite r v s = { s with status := { s.status with wign := true } }) ∧
    (∀ i, regWrite (.kwmem i) v s = { s with status := { s.status with wign := true } }) ∧
    (∀ r ∈ [Reg.coord, .scalar, .color], regRead r (regWrite r v s) = v) ∧
    (∀ n c, regRead (.preg n c) (regWrite (.preg n c) v s) = v) ∧
    (regWrite .ctrl v s).ctrl = { s.ctrl with ieDone := v.getLsbD 4, ieCerr := v.getLsbD 5 }

/-- A write of CTRL, while a pass runs and while none does (10_state R34). -/
def Obligations.CtrlWriteRule : Prop :=
  ∀ (s : State) (v : Word),
    (s.status.busy = true →
      regWrite .ctrl v s = { s with
        ctrl := { s.ctrl with ieDone := v.getLsbD 4, ieCerr := v.getLsbD 5 }
        status := { s.status with
          wign := s.status.wign ||
            decide (v.extractLsb' 0 4 ≠ BitVec.ofBool s.ctrl.norm ++ BitVec.ofBool s.ctrl.wrapm ++ s.ctrl.bpol) } }) ∧
    (s.status.busy = false →
      regWrite .ctrl v s = { s with
        ctrl := ⟨v.extractLsb' 0 2, v.getLsbD 2, v.getLsbD 3, v.getLsbD 4, v.getLsbD 5⟩
        status := { s.status with kvalid := s.status.kvalid && decide (v.getLsbD 3 = s.ctrl.norm) } })

/-- A write of STATUS, in terms of the words written and read (10_state R35, R36). -/
def Obligations.StatusWriteClearsItsBits : Prop :=
  ∀ (s : State) (v : Word),
    regWrite .status v s = { s with status := (regWrite .status v s).status } ∧
    regRead .status (regWrite .status v s) =
      regRead .status s &&& ~~~(v &&& 0x00000016) &&& (if v.getLsbD 2 then 0xFFFFF0FF else 0xFFFFFFFF)

/-- A transaction that is not an aligned 4-byte one with every write enable on gets ERROR and has no effect (20_memory
R91; 60_exceptions R312). -/
def Obligations.OtherTransactionsGetAnError : Prop :=
  ∀ (s : State) (t : Access), s.inReset = false →
    (t.size ≠ 4 ∨ t.offset.toNat % 4 ≠ 0 ∨ (t.isWrite = true ∧ t.enables ≠ 0xF)) →
    portAccess t s = .next { s with resp := .error }

/-- A reserved offset answers OK, reads 0 and ignores writes: the gaps of the map, and words 225 to 255 of KWMEM (20_memory
R94; 10_state R30, R52). -/
def Obligations.ReservedOffsetsReadZero : Prop :=
  ∀ (s : State) (o : BitVec 12) (en : BitVec 4) (v : Word), s.inReset = false → o.toNat % 4 = 0 →
    ((0x048 ≤ o.toNat ∧ o.toNat < 0x080) ∨ (0x0C0 ≤ o.toNat ∧ o.toNat < 0x100) ∨ 0x484 ≤ o.toNat) →
    portAccess ⟨false, o, 4, en, v⟩ s = .next { s with resp := .data 0 } ∧
    portAccess ⟨true, o, 4, 0xF, v⟩ s = .next { s with resp := .ok }

/-- The offset of every row of the register map, and that every register is found at its own aligned offset, so that no two
share one (10_state R30, R50, R52). -/
def Obligations.RegisterMapHasNoOverlap : Prop :=
  (∀ p ∈ [(Reg.id, (0x000 : BitVec 12)), (.ctrl, 0x004), (.status, 0x008), (.cmd, 0x00C), (.imgDim, 0x010), (.kdim, 0x014),
      (.srcBase, 0x018), (.srcStride, 0x01C), (.dstBase, 0x020), (.dstStride, 0x024), (.wsum, 0x028), (.nfactor, 0x02C),
      (.coord, 0x030), (.mapres, 0x034), (.scalar, 0x038), (.color, 0x03C), (.pcount, 0x040), (.faultAddr, 0x044),
      (.reserved, 0x048)], regOffset p.1 = p.2) ∧
  (∀ n : PReg, ∀ p ∈ [(Channel.r, 0), (.g, 4), (.b, 8), (.a, 12)],
    (regOffset (.preg n p.1)).toNat = 0x080 + 16 * n.val + p.2) ∧
  (∀ i : Fin 225, (regOffset (.kwmem i)).toNat = 0x100 + 4 * i.val) ∧
  (∀ r : Reg, regAt (regOffset r) = r ∧ (regOffset r).toNat % 4 = 0)

/-- `irq`, from the words of STATUS and CTRL (60_exceptions R307, R308). -/
def Obligations.InterruptLineFollowsStatusAndCtrl : Prop :=
  ∀ s : State,
    irq s = (((regRead .status s).getLsbD 1 && (regRead .ctrl s).getLsbD 4) ||
             ((regRead .status s).getLsbD 2 && (regRead .ctrl s).getLsbD 5))

/-- A rejection sets CERR and writes its code, and changes nothing else; BUSERR also writes FAULT_ADDR (60_exceptions R301,
R302). -/
def Obligations.RejectionChangesOnlyCerrAndCecode : Prop :=
  ∀ s : State,
    (∀ p ∈ [(Rej.illegalCmd, (1 : BitVec 4)), (.busy, 2), (.kdimEven, 3), (.kdimRange, 4), (.notCommitted, 5),
        (.bpolReserved, 6), (.dimZero, 7), (.busErr, 8)],
      reject p.1 s = { s with status := { s.status with cerr := true, cecode := p.2 } }) ∧
    (∀ a : Word, rejectBusErr a s =
      { s with faultAddr := a, status := { s.status with cerr := true, cecode := 8 } })

/-- The checks of each command, in their order, the first that fails being reported, and no rejection but BUSERR when none
fails (60_exceptions R303). -/
def Obligations.RejectionsComeInOrder : Prop :=
  ∀ s : State,
    (∀ (w : Word) (e : DecodeError), decode w = .error e → command w s = .next (reject .illegalCmd s)) ∧
    (s.status.busy = true → ∀ i ∈ [Instr.kcommit, .start, .conv1 0, .conv1 1, .conv1 2, .conv1 3,
        .sample 0, .sample 1, .sample 2, .sample 3], exec i s = .next (reject .busy s)) ∧
    (s.status.busy = false →
      ((s.kdim.kw.toNat % 2 = 0 ∨ s.kdim.kh.toNat % 2 = 0) → exec .kcommit s = .next (reject .kdimEven s)) ∧
      (s.kdim.kw.toNat % 2 = 1 → s.kdim.kh.toNat % 2 = 1 → (15 < s.kdim.kw.toNat ∨ 15 < s.kdim.kh.toNat) →
        exec .kcommit s = .next (reject .kdimRange s)) ∧
      (s.status.kvalid = false → exec .start s = .next (reject .notCommitted s) ∧
        ∀ d, exec (.conv1 d) s = .next (reject .notCommitted s)) ∧
      (s.status.kvalid = true → s.ctrl.bpol = 3 → exec .start s = .next (reject .bpolReserved s) ∧
        ∀ d, exec (.conv1 d) s = .next (reject .bpolReserved s)) ∧
      (s.status.kvalid = true → s.ctrl.bpol ≠ 3 → (s.imgDim.width = 0 ∨ s.imgDim.height = 0) →
        ∀ d, exec (.conv1 d) s = .next (reject .dimZero s)) ∧
      (s.ctrl.bpol = 3 → ∀ d, exec (.sample d) s = .next (reject .bpolReserved s)) ∧
      (s.ctrl.bpol ≠ 3 → (s.imgDim.width = 0 ∨ s.imgDim.height = 0) →
        ∀ d, exec (.sample d) s = .next (reject .dimZero s)) ∧
      (s.kdim.legal → ∀ t, exec .kcommit s = .next t →
        t.status.cerr = s.status.cerr ∧ t.status.cecode = s.status.cecode) ∧
      (s.status.kvalid = true → s.ctrl.bpol ≠ 3 → ∀ t, exec .start s = .next t →
        t.status.cerr = s.status.cerr ∧ t.status.cecode = s.status.cecode) ∧
      (s.ctrl.bpol ≠ 3 → s.imgDim.width ≠ 0 → s.imgDim.height ≠ 0 → ∀ d t, exec (.sample d) s = .next t →
        t = { s with pregs := t.pregs } ∨ t = rejectBusErr t.faultAddr s) ∧
      (s.status.kvalid = true → s.ctrl.bpol ≠ 3 → s.imgDim.width ≠ 0 → s.imgDim.height ≠ 0 →
        ∀ d t, exec (.conv1 d) s = .next t → t = { s with pregs := t.pregs } ∨ t = rejectBusErr t.faultAddr s)) ∧
    (s.ctrl.bpol = 3 → exec .map s = .next (reject .bpolReserved s)) ∧
    (s.ctrl.bpol ≠ 3 → (s.imgDim.width = 0 ∨ s.imgDim.height = 0) → exec .map s = .next (reject .dimZero s)) ∧
    (s.ctrl.bpol ≠ 3 → s.imgDim.width ≠ 0 → s.imgDim.height ≠ 0 → ∀ t, exec .map s = .next t →
      t.status.cerr = s.status.cerr ∧ t.status.cecode = s.status.cecode) ∧
    (∀ (i : Instr) (t : State), i.opcode ∈ ([0x00, 0x03, 0x10, 0x11, 0x12, 0x13, 0x14] : List (BitVec 8)) →
      exec i s = .next t → t.status.cerr = s.status.cerr ∧ t.status.cecode = s.status.cecode)

/-- Only an access that returns a bus error writes FAULT_ADDR, and with its own address: no register write does, and a command
changes it only to an address that the platform refuses (60_exceptions R306). -/
def Obligations.OnlyBusErrorsWriteFaultAddr : Prop :=
  (∀ (r : Reg) (v : Word) (s : State), (regWrite r v s).faultAddr = s.faultAddr) ∧
  (∀ (i : Instr) (s t : State), exec i s = .next t → t.faultAddr ≠ s.faultAddr →
    (i.opcode = 0x05 ∨ i.opcode = 0x06 ∨ i.opcode = 0x03) ∧
    (refusesRead s t.faultAddr = true ∨ (i = .abort ∧ refusesWrite s t.faultAddr = true)))

/-- What commands do while a pass runs: KCOMMIT, START, SAMPLE and CONV1 are rejected BUSY; the accepted ones but ABORT touch
only MAPRES, COLOR, the pixel registers and CERR with CECODE (30_encoding R129; 70_reset R349). -/
def Obligations.CommandsDuringAPassLeaveIt : Prop :=
  ∀ (i : Instr) (s t : State), s.status.busy = true → exec i s = .next t → i ≠ .abort →
    t = { s with
      mapres := t.mapres, color := t.color, pregs := t.pregs
      status := { s.status with cerr := t.status.cerr, cecode := t.status.cecode } } ∧
    (i.opcode ∈ ([0x01, 0x02, 0x05, 0x06] : List (BitVec 8)) → t = reject .busy s) ∧
    (i.opcode ∈ ([0x00, 0x10, 0x11, 0x12, 0x13, 0x14] : List (BitVec 8)) → t.status = s.status)

/-- The registers right after reset, as the host reads them, and the hidden pass state (10_state R58). Nothing is said of
KWMEM, for which the spec gives no value. -/
def Obligations.ResetValues : Prop :=
  regRead .id State.reset = 0x49430001 ∧
  (∀ r ∈ [Reg.ctrl, .status, .imgDim, .kdim, .srcBase, .srcStride, .dstBase, .dstStride, .wsum, .coord, .mapres, .scalar,
      .color, .pcount, .faultAddr], regRead r State.reset = 0) ∧
  regRead .nfactor State.reset = 0x3F800000 ∧ (∀ n c, regRead (.preg n c) State.reset = 0) ∧
  pendingSize State.reset.pending = 0 ∧ State.reset.status.busy = false ∧ irq State.reset = false

/-- The reset input puts every register of the block at its reset value, whatever it was doing; memory outside the pending
output words of a pass it cuts short keeps every byte, all of memory when no pass runs; while it is asserted no transaction is
accepted (70_reset R340, R341). What the model answers to such a transaction (log 16) is its own choice. -/
def Obligations.ResetInputPutsResetValues : Prop :=
  (∀ (s : State) (rest : List Event), s.agenda = .resetOn :: rest →
    ∃ t, step s = .next t ∧
      t = { State.reset with
        kwmem := t.kwmem, inReset := true, mem := t.mem, busMap := s.busMap, agenda := rest, resp := s.resp, free := t.free } ∧
      (s.status.busy = false → t.mem = s.mem) ∧
      (s.memCanonical → s.passRunning → ∀ k,
        (∀ i j, pendingHas s.pending i = true → j < 4 → k ≠ byteAddr (pointAddr s i) j) →
        readByte t.mem k = readByte s.mem k)) ∧
  (∀ (s : State) (a : Access), s.inReset = true → portAccess a s = .next { s with resp := .notAccepted })

/-- Another master that reads a word during a pass sees a value the word has held since the pass began; with no pass
running it sees the present one (20_memory R106 to R108; 70_reset R347). -/
def Obligations.EarlyReadSeesAHeldValue : Prop :=
  ∀ (s : State) (a : Word) (rest : List Event), s.agenda = .memRead a :: rest →
    ∃ t v, step s = .next t ∧ t = { s with agenda := rest, resp := .memData v, free := t.free } ∧
      (v = readWord s.mem (wordBase a) ∨ ∃ o ∈ s.overs, o.addr = wordBase a ∧ v = o.old) ∧
      (s.status.busy = false → v = readWord s.mem (wordBase a))

/-- Another master's write of a word: with no pass running it lands; during a pass it may lose only to a word the pass has
written, and the engine's write of a point may lose only to a word another master has written. In each case the word ends
holding one of the two values, and no other byte changes (20_memory R98; 70_reset R346). -/
def Obligations.RacingWritesLeaveOneOfTheTwo : Prop :=
  (∀ (s : State) (a v : Word) (rest : List Event), s.memCanonical → a.toNat % 4 = 0 →
    s.agenda = .memWrite a (bytesOfWord v) :: rest →
    ∃ t, step s = .next t ∧ t = { s with agenda := rest, mem := t.mem, overs := t.overs, free := t.free } ∧
      (readWord t.mem a = v ∨
        (s.status.busy = true ∧ (∃ o ∈ s.overs, o.addr = a ∧ o.byPass = true) ∧ readWord t.mem a = readWord s.mem a)) ∧
      (∀ k, (∀ j, j < 4 → k ≠ byteAddr a j) → readByte t.mem k = readByte s.mem k)) ∧
  (∀ (s t : State) (pol : Policy) (i : Nat), s.memCanonical → attempt pol i s = (none, t) →
    ∃ p, conv s pol (pointX s i) (pointY s i) = .ok p ∧
      (readWord t.mem (pointAddr s i) = outputWord s pol i p ∨
        ((∃ o ∈ s.overs, o.addr = pointAddr s i ∧ o.byPass = false) ∧
          readWord t.mem (pointAddr s i) = readWord s.mem (pointAddr s i))) ∧
      (∀ k, (∀ j, j < 4 → k ≠ byteAddr (pointAddr s i) j) → readByte t.mem k = readByte s.mem k))

/-! ### Invariants that every step keeps -/

/-- Every invariant holds right after reset. -/
def Obligations.ResetMeetsTheInvariants : Prop :=
  State.reset.memCanonical ∧ State.reset.basesAligned ∧ State.reset.statusLegal ∧ State.reset.kernelCommitted ∧
  State.reset.passRunning ∧ State.reset.idleClean

/-- Every step keeps memory in its canonical form. -/
def Obligations.StepsKeepMemoryCanonical : Prop :=
  ∀ s t : State, s.memCanonical → step s = .next t → t.memCanonical

/-- Every step keeps the hardwired low bits of the base and stride registers 0 (10_state R40, R41). -/
def Obligations.StepsKeepTheHardwiredBits : Prop :=
  ∀ s t : State, s.basesAligned → step s = .next t → t.basesAligned

/-- Every step keeps STATUS among the values the block produces (10_state R35; 60_exceptions R302; 93 I17). -/
def Obligations.StepsKeepStatusLegal : Prop :=
  ∀ s t : State, s.statusLegal → step s = .next t → t.statusLegal

/-- Every step keeps the committed kernel: while KVALID is 1 KA, KB, WSUM and NFACTOR are those of the present KDIM, KWMEM and
NORM (10_state R53; 42_kernel R222, R224, R226, R227). -/
def Obligations.StepsKeepTheCommittedKernel : Prop :=
  ∀ s t : State, s.kernelCommitted → step s = .next t → t.kernelCommitted

/-- Every step keeps what holds while a pass runs, PCOUNT + |PENDING| = W * H among it, and leaves no overwrite record without
a pass and no write landing (10_state R48, R56; 43_engine R260 to R266). -/
def Obligations.StepsKeepTheRunningPass : Prop :=
  ∀ s t : State, s.passRunning → s.idleClean → step s = .next t → t.passRunning ∧ t.idleClean
end

