-- ==== Sys2Proof/Laws/Ops.lean ====
section
/-! SUPPORT. The checks of the commands and the master port's read: what each answers, so that no later proof unfolds
them. -/

namespace Sys2Proof.Machine

@[simp] theorem rejectIf_true (c : Rej) (s : State) (k : Result) : rejectIf true c s k = .next (reject c s) := rfl

@[simp] theorem rejectIf_false (c : Rej) (s : State) (k : Result) : rejectIf false c s k = k := rfl

/-- A check either rejects or lets the command go on. -/
theorem rejectIf_next {b : Bool} {c : Rej} {s t : State} {k : Result} (h : rejectIf b c s k = .next t) :
    (b = true ∧ t = reject c s) ∨ (b = false ∧ k = .next t) := by
  cases b
  · exact .inr ⟨rfl, h⟩
  · exact .inl ⟨rfl, (Host.Outcome.next.inj h).symm⟩

theorem withPolicy_none {s : State} {k : Policy → Result} (h : s.ctrl.policy = none) :
    withPolicy s k = .next (reject .bpolReserved s) := by unfold withPolicy; rw [h]

theorem withPolicy_some {s : State} {k : Policy → Result} {pol : Policy} (h : s.ctrl.policy = some pol) :
    withPolicy s k = k pol := by unfold withPolicy; rw [h]

/-- The policy check either rejects or lets the command go on with the policy CTRL selects. -/
theorem withPolicy_next {s t : State} {k : Policy → Result} (h : withPolicy s k = .next t) :
    (s.ctrl.policy = none ∧ t = reject .bpolReserved s) ∨ ∃ pol, s.ctrl.policy = some pol ∧ k pol = .next t := by
  cases hp : s.ctrl.policy with
  | none => rw [withPolicy_none hp] at h; exact .inl ⟨rfl, (Host.Outcome.next.inj h).symm⟩
  | some pol => rw [withPolicy_some hp] at h; exact .inr ⟨pol, rfl, h⟩

/-- CTRL selects no policy exactly for the reserved BPOL 3 (10_state R33). -/
theorem policy_eq_none (c : Ctrl) : c.policy = none ↔ c.bpol = 3 := by
  obtain ⟨b, w, n, d, e⟩ := c
  revert b w n d e
  decide

/-- CTRL selects a policy exactly for BPOL 0, 1 and 2 (10_state R32). -/
theorem policy_isSome {c : Ctrl} (h : c.bpol ≠ 3) : ∃ pol, c.policy = some pol :=
  Option.ne_none_iff_exists'.mp fun hn => h ((policy_eq_none c).mp hn)

theorem memRead_ok {s : State} {a : Word} (h : refusesRead s a = false) : memRead s a = .ok (readWord s.mem a) := by
  unfold memRead; rw [h]; rfl

theorem memRead_busErr {s : State} {a : Word} (h : refusesRead s a = true) : memRead s a = .busErr a := by
  unfold memRead; rw [h]; rfl

theorem sample_ok {s : State} {pol : Policy} {x y : Int} (h : refusesRead s (sampleAddr s pol x y) = false) :
    sample s pol x y = .ok (fromColor (colorOfWord (readWord s.mem (sampleAddr s pol x y)))) := by
  unfold sample; rw [memRead_ok h]

theorem sample_busErr {s : State} {pol : Policy} {x y : Int} (h : refusesRead s (sampleAddr s pol x y) = true) :
    sample s pol x y = .busErr (sampleAddr s pol x y) := by
  unfold sample; rw [memRead_busErr h]

/-- Without a bus map nothing is refused. -/
theorem refusesRead_nil {s : State} (h : s.busMap = []) (a : Word) : refusesRead s a = false := by
  unfold refusesRead; rw [h]; rfl

theorem refusesWrite_nil {s : State} (h : s.busMap = []) (a : Word) : refusesWrite s a = false := by
  unfold refusesWrite; rw [h]; rfl

end Sys2Proof.Machine
end

