-- ==== Sys2Proof/Laws/Pending.lean ====
section
/-! SUPPORT. The set `PENDING`: membership, size, the free pick and removal. -/

namespace Sys2Proof.Machine

@[simp] theorem pendingHas_nil (i : Nat) : pendingHas [] i = false := rfl

@[simp] theorem pendingHas_cons (sp : Span) (ps : List Span) (i : Nat) :
    pendingHas (sp :: ps) i = ((decide (sp.lo ≤ i) && decide (i < sp.hi)) || pendingHas ps i) := rfl

theorem pendingHas_append (ps qs : List Span) (i : Nat) :
    pendingHas (ps ++ qs) i = (pendingHas ps i || pendingHas qs i) := by simp [pendingHas]

theorem pendingHas_spanOf (lo hi i : Nat) : pendingHas (spanOf lo hi) i = (decide (lo ≤ i) && decide (i < hi)) := by
  unfold spanOf
  split
  · simp
  · simp; omega

theorem pendingSize_append (ps qs : List Span) : pendingSize (ps ++ qs) = pendingSize ps + pendingSize qs := by
  induction ps with
  | nil => simp [pendingSize]
  | cons sp ps ih => simp [pendingSize, ih]; omega

theorem pendingSize_spanOf (lo hi : Nat) : pendingSize (spanOf lo hi) = hi - lo := by
  unfold spanOf; split <;> simp [pendingSize] ; omega

/-- All points of a raster, and no other, are pending at the start. -/
theorem pendingHas_all (w h i : Nat) : pendingHas (pendingAll w h) i = decide (i < w * h) := by
  unfold pendingAll
  split
  · rename_i h0; rw [h0]; rfl
  · simp

/-- The whole raster is pending at the start. -/
theorem pendingSize_all (w h : Nat) : pendingSize (pendingAll w h) = w * h := by
  unfold pendingAll; split <;> simp_all [pendingSize]

theorem pendingWf_all (w h : Nat) : pendingWfFrom (w * h) 0 (pendingAll w h) = true := by
  unfold pendingAll; split <;> simp_all [pendingWfFrom]; omega

theorem pendingWf_mono {bound lo lo' : Nat} {ps : List Span} (h : pendingWfFrom bound lo ps = true) (hl : lo' ≤ lo) :
    pendingWfFrom bound lo' ps = true := by
  cases ps with
  | nil => rfl
  | cons sp rest =>
    simp only [pendingWfFrom, Bool.and_eq_true, decide_eq_true_eq] at h ⊢
    exact ⟨⟨⟨by omega, h.1.1.2⟩, h.1.2⟩, h.2⟩

/-- A pending point lies within the bounds. -/
theorem pendingHas_bounds {bound lo i : Nat} {ps : List Span} (h : pendingWfFrom bound lo ps = true)
    (hi : pendingHas ps i = true) : lo ≤ i ∧ i < bound := by
  induction ps generalizing lo with
  | nil => simp at hi
  | cons sp rest ih =>
    simp only [pendingWfFrom, Bool.and_eq_true, decide_eq_true_eq] at h
    simp only [pendingHas_cons, Bool.or_eq_true, Bool.and_eq_true, decide_eq_true_eq] at hi
    rcases hi with hi | hi
    · omega
    · have := ih h.2 hi; omega

/-- The k-th pending point is pending. -/
theorem pendingNth_has {ps : List Span} {k i : Nat} (h : pendingNth ps k = some i) : pendingHas ps i = true := by
  induction ps generalizing k with
  | nil => simp [pendingNth] at h
  | cons sp rest ih =>
    simp only [pendingNth] at h
    split at h
    · simp only [Option.some.injEq] at h; subst h
      simp only [pendingHas_cons, Bool.or_eq_true, Bool.and_eq_true, decide_eq_true_eq]; left; omega
    · simp [ih h]

/-- There is a k-th pending point while more than k are pending. -/
theorem pendingNth_isSome {ps : List Span} {k : Nat} (h : k < pendingSize ps) : ∃ i, pendingNth ps k = some i := by
  induction ps generalizing k with
  | nil => simp [pendingSize] at h
  | cons sp rest ih =>
    simp only [pendingSize] at h
    simp only [pendingNth]
    split
    · exact ⟨_, rfl⟩
    · exact ih (by omega)

/-- A picked point is pending. -/
theorem pendingPick_has {ps : List Span} {pick i : Nat} (h : pendingPick ps pick = some i) : pendingHas ps i = true :=
  pendingNth_has h

/-- Every pick selects a point while one is pending. -/
theorem pendingPick_isSome {ps : List Span} (pick : Nat) (h : pendingSize ps ≠ 0) : ∃ i, pendingPick ps pick = some i := by
  refine pendingNth_isSome ?_
  split
  · omega
  · exact Nat.mod_lt _ (by omega)

/-- Nothing is selected when nothing is pending. -/
theorem pendingSize_of_has {ps : List Span} {i : Nat} (h : pendingHas ps i = true) : pendingSize ps ≠ 0 := by
  induction ps with
  | nil => simp at h
  | cons sp rest ih =>
    simp only [pendingHas_cons, Bool.or_eq_true, Bool.and_eq_true, decide_eq_true_eq] at h
    simp only [pendingSize]
    rcases h with h | h
    · omega
    · have := ih h; omega

theorem pendingWf_spanOf_append {bound lo a b : Nat} {ps : List Span} (h1 : lo ≤ a) (h2 : b ≤ bound)
    (h : pendingWfFrom bound b ps = true) (hl : lo ≤ b) : pendingWfFrom bound lo (spanOf a b ++ ps) = true := by
  unfold spanOf
  split
  · simp [pendingWfFrom, *]
  · simpa using pendingWf_mono h hl

/-- Removal keeps the form. -/
theorem pendingWf_remove {bound lo i : Nat} {ps : List Span} (h : pendingWfFrom bound lo ps = true) :
    pendingWfFrom bound lo (pendingRemove ps i) = true := by
  induction ps generalizing lo with
  | nil => rfl
  | cons sp rest ih =>
    simp only [pendingWfFrom, Bool.and_eq_true, decide_eq_true_eq] at h
    simp only [pendingRemove]
    split
    · rename_i hi
      rw [List.append_assoc]
      refine pendingWf_spanOf_append (by omega) (by omega) ?_ (by omega)
      exact pendingWf_spanOf_append (by omega) (by omega) h.2 (by omega)
    · simp only [pendingWfFrom, Bool.and_eq_true, decide_eq_true_eq]
      exact ⟨h.1, ih h.2⟩

/-- Exactly the removed point leaves. -/
theorem pendingHas_remove {bound lo i j : Nat} {ps : List Span} (h : pendingWfFrom bound lo ps = true) :
    pendingHas (pendingRemove ps i) j = (pendingHas ps j && decide (j ≠ i)) := by
  induction ps generalizing lo with
  | nil => rfl
  | cons sp rest ih =>
    simp only [pendingWfFrom, Bool.and_eq_true, decide_eq_true_eq] at h
    simp only [pendingRemove]
    split
    · rename_i hi
      have hrest : pendingHas rest i = false := by
        cases hr : pendingHas rest i with
        | false => rfl
        | true => have := pendingHas_bounds h.2 hr; omega
      simp only [List.append_assoc, pendingHas_append, pendingHas_spanOf, pendingHas_cons]
      by_cases hj : j = i
      · subst hj; simp [hrest] <;> omega
      · cases pendingHas rest j <;> simp [hj]
        grind
    · rename_i hi
      have hsp : (decide (sp.lo ≤ i) && decide (i < sp.hi)) = false := by simpa using hi
      simp only [pendingHas_cons, ih h.2]
      by_cases hj : j = i
      · subst hj; rw [hsp]; simp
      · simp [hj]

/-- One point fewer is pending. -/
theorem pendingSize_remove {bound lo i : Nat} {ps : List Span} (h : pendingWfFrom bound lo ps = true)
    (hi : pendingHas ps i = true) : pendingSize (pendingRemove ps i) + 1 = pendingSize ps := by
  induction ps generalizing lo with
  | nil => simp at hi
  | cons sp rest ih =>
    simp only [pendingWfFrom, Bool.and_eq_true, decide_eq_true_eq] at h
    simp only [pendingRemove]
    split
    · simp only [pendingSize_append, pendingSize_spanOf, pendingSize]; omega
    · rename_i hn
      have hr : pendingHas rest i = true := by
        simp only [pendingHas_cons, Bool.or_eq_true, Bool.and_eq_true, decide_eq_true_eq] at hi
        rcases hi with hi | hi
        · exact absurd hi hn
        · exact hi
      have := ih h.2 hr
      simp only [pendingSize]; omega

end Sys2Proof.Machine
end

