-- ==== Sys2Proof/Laws/State.lean ====
section
/-! SUPPORT. What each named update of the state does to each field, by definition, so that no later proof unfolds a
record update. -/

namespace Sys2Proof.Machine

@[simp] theorem setPreg_ctrl (s : State) (n : PReg) (p : Pixel) : (setPreg s n p).ctrl = s.ctrl := rfl
@[simp] theorem setPreg_status (s : State) (n : PReg) (p : Pixel) : (setPreg s n p).status = s.status := rfl
@[simp] theorem setPreg_imgDim (s : State) (n : PReg) (p : Pixel) : (setPreg s n p).imgDim = s.imgDim := rfl
@[simp] theorem setPreg_kdim (s : State) (n : PReg) (p : Pixel) : (setPreg s n p).kdim = s.kdim := rfl
@[simp] theorem setPreg_srcBase (s : State) (n : PReg) (p : Pixel) : (setPreg s n p).srcBase = s.srcBase := rfl
@[simp] theorem setPreg_srcStride (s : State) (n : PReg) (p : Pixel) : (setPreg s n p).srcStride = s.srcStride := rfl
@[simp] theorem setPreg_dstBase (s : State) (n : PReg) (p : Pixel) : (setPreg s n p).dstBase = s.dstBase := rfl
@[simp] theorem setPreg_dstStride (s : State) (n : PReg) (p : Pixel) : (setPreg s n p).dstStride = s.dstStride := rfl
@[simp] theorem setPreg_wsum (s : State) (n : PReg) (p : Pixel) : (setPreg s n p).wsum = s.wsum := rfl
@[simp] theorem setPreg_nfactor (s : State) (n : PReg) (p : Pixel) : (setPreg s n p).nfactor = s.nfactor := rfl
@[simp] theorem setPreg_coord (s : State) (n : PReg) (p : Pixel) : (setPreg s n p).coord = s.coord := rfl
@[simp] theorem setPreg_mapres (s : State) (n : PReg) (p : Pixel) : (setPreg s n p).mapres = s.mapres := rfl
@[simp] theorem setPreg_scalar (s : State) (n : PReg) (p : Pixel) : (setPreg s n p).scalar = s.scalar := rfl
@[simp] theorem setPreg_color (s : State) (n : PReg) (p : Pixel) : (setPreg s n p).color = s.color := rfl
@[simp] theorem setPreg_pcount (s : State) (n : PReg) (p : Pixel) : (setPreg s n p).pcount = s.pcount := rfl
@[simp] theorem setPreg_faultAddr (s : State) (n : PReg) (p : Pixel) : (setPreg s n p).faultAddr = s.faultAddr := rfl
@[simp] theorem setPreg_pregs (s : State) (n : PReg) (p : Pixel) : (setPreg s n p).pregs = s.pregs.set n p := rfl
@[simp] theorem setPreg_kwmem (s : State) (n : PReg) (p : Pixel) : (setPreg s n p).kwmem = s.kwmem := rfl
@[simp] theorem setPreg_pending (s : State) (n : PReg) (p : Pixel) : (setPreg s n p).pending = s.pending := rfl
@[simp] theorem setPreg_stop (s : State) (n : PReg) (p : Pixel) : (setPreg s n p).stop = s.stop := rfl
@[simp] theorem setPreg_overs (s : State) (n : PReg) (p : Pixel) : (setPreg s n p).overs = s.overs := rfl
@[simp] theorem setPreg_inReset (s : State) (n : PReg) (p : Pixel) : (setPreg s n p).inReset = s.inReset := rfl
@[simp] theorem setPreg_during (s : State) (n : PReg) (p : Pixel) : (setPreg s n p).during = s.during := rfl
@[simp] theorem setPreg_mem (s : State) (n : PReg) (p : Pixel) : (setPreg s n p).mem = s.mem := rfl
@[simp] theorem setPreg_busMap (s : State) (n : PReg) (p : Pixel) : (setPreg s n p).busMap = s.busMap := rfl
@[simp] theorem setPreg_agenda (s : State) (n : PReg) (p : Pixel) : (setPreg s n p).agenda = s.agenda := rfl
@[simp] theorem setPreg_resp (s : State) (n : PReg) (p : Pixel) : (setPreg s n p).resp = s.resp := rfl
@[simp] theorem setPreg_free (s : State) (n : PReg) (p : Pixel) : (setPreg s n p).free = s.free := rfl

@[simp] theorem tick_ctrl (s : State) : (s.tick).ctrl = s.ctrl := rfl
@[simp] theorem tick_status (s : State) : (s.tick).status = s.status := rfl
@[simp] theorem tick_imgDim (s : State) : (s.tick).imgDim = s.imgDim := rfl
@[simp] theorem tick_kdim (s : State) : (s.tick).kdim = s.kdim := rfl
@[simp] theorem tick_srcBase (s : State) : (s.tick).srcBase = s.srcBase := rfl
@[simp] theorem tick_srcStride (s : State) : (s.tick).srcStride = s.srcStride := rfl
@[simp] theorem tick_dstBase (s : State) : (s.tick).dstBase = s.dstBase := rfl
@[simp] theorem tick_dstStride (s : State) : (s.tick).dstStride = s.dstStride := rfl
@[simp] theorem tick_wsum (s : State) : (s.tick).wsum = s.wsum := rfl
@[simp] theorem tick_nfactor (s : State) : (s.tick).nfactor = s.nfactor := rfl
@[simp] theorem tick_coord (s : State) : (s.tick).coord = s.coord := rfl
@[simp] theorem tick_mapres (s : State) : (s.tick).mapres = s.mapres := rfl
@[simp] theorem tick_scalar (s : State) : (s.tick).scalar = s.scalar := rfl
@[simp] theorem tick_color (s : State) : (s.tick).color = s.color := rfl
@[simp] theorem tick_pcount (s : State) : (s.tick).pcount = s.pcount := rfl
@[simp] theorem tick_faultAddr (s : State) : (s.tick).faultAddr = s.faultAddr := rfl
@[simp] theorem tick_pregs (s : State) : (s.tick).pregs = s.pregs := rfl
@[simp] theorem tick_kwmem (s : State) : (s.tick).kwmem = s.kwmem := rfl
@[simp] theorem tick_pending (s : State) : (s.tick).pending = s.pending := rfl
@[simp] theorem tick_stop (s : State) : (s.tick).stop = s.stop := rfl
@[simp] theorem tick_overs (s : State) : (s.tick).overs = s.overs := rfl
@[simp] theorem tick_inReset (s : State) : (s.tick).inReset = s.inReset := rfl
@[simp] theorem tick_during (s : State) : (s.tick).during = s.during := rfl
@[simp] theorem tick_mem (s : State) : (s.tick).mem = s.mem := rfl
@[simp] theorem tick_busMap (s : State) : (s.tick).busMap = s.busMap := rfl
@[simp] theorem tick_agenda (s : State) : (s.tick).agenda = s.agenda := rfl
@[simp] theorem tick_resp (s : State) : (s.tick).resp = s.resp := rfl
@[simp] theorem tick_free (s : State) : (s.tick).free = s.free + 1 := rfl

@[simp] theorem reject_ctrl (c : Rej) (s : State) : (reject c s).ctrl = s.ctrl := rfl
@[simp] theorem reject_status (c : Rej) (s : State) : (reject c s).status = s.status.rejected c := rfl
@[simp] theorem reject_imgDim (c : Rej) (s : State) : (reject c s).imgDim = s.imgDim := rfl
@[simp] theorem reject_kdim (c : Rej) (s : State) : (reject c s).kdim = s.kdim := rfl
@[simp] theorem reject_srcBase (c : Rej) (s : State) : (reject c s).srcBase = s.srcBase := rfl
@[simp] theorem reject_srcStride (c : Rej) (s : State) : (reject c s).srcStride = s.srcStride := rfl
@[simp] theorem reject_dstBase (c : Rej) (s : State) : (reject c s).dstBase = s.dstBase := rfl
@[simp] theorem reject_dstStride (c : Rej) (s : State) : (reject c s).dstStride = s.dstStride := rfl
@[simp] theorem reject_wsum (c : Rej) (s : State) : (reject c s).wsum = s.wsum := rfl
@[simp] theorem reject_nfactor (c : Rej) (s : State) : (reject c s).nfactor = s.nfactor := rfl
@[simp] theorem reject_coord (c : Rej) (s : State) : (reject c s).coord = s.coord := rfl
@[simp] theorem reject_mapres (c : Rej) (s : State) : (reject c s).mapres = s.mapres := rfl
@[simp] theorem reject_scalar (c : Rej) (s : State) : (reject c s).scalar = s.scalar := rfl
@[simp] theorem reject_color (c : Rej) (s : State) : (reject c s).color = s.color := rfl
@[simp] theorem reject_pcount (c : Rej) (s : State) : (reject c s).pcount = s.pcount := rfl
@[simp] theorem reject_faultAddr (c : Rej) (s : State) : (reject c s).faultAddr = s.faultAddr := rfl
@[simp] theorem reject_pregs (c : Rej) (s : State) : (reject c s).pregs = s.pregs := rfl
@[simp] theorem reject_kwmem (c : Rej) (s : State) : (reject c s).kwmem = s.kwmem := rfl
@[simp] theorem reject_pending (c : Rej) (s : State) : (reject c s).pending = s.pending := rfl
@[simp] theorem reject_stop (c : Rej) (s : State) : (reject c s).stop = s.stop := rfl
@[simp] theorem reject_overs (c : Rej) (s : State) : (reject c s).overs = s.overs := rfl
@[simp] theorem reject_inReset (c : Rej) (s : State) : (reject c s).inReset = s.inReset := rfl
@[simp] theorem reject_during (c : Rej) (s : State) : (reject c s).during = s.during := rfl
@[simp] theorem reject_mem (c : Rej) (s : State) : (reject c s).mem = s.mem := rfl
@[simp] theorem reject_busMap (c : Rej) (s : State) : (reject c s).busMap = s.busMap := rfl
@[simp] theorem reject_agenda (c : Rej) (s : State) : (reject c s).agenda = s.agenda := rfl
@[simp] theorem reject_resp (c : Rej) (s : State) : (reject c s).resp = s.resp := rfl
@[simp] theorem reject_free (c : Rej) (s : State) : (reject c s).free = s.free := rfl

@[simp] theorem rejectBusErr_ctrl (a : Word) (s : State) : (rejectBusErr a s).ctrl = s.ctrl := rfl
@[simp] theorem rejectBusErr_status (a : Word) (s : State) : (rejectBusErr a s).status = s.status.rejected .busErr := rfl
@[simp] theorem rejectBusErr_imgDim (a : Word) (s : State) : (rejectBusErr a s).imgDim = s.imgDim := rfl
@[simp] theorem rejectBusErr_kdim (a : Word) (s : State) : (rejectBusErr a s).kdim = s.kdim := rfl
@[simp] theorem rejectBusErr_srcBase (a : Word) (s : State) : (rejectBusErr a s).srcBase = s.srcBase := rfl
@[simp] theorem rejectBusErr_srcStride (a : Word) (s : State) : (rejectBusErr a s).srcStride = s.srcStride := rfl
@[simp] theorem rejectBusErr_dstBase (a : Word) (s : State) : (rejectBusErr a s).dstBase = s.dstBase := rfl
@[simp] theorem rejectBusErr_dstStride (a : Word) (s : State) : (rejectBusErr a s).dstStride = s.dstStride := rfl
@[simp] theorem rejectBusErr_wsum (a : Word) (s : State) : (rejectBusErr a s).wsum = s.wsum := rfl
@[simp] theorem rejectBusErr_nfactor (a : Word) (s : State) : (rejectBusErr a s).nfactor = s.nfactor := rfl
@[simp] theorem rejectBusErr_coord (a : Word) (s : State) : (rejectBusErr a s).coord = s.coord := rfl
@[simp] theorem rejectBusErr_mapres (a : Word) (s : State) : (rejectBusErr a s).mapres = s.mapres := rfl
@[simp] theorem rejectBusErr_scalar (a : Word) (s : State) : (rejectBusErr a s).scalar = s.scalar := rfl
@[simp] theorem rejectBusErr_color (a : Word) (s : State) : (rejectBusErr a s).color = s.color := rfl
@[simp] theorem rejectBusErr_pcount (a : Word) (s : State) : (rejectBusErr a s).pcount = s.pcount := rfl
@[simp] theorem rejectBusErr_faultAddr (a : Word) (s : State) : (rejectBusErr a s).faultAddr = a := rfl
@[simp] theorem rejectBusErr_pregs (a : Word) (s : State) : (rejectBusErr a s).pregs = s.pregs := rfl
@[simp] theorem rejectBusErr_kwmem (a : Word) (s : State) : (rejectBusErr a s).kwmem = s.kwmem := rfl
@[simp] theorem rejectBusErr_pending (a : Word) (s : State) : (rejectBusErr a s).pending = s.pending := rfl
@[simp] theorem rejectBusErr_stop (a : Word) (s : State) : (rejectBusErr a s).stop = s.stop := rfl
@[simp] theorem rejectBusErr_overs (a : Word) (s : State) : (rejectBusErr a s).overs = s.overs := rfl
@[simp] theorem rejectBusErr_inReset (a : Word) (s : State) : (rejectBusErr a s).inReset = s.inReset := rfl
@[simp] theorem rejectBusErr_during (a : Word) (s : State) : (rejectBusErr a s).during = s.during := rfl
@[simp] theorem rejectBusErr_mem (a : Word) (s : State) : (rejectBusErr a s).mem = s.mem := rfl
@[simp] theorem rejectBusErr_busMap (a : Word) (s : State) : (rejectBusErr a s).busMap = s.busMap := rfl
@[simp] theorem rejectBusErr_agenda (a : Word) (s : State) : (rejectBusErr a s).agenda = s.agenda := rfl
@[simp] theorem rejectBusErr_resp (a : Word) (s : State) : (rejectBusErr a s).resp = s.resp := rfl
@[simp] theorem rejectBusErr_free (a : Word) (s : State) : (rejectBusErr a s).free = s.free := rfl

@[simp] theorem clearStatus_ctrl (v : Word) (s : State) : (clearStatus v s).ctrl = s.ctrl := rfl
@[simp] theorem clearStatus_status (v : Word) (s : State) : (clearStatus v s).status = s.status.cleared v := rfl
@[simp] theorem clearStatus_imgDim (v : Word) (s : State) : (clearStatus v s).imgDim = s.imgDim := rfl
@[simp] theorem clearStatus_kdim (v : Word) (s : State) : (clearStatus v s).kdim = s.kdim := rfl
@[simp] theorem clearStatus_srcBase (v : Word) (s : State) : (clearStatus v s).srcBase = s.srcBase := rfl
@[simp] theorem clearStatus_srcStride (v : Word) (s : State) : (clearStatus v s).srcStride = s.srcStride := rfl
@[simp] theorem clearStatus_dstBase (v : Word) (s : State) : (clearStatus v s).dstBase = s.dstBase := rfl
@[simp] theorem clearStatus_dstStride (v : Word) (s : State) : (clearStatus v s).dstStride = s.dstStride := rfl
@[simp] theorem clearStatus_wsum (v : Word) (s : State) : (clearStatus v s).wsum = s.wsum := rfl
@[simp] theorem clearStatus_nfactor (v : Word) (s : State) : (clearStatus v s).nfactor = s.nfactor := rfl
@[simp] theorem clearStatus_coord (v : Word) (s : State) : (clearStatus v s).coord = s.coord := rfl
@[simp] theorem clearStatus_mapres (v : Word) (s : State) : (clearStatus v s).mapres = s.mapres := rfl
@[simp] theorem clearStatus_scalar (v : Word) (s : State) : (clearStatus v s).scalar = s.scalar := rfl
@[simp] theorem clearStatus_color (v : Word) (s : State) : (clearStatus v s).color = s.color := rfl
@[simp] theorem clearStatus_pcount (v : Word) (s : State) : (clearStatus v s).pcount = s.pcount := rfl
@[simp] theorem clearStatus_faultAddr (v : Word) (s : State) : (clearStatus v s).faultAddr = s.faultAddr := rfl
@[simp] theorem clearStatus_pregs (v : Word) (s : State) : (clearStatus v s).pregs = s.pregs := rfl
@[simp] theorem clearStatus_kwmem (v : Word) (s : State) : (clearStatus v s).kwmem = s.kwmem := rfl
@[simp] theorem clearStatus_pending (v : Word) (s : State) : (clearStatus v s).pending = s.pending := rfl
@[simp] theorem clearStatus_stop (v : Word) (s : State) : (clearStatus v s).stop = s.stop := rfl
@[simp] theorem clearStatus_overs (v : Word) (s : State) : (clearStatus v s).overs = s.overs := rfl
@[simp] theorem clearStatus_inReset (v : Word) (s : State) : (clearStatus v s).inReset = s.inReset := rfl
@[simp] theorem clearStatus_during (v : Word) (s : State) : (clearStatus v s).during = s.during := rfl
@[simp] theorem clearStatus_mem (v : Word) (s : State) : (clearStatus v s).mem = s.mem := rfl
@[simp] theorem clearStatus_busMap (v : Word) (s : State) : (clearStatus v s).busMap = s.busMap := rfl
@[simp] theorem clearStatus_agenda (v : Word) (s : State) : (clearStatus v s).agenda = s.agenda := rfl
@[simp] theorem clearStatus_resp (v : Word) (s : State) : (clearStatus v s).resp = s.resp := rfl
@[simp] theorem clearStatus_free (v : Word) (s : State) : (clearStatus v s).free = s.free := rfl

@[simp] theorem stopBy_ctrl (s : State) (w : Stop) : (s.stopBy w).ctrl = s.ctrl := rfl
@[simp] theorem stopBy_status (s : State) (w : Stop) : (s.stopBy w).status = s.status := rfl
@[simp] theorem stopBy_imgDim (s : State) (w : Stop) : (s.stopBy w).imgDim = s.imgDim := rfl
@[simp] theorem stopBy_kdim (s : State) (w : Stop) : (s.stopBy w).kdim = s.kdim := rfl
@[simp] theorem stopBy_srcBase (s : State) (w : Stop) : (s.stopBy w).srcBase = s.srcBase := rfl
@[simp] theorem stopBy_srcStride (s : State) (w : Stop) : (s.stopBy w).srcStride = s.srcStride := rfl
@[simp] theorem stopBy_dstBase (s : State) (w : Stop) : (s.stopBy w).dstBase = s.dstBase := rfl
@[simp] theorem stopBy_dstStride (s : State) (w : Stop) : (s.stopBy w).dstStride = s.dstStride := rfl
@[simp] theorem stopBy_wsum (s : State) (w : Stop) : (s.stopBy w).wsum = s.wsum := rfl
@[simp] theorem stopBy_nfactor (s : State) (w : Stop) : (s.stopBy w).nfactor = s.nfactor := rfl
@[simp] theorem stopBy_coord (s : State) (w : Stop) : (s.stopBy w).coord = s.coord := rfl
@[simp] theorem stopBy_mapres (s : State) (w : Stop) : (s.stopBy w).mapres = s.mapres := rfl
@[simp] theorem stopBy_scalar (s : State) (w : Stop) : (s.stopBy w).scalar = s.scalar := rfl
@[simp] theorem stopBy_color (s : State) (w : Stop) : (s.stopBy w).color = s.color := rfl
@[simp] theorem stopBy_pcount (s : State) (w : Stop) : (s.stopBy w).pcount = s.pcount := rfl
@[simp] theorem stopBy_faultAddr (s : State) (w : Stop) : (s.stopBy w).faultAddr = s.faultAddr := rfl
@[simp] theorem stopBy_pregs (s : State) (w : Stop) : (s.stopBy w).pregs = s.pregs := rfl
@[simp] theorem stopBy_kwmem (s : State) (w : Stop) : (s.stopBy w).kwmem = s.kwmem := rfl
@[simp] theorem stopBy_pending (s : State) (w : Stop) : (s.stopBy w).pending = s.pending := rfl
@[simp] theorem stopBy_stop (s : State) (w : Stop) : (s.stopBy w).stop = if s.stop = .none then w else s.stop := rfl
@[simp] theorem stopBy_overs (s : State) (w : Stop) : (s.stopBy w).overs = s.overs := rfl
@[simp] theorem stopBy_inReset (s : State) (w : Stop) : (s.stopBy w).inReset = s.inReset := rfl
@[simp] theorem stopBy_during (s : State) (w : Stop) : (s.stopBy w).during = s.during := rfl
@[simp] theorem stopBy_mem (s : State) (w : Stop) : (s.stopBy w).mem = s.mem := rfl
@[simp] theorem stopBy_busMap (s : State) (w : Stop) : (s.stopBy w).busMap = s.busMap := rfl
@[simp] theorem stopBy_agenda (s : State) (w : Stop) : (s.stopBy w).agenda = s.agenda := rfl
@[simp] theorem stopBy_resp (s : State) (w : Stop) : (s.stopBy w).resp = s.resp := rfl
@[simp] theorem stopBy_free (s : State) (w : Stop) : (s.stopBy w).free = s.free := rfl

@[simp] theorem passWrite_ctrl (s : State) (a v : Word) : (passWrite s a v).ctrl = s.ctrl := rfl
@[simp] theorem passWrite_status (s : State) (a v : Word) : (passWrite s a v).status = s.status := rfl
@[simp] theorem passWrite_imgDim (s : State) (a v : Word) : (passWrite s a v).imgDim = s.imgDim := rfl
@[simp] theorem passWrite_kdim (s : State) (a v : Word) : (passWrite s a v).kdim = s.kdim := rfl
@[simp] theorem passWrite_srcBase (s : State) (a v : Word) : (passWrite s a v).srcBase = s.srcBase := rfl
@[simp] theorem passWrite_srcStride (s : State) (a v : Word) : (passWrite s a v).srcStride = s.srcStride := rfl
@[simp] theorem passWrite_dstBase (s : State) (a v : Word) : (passWrite s a v).dstBase = s.dstBase := rfl
@[simp] theorem passWrite_dstStride (s : State) (a v : Word) : (passWrite s a v).dstStride = s.dstStride := rfl
@[simp] theorem passWrite_wsum (s : State) (a v : Word) : (passWrite s a v).wsum = s.wsum := rfl
@[simp] theorem passWrite_nfactor (s : State) (a v : Word) : (passWrite s a v).nfactor = s.nfactor := rfl
@[simp] theorem passWrite_coord (s : State) (a v : Word) : (passWrite s a v).coord = s.coord := rfl
@[simp] theorem passWrite_mapres (s : State) (a v : Word) : (passWrite s a v).mapres = s.mapres := rfl
@[simp] theorem passWrite_scalar (s : State) (a v : Word) : (passWrite s a v).scalar = s.scalar := rfl
@[simp] theorem passWrite_color (s : State) (a v : Word) : (passWrite s a v).color = s.color := rfl
@[simp] theorem passWrite_pcount (s : State) (a v : Word) : (passWrite s a v).pcount = s.pcount := rfl
@[simp] theorem passWrite_faultAddr (s : State) (a v : Word) : (passWrite s a v).faultAddr = s.faultAddr := rfl
@[simp] theorem passWrite_pregs (s : State) (a v : Word) : (passWrite s a v).pregs = s.pregs := rfl
@[simp] theorem passWrite_kwmem (s : State) (a v : Word) : (passWrite s a v).kwmem = s.kwmem := rfl
@[simp] theorem passWrite_pending (s : State) (a v : Word) : (passWrite s a v).pending = s.pending := rfl
@[simp] theorem passWrite_stop (s : State) (a v : Word) : (passWrite s a v).stop = s.stop := rfl
@[simp] theorem passWrite_overs (s : State) (a v : Word) : (passWrite s a v).overs = ⟨a, readWord s.mem a, true⟩ :: s.overs := rfl
@[simp] theorem passWrite_inReset (s : State) (a v : Word) : (passWrite s a v).inReset = s.inReset := rfl
@[simp] theorem passWrite_during (s : State) (a v : Word) : (passWrite s a v).during = s.during := rfl
@[simp] theorem passWrite_mem (s : State) (a v : Word) : (passWrite s a v).mem = writeWord s.mem a v := rfl
@[simp] theorem passWrite_busMap (s : State) (a v : Word) : (passWrite s a v).busMap = s.busMap := rfl
@[simp] theorem passWrite_agenda (s : State) (a v : Word) : (passWrite s a v).agenda = s.agenda := rfl
@[simp] theorem passWrite_resp (s : State) (a v : Word) : (passWrite s a v).resp = s.resp := rfl
@[simp] theorem passWrite_free (s : State) (a v : Word) : (passWrite s a v).free = s.free := rfl

@[simp] theorem withPass_ctrl (s t : State) : (s.withPass t).ctrl = s.ctrl := rfl
@[simp] theorem withPass_status (s t : State) : (s.withPass t).status = s.status := rfl
@[simp] theorem withPass_imgDim (s t : State) : (s.withPass t).imgDim = s.imgDim := rfl
@[simp] theorem withPass_kdim (s t : State) : (s.withPass t).kdim = s.kdim := rfl
@[simp] theorem withPass_srcBase (s t : State) : (s.withPass t).srcBase = s.srcBase := rfl
@[simp] theorem withPass_srcStride (s t : State) : (s.withPass t).srcStride = s.srcStride := rfl
@[simp] theorem withPass_dstBase (s t : State) : (s.withPass t).dstBase = s.dstBase := rfl
@[simp] theorem withPass_dstStride (s t : State) : (s.withPass t).dstStride = s.dstStride := rfl
@[simp] theorem withPass_wsum (s t : State) : (s.withPass t).wsum = s.wsum := rfl
@[simp] theorem withPass_nfactor (s t : State) : (s.withPass t).nfactor = s.nfactor := rfl
@[simp] theorem withPass_coord (s t : State) : (s.withPass t).coord = s.coord := rfl
@[simp] theorem withPass_mapres (s t : State) : (s.withPass t).mapres = s.mapres := rfl
@[simp] theorem withPass_scalar (s t : State) : (s.withPass t).scalar = s.scalar := rfl
@[simp] theorem withPass_color (s t : State) : (s.withPass t).color = s.color := rfl
@[simp] theorem withPass_pcount (s t : State) : (s.withPass t).pcount = t.pcount := rfl
@[simp] theorem withPass_faultAddr (s t : State) : (s.withPass t).faultAddr = t.faultAddr := rfl
@[simp] theorem withPass_pregs (s t : State) : (s.withPass t).pregs = s.pregs := rfl
@[simp] theorem withPass_kwmem (s t : State) : (s.withPass t).kwmem = s.kwmem := rfl
@[simp] theorem withPass_pending (s t : State) : (s.withPass t).pending = t.pending := rfl
@[simp] theorem withPass_stop (s t : State) : (s.withPass t).stop = s.stop := rfl
@[simp] theorem withPass_overs (s t : State) : (s.withPass t).overs = t.overs := rfl
@[simp] theorem withPass_inReset (s t : State) : (s.withPass t).inReset = s.inReset := rfl
@[simp] theorem withPass_during (s t : State) : (s.withPass t).during = s.during := rfl
@[simp] theorem withPass_mem (s t : State) : (s.withPass t).mem = t.mem := rfl
@[simp] theorem withPass_busMap (s t : State) : (s.withPass t).busMap = s.busMap := rfl
@[simp] theorem withPass_agenda (s t : State) : (s.withPass t).agenda = s.agenda := rfl
@[simp] theorem withPass_resp (s t : State) : (s.withPass t).resp = s.resp := rfl
@[simp] theorem withPass_free (s t : State) : (s.withPass t).free = t.free := rfl

@[simp] theorem passEnd_ctrl (s : State) : (passEnd s).ctrl = s.ctrl := rfl
@[simp] theorem passEnd_status (s : State) : (passEnd s).status = s.status.ended 0 := rfl
@[simp] theorem passEnd_imgDim (s : State) : (passEnd s).imgDim = s.imgDim := rfl
@[simp] theorem passEnd_kdim (s : State) : (passEnd s).kdim = s.kdim := rfl
@[simp] theorem passEnd_srcBase (s : State) : (passEnd s).srcBase = s.srcBase := rfl
@[simp] theorem passEnd_srcStride (s : State) : (passEnd s).srcStride = s.srcStride := rfl
@[simp] theorem passEnd_dstBase (s : State) : (passEnd s).dstBase = s.dstBase := rfl
@[simp] theorem passEnd_dstStride (s : State) : (passEnd s).dstStride = s.dstStride := rfl
@[simp] theorem passEnd_wsum (s : State) : (passEnd s).wsum = s.wsum := rfl
@[simp] theorem passEnd_nfactor (s : State) : (passEnd s).nfactor = s.nfactor := rfl
@[simp] theorem passEnd_coord (s : State) : (passEnd s).coord = s.coord := rfl
@[simp] theorem passEnd_mapres (s : State) : (passEnd s).mapres = s.mapres := rfl
@[simp] theorem passEnd_scalar (s : State) : (passEnd s).scalar = s.scalar := rfl
@[simp] theorem passEnd_color (s : State) : (passEnd s).color = s.color := rfl
@[simp] theorem passEnd_pcount (s : State) : (passEnd s).pcount = s.pcount := rfl
@[simp] theorem passEnd_faultAddr (s : State) : (passEnd s).faultAddr = s.faultAddr := rfl
@[simp] theorem passEnd_pregs (s : State) : (passEnd s).pregs = s.pregs := rfl
@[simp] theorem passEnd_kwmem (s : State) : (passEnd s).kwmem = s.kwmem := rfl
@[simp] theorem passEnd_pending (s : State) : (passEnd s).pending = s.pending := rfl
@[simp] theorem passEnd_stop (s : State) : (passEnd s).stop = s.stop := rfl
@[simp] theorem passEnd_overs (s : State) : (passEnd s).overs = [] := rfl
@[simp] theorem passEnd_inReset (s : State) : (passEnd s).inReset = s.inReset := rfl
@[simp] theorem passEnd_during (s : State) : (passEnd s).during = s.during := rfl
@[simp] theorem passEnd_mem (s : State) : (passEnd s).mem = s.mem := rfl
@[simp] theorem passEnd_busMap (s : State) : (passEnd s).busMap = s.busMap := rfl
@[simp] theorem passEnd_agenda (s : State) : (passEnd s).agenda = s.agenda := rfl
@[simp] theorem passEnd_resp (s : State) : (passEnd s).resp = s.resp := rfl
@[simp] theorem passEnd_free (s : State) : (passEnd s).free = s.free := rfl

/-- A pixel register reads what was last written to it (10_state R50). -/
@[simp] theorem preg_setPreg_same (s : State) (n : PReg) (p : Pixel) : preg (setPreg s n p) n = p := by
  simp [preg]

/-- A write of one pixel register leaves the others (10_state R50: no aliases). -/
theorem preg_setPreg_other (s : State) {n k : PReg} (p : Pixel) (h : k ≠ n) : preg (setPreg s n p) k = preg s k := by
  simp only [preg, setPreg_pregs, Fin.getElem_fin]
  exact Vector.getElem_set_ne _ _ (fun e => h (Fin.ext e.symm))

end Sys2Proof.Machine
end

