-- ==== Sys2Proof/Laws/Engine.lean ====
section
/-! SUPPORT. The convolution and the pass: what a convolution, one output point, the drain and the engine's turn can do, each
said once. -/

namespace Sys2Proof.Machine

/-! ### The convolution -/

/-- A bus error of a sum over taps is that of one of them. -/
theorem accumulate_busErr {m : Nat → Memory} {s : State} {pol : Policy} {x y : Int} {k : Nat} {ts : List (Nat × Nat)}
    {acc : Pixel} {a : Word} (h : accumulate m s pol x y k ts acc = .busErr a) :
    ∃ t ∈ ts, a = sampleAddr s pol (x + tapDx s t) (y + tapDy s t) ∧ refusesRead s a = true := by
  induction ts generalizing k acc with
  | nil => cases h
  | cons t ts ih =>
    cases hr : refusesRead s (sampleAddr s pol (x + tapDx s t) (y + tapDy s t)) with
    | true =>
      simp only [accumulate, sample_busErr (s := { s with mem := m k }) hr, Bus.busErr.injEq] at h
      exact ⟨t, .head _, h.symm, h ▸ hr⟩
    | false =>
      simp only [accumulate, sample_ok (s := { s with mem := m k }) hr] at h
      obtain ⟨u, hu, e⟩ := ih h
      exact ⟨u, .tail _ hu, e⟩

/-- A sum over taps none of which fails is the fold of its weighted samples in tap order, each of the word its read sees
(42_kernel R230, R231). -/
theorem accumulate_ok {m : Nat → Memory} {s : State} {pol : Policy} {x y : Int} {ts : List (Nat × Nat)} (k : Nat) (acc : Pixel)
    (h : ∀ t ∈ ts, refusesRead s (sampleAddr s pol (x + tapDx s t) (y + tapDy s t)) = false) :
    accumulate m s pol x y k ts acc = .ok ((ts.zipIdx k).foldl (fun acc t => pAddPix acc (pScalePix
      (fromColor (colorOfWord (readWord (m t.2) (sampleAddr s pol (x + tapDx s t.1) (y + tapDy s t.1)))))
      (tapWeight s t.1))) acc) := by
  induction ts generalizing k acc with
  | nil => rfl
  | cons t ts ih =>
    simp only [accumulate, sample_ok (s := { s with mem := m k }) (h t (.head _)), List.zipIdx_cons, List.foldl_cons]
    exact ih _ _ fun u hu => h u (.tail _ hu)

/-- The first tap that fails gives the sum its bus error (42_kernel R237). -/
theorem accumulate_first {m : Nat → Memory} {s : State} {pol : Policy} {x y : Int} {before after : List (Nat × Nat)}
    {k : Nat × Nat} (n : Nat) (acc : Pixel)
    (h : ∀ t ∈ before, refusesRead s (sampleAddr s pol (x + tapDx s t) (y + tapDy s t)) = false)
    (hk : refusesRead s (sampleAddr s pol (x + tapDx s k) (y + tapDy s k)) = true) :
    accumulate m s pol x y n (before ++ k :: after) acc = .busErr (sampleAddr s pol (x + tapDx s k) (y + tapDy s k)) := by
  induction before generalizing n acc with
  | nil => simp only [List.nil_append, accumulate, sample_busErr (s := { s with mem := m n }) hk]; rfl
  | cons t ts ih =>
    simp only [List.cons_append, accumulate, sample_ok (s := { s with mem := m n }) (h t (.head _))]
    exact ih _ _ fun u hu => h u (.tail _ hu)

/-- A sum over taps that has a result has read every tap (42_kernel R237). -/
theorem accumulate_reads {m : Nat → Memory} {s : State} {pol : Policy} {x y : Int} {k : Nat} {ts : List (Nat × Nat)}
    {acc p : Pixel} (h : accumulate m s pol x y k ts acc = .ok p) :
    ∀ t ∈ ts, refusesRead s (sampleAddr s pol (x + tapDx s t) (y + tapDy s t)) = false := by
  induction ts generalizing k acc with
  | nil => intro t ht; cases ht
  | cons u us ih =>
    cases hr : refusesRead s (sampleAddr s pol (x + tapDx s u) (y + tapDy s u)) with
    | true => simp only [accumulate, sample_busErr (s := { s with mem := m k }) hr] at h; cases h
    | false =>
      simp only [accumulate, sample_ok (s := { s with mem := m k }) hr] at h
      intro t ht
      cases ht with
      | head => exact hr
      | tail _ ht => exact ih h t ht

/-- A convolution that fails has a tap whose read is refused, at the address it gives back. -/
theorem convSeen_busErr {m : Nat → Memory} {s : State} {pol : Policy} {x y : Int} {a : Word}
    (h : convSeen m s pol x y = .busErr a) :
    ∃ t ∈ taps s, a = sampleAddr s pol (x + tapDx s t) (y + tapDy s t) ∧ refusesRead s a = true := by
  unfold convSeen at h
  split at h
  · rename_i b hb
    cases h
    exact accumulate_busErr hb
  · cases h

/-- A convolution that has a result has read every tap. -/
theorem convSeen_reads {m : Nat → Memory} {s : State} {pol : Policy} {x y : Int} {p : Pixel}
    (h : convSeen m s pol x y = .ok p) :
    ∀ t ∈ taps s, refusesRead s (sampleAddr s pol (x + tapDx s t) (y + tapDy s t)) = false := by
  unfold convSeen at h
  split at h
  · cases h
  · rename_i acc ha
    exact accumulate_reads ha

/-- What the convolution reads of the state: the same in two states, it gives the same. The memory may differ where no tap
reads. -/
theorem accumulate_congr {m n : Nat → Memory} {s t : State} {pol : Policy} {x y : Int} (hi : t.imgDim = s.imgDim)
    (hk : t.kdim = s.kdim) (hw : t.kwmem = s.kwmem) (hb : t.srcBase = s.srcBase) (hs : t.srcStride = s.srcStride)
    (hm : t.busMap = s.busMap) {ts : List (Nat × Nat)} (k : Nat) (acc : Pixel)
    (hr : ∀ u ∈ ts, ∀ k, readWord (n k) (sampleAddr s pol (x + tapDx s u) (y + tapDy s u)) =
      readWord (m k) (sampleAddr s pol (x + tapDx s u) (y + tapDy s u))) :
    accumulate n t pol x y k ts acc = accumulate m s pol x y k ts acc := by
  induction ts generalizing k acc with
  | nil => rfl
  | cons u us ih =>
    have ea : sampleAddr t pol (x + tapDx t u) (y + tapDy t u) = sampleAddr s pol (x + tapDx s u) (y + tapDy s u) := by
      simp only [sampleAddr, srcAddr, imgW, imgH, tapDx, tapDy, hi, hk, hb, hs]
    have e : sample { t with mem := n k } pol (x + tapDx t u) (y + tapDy t u) =
        sample { s with mem := m k } pol (x + tapDx s u) (y + tapDy s u) := by
      have ef : refusesRead t (sampleAddr s pol (x + tapDx s u) (y + tapDy s u)) =
          refusesRead s (sampleAddr s pol (x + tapDx s u) (y + tapDy s u)) := by unfold refusesRead; rw [hm]
      cases h : refusesRead s (sampleAddr s pol (x + tapDx s u) (y + tapDy s u)) with
      | true =>
        rw [sample_busErr (s := { s with mem := m k }) h,
          sample_busErr (s := { t with mem := n k }) ((congrArg (refusesRead t) ea).trans (ef.trans h))]
        exact congrArg Bus.busErr ea
      | false =>
        rw [sample_ok (s := { s with mem := m k }) h,
          sample_ok (s := { t with mem := n k }) ((congrArg (refusesRead t) ea).trans (ef.trans h))]
        exact congrArg (fun v => Bus.ok (fromColor (colorOfWord v))) ((congrArg (readWord (n k)) ea).trans (hr u (.head _) k))
    have ew : tapWeight t u = tapWeight s u := by simp only [tapWeight, hk, hw]
    simp only [accumulate, e, ew]
    split
    · rfl
    · exact ih _ _ fun v hv => hr v (.tail _ hv)

/-- `accumulate_congr` for the whole convolution of memory as it stands. -/
theorem conv_congr {s t : State} {pol : Policy} {x y : Int} (hi : t.imgDim = s.imgDim) (hk : t.kdim = s.kdim)
    (hw : t.kwmem = s.kwmem) (hb : t.srcBase = s.srcBase) (hs : t.srcStride = s.srcStride) (hm : t.busMap = s.busMap)
    (hc : t.ctrl.norm = s.ctrl.norm) (hn : t.nfactor = s.nfactor)
    (hr : ∀ u ∈ taps s, readWord t.mem (sampleAddr s pol (x + tapDx s u) (y + tapDy s u)) =
      readWord s.mem (sampleAddr s pol (x + tapDx s u) (y + tapDy s u))) :
    conv t pol x y = conv s pol x y := by
  have et : taps t = taps s := by simp only [taps, hk]
  simp only [conv, convSeen, et, accumulate_congr hi hk hw hb hs hm 0 Pixel.zero fun u hu _ => hr u hu, normalize, hc, hn]

/-! ### One output point -/

/-- What an output point changes of the state. -/
theorem writePoint_frame (i : Nat) (v : Word) (s : State) : (writePoint i v s).2 = s.withPass (writePoint i v s).2 := by
  unfold writePoint; dsimp only; split <;> rfl

theorem attempt_frame (pol : Policy) (i : Nat) (s : State) : (attempt pol i s).2 = s.withPass (attempt pol i s).2 := by
  unfold attempt; split
  · rfl
  · exact writePoint_frame _ _ _

/-- The word the write of an output point leaves at its address when it returns OK (43_engine R263; 70_reset R346). -/
def writtenWord (s : State) (pol : Policy) (i : Nat) (p : Pixel) : Word :=
  if contested s (pointAddr s i) && !Config.raceWins s.free (pointAddr s i).toNat
  then readWord s.mem (pointAddr s i) else outputWord s pol i p

/-- Everything an output point can do that completes: its convolution has a result, its write is not refused, and the word
is in memory. -/
theorem attempt_written {pol : Policy} {i : Nat} {s t : State} (h : attempt pol i s = (none, t)) :
    ∃ p, conv s pol (pointX s i) (pointY s i) = .ok p ∧ refusesWrite s (pointAddr s i) = false ∧
      t = { passWrite s (pointAddr s i) (writtenWord s pol i p) with
        pending := pendingRemove s.pending i, pcount := s.pcount + 1, free := s.free + 1 } := by
  unfold attempt at h
  split at h
  · cases h
  · rename_i p hp
    refine ⟨p, hp, ?_⟩
    unfold writePoint at h
    dsimp only at h
    split at h
    · cases h
    · rename_i hw
      exact ⟨by simpa using hw, (Prod.mk.inj h).2.symm⟩

/-- An output point whose convolution has a result has read all its taps. -/
theorem conv_reads {s : State} {pol : Policy} {i : Nat} {p : Pixel} (h : conv s pol (pointX s i) (pointY s i) = .ok p) :
    ∀ a ∈ tapAddrs s pol i, refusesRead s a = false := by
  intro a hm
  obtain ⟨u, hu, rfl⟩ := List.mem_map.mp hm
  exact convSeen_reads h u hu

/-- Everything an output point can do that meets a bus error: a tap's read was refused and nothing is written, or its write
was refused and the word there is a free value. -/
theorem attempt_failed {pol : Policy} {i : Nat} {s t : State} {a : Word} (h : attempt pol i s = (some a, t)) :
    (a ∈ tapAddrs s pol i ∧ refusesRead s a = true ∧ t = s.tick) ∨
    (a = pointAddr s i ∧ refusesWrite s a = true ∧ t = (passWrite s a (Config.busErrWord s.free)).tick) := by
  unfold attempt at h
  split at h
  · rename_i a' ha
    obtain ⟨h1, h2⟩ := Prod.mk.inj h
    have h1 := Option.some.inj h1
    left
    have hmem : a' ∈ (tapAddrs s pol i).filter (refusesRead s) := by
      obtain ⟨u, hu, e, hr⟩ := convSeen_busErr ha
      exact List.mem_filter.mpr ⟨List.mem_map.mpr ⟨u, hu, e.symm⟩, hr⟩
    have : a ∈ (tapAddrs s pol i).filter (refusesRead s) := by
      subst h1
      unfold faultPick
      split
      · exact hmem
      · have hl := List.length_pos_of_mem hmem
        rw [List.getD_eq_getElem?_getD, List.getElem?_eq_getElem (Nat.mod_lt _ hl)]
        exact List.getElem_mem _
    exact ⟨(List.mem_filter.mp this).1, (List.mem_filter.mp this).2, h2.symm⟩
  · right
    unfold writePoint at h
    dsimp only at h
    split at h
    · rename_i hw
      obtain ⟨h1, h2⟩ := Prod.mk.inj h
      cases h1
      exact ⟨rfl, hw, h2.symm⟩
    · cases h

/-- With every tap readable and the output word writable, an output point completes. -/
theorem attempt_completes {pol : Policy} {i : Nat} {s : State} (hr : ∀ a ∈ tapAddrs s pol i, refusesRead s a = false)
    (hw : refusesWrite s (pointAddr s i) = false) : ∃ t, attempt pol i s = (none, t) := by
  cases e : attempt pol i s with
  | mk o t =>
    cases o with
    | none => exact ⟨t, rfl⟩
    | some a =>
      rcases attempt_failed e with ⟨ha, h, -⟩ | ⟨rfl, h, -⟩
      · rw [hr a ha] at h; cases h
      · rw [hw] at h; cases h

/-- With a tap that cannot be read, or an output word that cannot be written, an output point fails. -/
theorem attempt_fails {pol : Policy} {i : Nat} {s : State}
    (h : (∃ a ∈ tapAddrs s pol i, refusesRead s a = true) ∨ refusesWrite s (pointAddr s i) = true) :
    ∃ a t, attempt pol i s = (some a, t) := by
  cases e : attempt pol i s with
  | mk o t =>
    cases o with
    | some a => exact ⟨a, t, rfl⟩
    | none =>
      obtain ⟨p, hc, hw, -⟩ := attempt_written e
      rcases h with ⟨a, ha, hr⟩ | h
      · rw [conv_reads hc a ha] at hr; cases hr
      · rw [hw] at h; cases h

/-! ### The drain and the engine's turn -/

/-- What every output point of a drain keeps, the drain keeps. -/
theorem drainLoop_induct {P : State → Prop} {pol : Policy}
    (written : ∀ s i t, P s → pendingHas s.pending i = true → attempt pol i s = (none, t) → P t)
    (failed : ∀ s i a t, P s → pendingHas s.pending i = true → attempt pol i s = (some a, t) → P { t with faultAddr := a })
    {ks : List Nat} {s : State} (h : P s) : P (drainLoop pol ks s) := by
  induction ks generalizing s with
  | nil => exact h
  | cons k ks ih =>
    unfold drainLoop
    split
    · exact h
    · rename_i i hi
      split
      · rename_i t ht; exact ih (written s i t h (pendingPick_has hi) ht)
      · rename_i a t ht; exact ih (failed s i a t h (pendingPick_has hi) ht)

theorem drainLoop_frame (pol : Policy) (ks : List Nat) (s : State) : drainLoop pol ks s = s.withPass (drainLoop pol ks s) := by
  refine drainLoop_induct (P := fun t => t = s.withPass t) ?_ ?_ rfl
  · intro u i t hu _ ht
    have e : t = u.withPass t := by simpa only [ht] using attempt_frame pol i u
    rw [e, hu]; rfl
  · intro u i a t hu _ ht
    have e : t = u.withPass t := by simpa only [ht] using attempt_frame pol i u
    rw [e, hu]; rfl

theorem drained_frame (s : State) : drained s = s.withPass (drained s) := by
  unfold drained; split
  · rfl
  · rw [drainLoop_frame]; rfl

/-- What every output point under the policy CTRL selects keeps, and a counted free value keeps, the stopped pass keeps before
it ends. -/
theorem drained_induct {P : State → Prop} {s : State}
    (written : ∀ u pol i t, s.ctrl.policy = some pol → P u → pendingHas u.pending i = true →
      attempt pol i u = (none, t) → P t)
    (failed : ∀ u pol i a t, s.ctrl.policy = some pol → P u → pendingHas u.pending i = true →
      attempt pol i u = (some a, t) → P { t with faultAddr := a })
    (h : P s.tick) : P (drained s) := by
  unfold drained; split
  · exact h
  · rename_i pol hp
    exact drainLoop_induct (fun u i t => written u pol i t hp) (fun u i a t => failed u pol i a t hp) h

/-- What the end of a stopped pass leaves (43_engine R267). -/
theorem drain_eq (s : State) :
    drain s = { s with
      mem := (drained s).mem, pending := (drained s).pending, pcount := (drained s).pcount
      faultAddr := (drained s).faultAddr, free := (drained s).free, overs := []
      status := s.status.ended s.stop.pres } := rfl

/-- The engine's turn: nothing, or one output point of a running pass and what follows it. -/
theorem engineTurn_cases (pick : Nat) (s : State) :
    engineTurn pick s = s ∨
    ∃ pol i, s.status.busy = true ∧ s.stop = .none ∧ s.inReset = false ∧ s.ctrl.policy = some pol ∧
      pendingPick s.pending pick = some i ∧ engineTurn pick s = settle (attempt pol i s) := by
  unfold engineTurn
  split
  · rename_i he
    simp only [engineEnabled, Bool.and_eq_true, Bool.not_eq_true', beq_iff_eq] at he
    unfold engineStep
    split
    · rename_i pol i hp hi
      exact .inr ⟨pol, i, he.1.1.1, he.1.1.2, he.2, hp, hi, rfl⟩
    · exact .inl rfl
  · exact .inl rfl

/-- The engine's turn in a running pass that selects a policy and has points pending is one output point. -/
theorem engineTurn_eq {pick i : Nat} {pol : Policy} {s : State} (hb : s.status.busy = true) (hs : s.stop = .none)
    (hr : s.inReset = false) (hp : s.ctrl.policy = some pol) (hi : pendingPick s.pending pick = some i) :
    engineTurn pick s = settle (attempt pol i s) := by
  have hn : pendingSize s.pending ≠ 0 := pendingSize_of_has (pendingPick_has hi)
  simp [engineTurn, engineEnabled, engineStep, hb, hs, hr, hp, hi, hn]

theorem settle_failed {a : Word} {t : State} : settle (some a, t) = passFault a t := rfl

theorem settle_last {t : State} (h : pendingSize t.pending = 0) : settle (none, t) = passEnd t := by
  simp only [settle, h, if_true]

theorem settle_more {t : State} (h : pendingSize t.pending ≠ 0) : settle (none, t) = t := by
  simp only [settle, h, if_false]

end Sys2Proof.Machine
end

