-- ==== Sys2Proof/Laws/Memory.lean ====
section
/-! SUPPORT. Memory: every operation keeps the canonical form, a read after a write gives the value written, and a write
leaves every other byte alone. -/

namespace Sys2Proof.Machine

/-- A canonical memory from `lo` on is canonical from any lower address on. -/
theorem wfFrom_mono {m : Memory} {lo lo' : Nat} (h : Memory.wfFrom lo m = true) (hl : lo' ≤ lo) :
    Memory.wfFrom lo' m = true := by
  cases m with
  | nil => rfl
  | cons c rest =>
    obtain ⟨a, b⟩ := c
    simp only [Memory.wfFrom, Bool.and_eq_true, decide_eq_true_eq] at h ⊢
    exact ⟨⟨⟨by omega, h.1.1.2⟩, h.1.2⟩, h.2⟩

/-- Below its first address a canonical memory lists nothing. -/
theorem readByte_below {m : Memory} {lo k : Nat} (h : Memory.wfFrom lo m = true) (hk : k < lo) :
    readByte m k = unlistedByte := by
  induction m generalizing lo with
  | nil => rfl
  | cons c rest ih =>
    obtain ⟨a, b⟩ := c
    simp only [Memory.wfFrom, Bool.and_eq_true, decide_eq_true_eq] at h
    rw [readByte, if_neg (by omega)]
    exact ih h.2 (by omega)

/-- One cell in front keeps the form. -/
theorem wfFrom_consCell {m : Memory} {lo k : Nat} {b : Byte} (hk : lo ≤ k) (hs : k < Config.addrSpace)
    (h : Memory.wfFrom (k + 1) m = true) : Memory.wfFrom lo (consCell k b m) = true := by
  unfold consCell
  split
  · exact wfFrom_mono h (by omega)
  · rename_i hb
    simp [Memory.wfFrom, hk, hs, h, bne_iff_ne, hb]

/-- A byte written keeps the form. -/
theorem wfFrom_writeByte {m : Memory} {lo k : Nat} {b : Byte} (h : Memory.wfFrom lo m = true) (hk : lo ≤ k)
    (hs : k < Config.addrSpace) : Memory.wfFrom lo (writeByte m k b) = true := by
  induction m generalizing lo with
  | nil => exact wfFrom_consCell hk hs rfl
  | cons c rest ih =>
    obtain ⟨a, d⟩ := c
    have h' := h
    simp only [Memory.wfFrom, Bool.and_eq_true, decide_eq_true_eq] at h
    simp only [writeByte]
    split
    · refine wfFrom_consCell hk hs ?_
      simp only [Memory.wfFrom, Bool.and_eq_true, decide_eq_true_eq]
      exact ⟨⟨⟨by omega, h.1.1.2⟩, h.1.2⟩, h.2⟩
    · split
      · subst_vars; exact wfFrom_consCell hk hs h.2
      · simp only [Memory.wfFrom, Bool.and_eq_true, decide_eq_true_eq]
        exact ⟨h.1, ih h.2 (by omega)⟩

/-- A byte written keeps the canonical form. -/
theorem wf_writeByte {m : Memory} {k : Nat} {b : Byte} (h : Memory.wf m = true) (hs : k < Config.addrSpace) :
    Memory.wf (writeByte m k b) = true := wfFrom_writeByte h (Nat.zero_le _) hs

/-- Every 32-bit address lies in the address space. -/
theorem toNat_lt_addrSpace (a : Word) : a.toNat < Config.addrSpace := a.isLt

/-- Bytes written keep the canonical form. -/
theorem wf_writeBytes {m : Memory} (a : Word) (bs : List Byte) (h : Memory.wf m = true) :
    Memory.wf (writeBytes m a bs) = true := by
  induction bs generalizing m a with
  | nil => exact h
  | cons b bs ih => exact ih _ (wf_writeByte h (toNat_lt_addrSpace a))

/-- A word written keeps the canonical form. -/
theorem wf_writeWord {m : Memory} (a v : Word) (h : Memory.wf m = true) : Memory.wf (writeWord m a v) = true :=
  wf_writeBytes a _ h

theorem readByte_consCell {m : Memory} {k j : Nat} {b : Byte} (h : Memory.wfFrom (k + 1) m = true) :
    readByte (consCell k b m) j = if j = k then b else readByte m j := by
  unfold consCell
  split
  · rename_i hb
    split
    · subst_vars; exact readByte_below h (by omega)
    · rfl
  · simp only [readByte, eq_comm]

/-- Reading any byte after a byte is written to a canonical memory. -/
theorem readByte_writeByte_from {m : Memory} {lo k j : Nat} {b : Byte} (h : Memory.wfFrom lo m = true) :
    readByte (writeByte m k b) j = if j = k then b else readByte m j := by
  induction m generalizing lo with
  | nil => exact readByte_consCell rfl
  | cons c rest ih =>
    obtain ⟨a, d⟩ := c
    have h' := h
    simp only [Memory.wfFrom, Bool.and_eq_true, decide_eq_true_eq] at h
    simp only [writeByte]
    split
    · refine readByte_consCell ?_
      simp only [Memory.wfFrom, Bool.and_eq_true, decide_eq_true_eq]
      exact ⟨⟨⟨by omega, h.1.1.2⟩, h.1.2⟩, h.2⟩
    · split
      · subst_vars
        rw [readByte_consCell h.2]
        by_cases hj : j = a
        · simp [hj]
        · simp [hj, readByte, Ne.symm hj]
      · rename_i h1 h2
        simp only [readByte, ih h.2]
        by_cases hj : j = a
        · subst hj; simp [Ne.symm h2]
        · simp [Ne.symm hj]

/-- Reading any byte after a byte is written to a canonical memory. -/
theorem readByte_writeByte {m : Memory} {k j : Nat} {b : Byte} (h : Memory.wf m = true) :
    readByte (writeByte m k b) j = if j = k then b else readByte m j := readByte_writeByte_from h

/-- Successive byte addresses of a word. -/
theorem byteAddr_zero (a : Word) : byteAddr a 0 = a.toNat := by simp [byteAddr]

theorem byteAddr_eq (a : Word) (i : Nat) : byteAddr a i = (a.toNat + i) % 4294967296 := by
  simp [byteAddr, BitVec.toNat_add, Nat.add_mod]

/-- Reading any byte after a word is written to a canonical memory. -/
theorem readByte_writeWord {m : Memory} {a v : Word} {j : Nat} (h : Memory.wf m = true) :
    readByte (writeWord m a v) j =
      if j = byteAddr a 3 then v.extractLsb' 24 8
      else if j = byteAddr a 2 then v.extractLsb' 16 8
      else if j = byteAddr a 1 then v.extractLsb' 8 8
      else if j = byteAddr a 0 then v.extractLsb' 0 8
      else readByte m j := by
  have e1 : (a + 1).toNat = byteAddr a 1 := rfl
  have e2 : (a + 1 + 1).toNat = byteAddr a 2 := by simp [byteAddr, BitVec.add_assoc]
  have e3 : (a + 1 + 1 + 1).toNat = byteAddr a 3 := by simp [byteAddr, BitVec.add_assoc]
  have w0 := wf_writeByte (b := v.extractLsb' 0 8) h (toNat_lt_addrSpace a)
  have w1 := wf_writeByte (b := v.extractLsb' 8 8) w0 (toNat_lt_addrSpace (a + 1))
  have w2 := wf_writeByte (b := v.extractLsb' 16 8) w1 (toNat_lt_addrSpace (a + 1 + 1))
  simp only [writeWord, bytesOfWord, writeBytes]
  rw [readByte_writeByte w2, readByte_writeByte w1, readByte_writeByte w0, readByte_writeByte h, e1, e2, e3, byteAddr_zero]

/-- A word written leaves every byte outside its four. -/
theorem readByte_writeWord_outside {m : Memory} {a v : Word} {j : Nat} (h : Memory.wf m = true)
    (hj : ∀ i, i < 4 → j ≠ byteAddr a i) : readByte (writeWord m a v) j = readByte m j := by
  rw [readByte_writeWord h, if_neg (hj 3 (by omega)), if_neg (hj 2 (by omega)), if_neg (hj 1 (by omega)),
    if_neg (hj 0 (by omega))]

/-- The four bytes of a word, put together again, are the word. -/
theorem wordOfBytes_extract (v : Word) :
    wordOfBytes (v.extractLsb' 0 8) (v.extractLsb' 8 8) (v.extractLsb' 16 8) (v.extractLsb' 24 8) = v := by
  apply BitVec.eq_of_getLsbD_eq
  intro i hi
  simp only [wordOfBytes, BitVec.getLsbD_append, BitVec.getLsbD_extractLsb']
  by_cases h0 : i < 8
  · simp [h0]
  · by_cases h1 : i < 16
    · have : i - 8 < 8 := by omega
      simp [h0, this]; congr 1; omega
    · by_cases h2 : i < 24
      · have a1 : ¬ i - 8 < 8 := by omega
        have a2 : i - 8 - 8 < 8 := by omega
        simp [h0, a1, a2]; congr 1; omega
      · have a1 : ¬ i - 8 < 8 := by omega
        have a2 : ¬ i - 8 - 8 < 8 := by omega
        have a3 : i - 8 - 8 - 8 < 8 := by omega
        simp [h0, a1, a2, a3]; congr 1; omega

/-- A word read where it was written is the word written. -/
theorem readWord_writeWord_same {m : Memory} (a v : Word) (h : Memory.wf m = true) : readWord (writeWord m a v) a = v := by
  have n (i j : Nat) (hi : i < 4) (hj : j < 4) (hne : i ≠ j) : byteAddr a i ≠ byteAddr a j := by
    rw [byteAddr_eq, byteAddr_eq]; have := a.isLt; omega
  rw [readWord]
  simp only [readByte_writeWord h, if_pos trivial, n 0 1 (by omega) (by omega) (by omega), n 0 2 (by omega) (by omega) (by omega),
    n 0 3 (by omega) (by omega) (by omega), n 1 2 (by omega) (by omega) (by omega), n 1 3 (by omega) (by omega) (by omega),
    n 2 3 (by omega) (by omega) (by omega), if_false, wordOfBytes_extract]

/-- Two words share no byte. -/
def disjointWords (a b : Word) : Prop := ∀ i j, i < 4 → j < 4 → byteAddr a i ≠ byteAddr b j

/-- Two different aligned words share no byte. -/
theorem disjointWords_of_aligned {a b : Word} (ha : a.toNat % 4 = 0) (hb : b.toNat % 4 = 0) (h : a ≠ b) :
    disjointWords a b := by
  intro i j hi hj e
  rw [byteAddr_eq, byteAddr_eq] at e
  have := a.isLt; have := b.isLt
  exact h (BitVec.eq_of_toNat_eq (by omega))

/-- A word read elsewhere is as before. -/
theorem readWord_writeWord_other {m : Memory} {a b v : Word} (h : Memory.wf m = true) (hd : disjointWords b a) :
    readWord (writeWord m a v) b = readWord m b := by
  simp only [readWord]
  rw [readByte_writeWord_outside h fun i hi => hd 0 i (by omega) hi,
    readByte_writeWord_outside h fun i hi => hd 1 i (by omega) hi,
    readByte_writeWord_outside h fun i hi => hd 2 i (by omega) hi,
    readByte_writeWord_outside h fun i hi => hd 3 i (by omega) hi]

/-- Landing some writes is landing the first of them. -/
theorem landSome_eq (m : Memory) (ws : List MemWrite) (n : Nat) : landSome m ws n = landWrites m (ws.take n) := by
  induction ws generalizing m n with
  | nil => simp [landSome, landWrites]
  | cons w ws ih =>
    cases n with
    | zero => rfl
    | succ n => exact ih _ n

/-- Landing writes keeps memory canonical. -/
theorem wf_landWrites (ws : List MemWrite) {m : Memory} (h : Memory.wf m = true) : Memory.wf (landWrites m ws) = true := by
  induction ws generalizing m with
  | nil => exact h
  | cons w ws ih => exact ih (wf_writeBytes _ _ h)

/-- Memory right after reset is canonical. -/
theorem wf_reset : Memory.wf State.reset.mem = true := rfl

end Sys2Proof.Machine
end

