-- ==== Sys2Proof/Laws/Claims.lean ====
section
/-! SUPPORT. The convolution as claims write it out (Safety) is the machine's: its taps, its sum, its output word, and when a
source read races. -/

namespace Sys2Proof.Machine

/-! ### The taps -/

/-- The machine's tap address is the one the rules give. -/
theorem sampleAddr_tap (s : State) (pol : Policy) (x y : Int) (t : Nat × Nat) :
    sampleAddr s pol (x + tapDx s t) (y + tapDy s t) = s.tapAddr pol x y t.2 t.1 := rfl

theorem mem_taps {s : State} {t : Nat × Nat} : t ∈ taps s ↔ s.isTap t.2 t.1 := by
  unfold taps tapGrid State.isTap
  simp only [List.mem_flatMap, List.mem_map, List.mem_range]
  constructor
  · rintro ⟨j, hj, i, hi, rfl⟩; exact ⟨hj, hi⟩
  · intro ⟨hj, hi⟩; exact ⟨t.2, hj, t.1, hi, rfl⟩

theorem tapAddrs_eq (s : State) (pol : Policy) (n : Nat) :
    tapAddrs s pol n = (taps s).map (fun t => s.tapAddr pol (n % imgW s : Nat) (n / imgW s : Nat) t.2 t.1) := rfl

/-- The tap grid grows by a row. -/
theorem tapGrid_succ (cols rows : Nat) :
    tapGrid cols (rows + 1) = tapGrid cols rows ++ (List.range cols).map (fun i => (i, rows)) := by
  simp [tapGrid, List.range_succ]

theorem tapGrid_length (cols rows : Nat) : (tapGrid cols rows).length = rows * cols := by
  induction rows with
  | zero => simp [tapGrid]
  | succ rows ih => rw [tapGrid_succ, List.length_append, ih, List.length_map, List.length_range, Nat.succ_mul]

/-- Numbered in tap order, the place in column `i` of row `j` has number `j * cols + i`. -/
theorem tapGrid_zipIdx (cols rows : Nat) :
    (tapGrid cols rows).zipIdx = (tapGrid cols rows).map (fun t => (t, t.2 * cols + t.1)) := by
  induction rows with
  | zero => simp [tapGrid]
  | succ rows ih =>
    rw [tapGrid_succ, List.zipIdx_append, List.map_append, ih, tapGrid_length]
    congr 1
    apply List.ext_getElem
    · simp
    · intro k h1 h2
      simp

/-- The taps before the one in row `j` and column `i`, and those after it: the ones before are in an earlier row, or in the
same row and an earlier column (42_kernel R229). -/
theorem taps_split {s : State} {j i : Nat} (h : s.isTap j i) :
    ∃ before after, taps s = before ++ (i, j) :: after ∧
      ∀ t ∈ before, s.isTap t.2 t.1 ∧ (t.2 < j ∨ (t.2 = j ∧ t.1 < i)) := by
  have num (n : Nat) (hn : n < (taps s).length) :
      ((taps s)[n]).2 * (2 * s.kdim.ka.toNat + 1) + ((taps s)[n]).1 = n := by
    have e := congrArg (fun l => l[n]?) (tapGrid_zipIdx (2 * s.kdim.ka.toNat + 1) (2 * s.kdim.kb.toNat + 1))
    simp only [List.getElem?_zipIdx, List.getElem?_map] at e
    rw [show tapGrid (2 * s.kdim.ka.toNat + 1) (2 * s.kdim.kb.toNat + 1) = taps s from rfl, List.getElem?_eq_getElem hn] at e
    simp only [Option.map_some, Option.some.injEq, Prod.mk.injEq, true_and, Nat.zero_add] at e
    exact e.symm
  obtain ⟨n, hn, e⟩ := List.getElem_of_mem (mem_taps (t := (i, j)).mpr h)
  refine ⟨(taps s).take n, (taps s).drop (n + 1), ?_, fun t ht => ?_⟩
  · rw [← e, List.getElem_cons_drop, List.take_append_drop]
  · obtain ⟨k, hk, rfl⟩ := List.getElem_of_mem ht
    rw [List.length_take] at hk
    rw [List.getElem_take]
    have hm := mem_taps.mp (List.getElem_mem (l := taps s) (n := k) (by omega))
    refine ⟨hm, ?_⟩
    have h1 := num k (by omega)
    have h2 := num n hn
    rw [e] at h2
    have hkn : k < n := by omega
    have hi := h.2
    have ht := hm.2
    generalize (taps s)[k] = u at *
    generalize 2 * s.kdim.ka.toNat + 1 = c at *
    dsimp only at h2
    rcases Nat.lt_trichotomy u.2 j with h3 | h3 | h3
    · exact .inl h3
    · right; refine ⟨h3, ?_⟩; rw [h3] at h1; omega
    · exfalso
      have : (j + 1) * c ≤ u.2 * c := Nat.mul_le_mul_right _ h3
      rw [Nat.succ_mul] at this
      omega

/-- A fold over the grid is the rules' two loops. -/
theorem foldl_tapGrid {α : Type} (f : α → Nat × Nat → α) (cols rows : Nat) (a : α) :
    (tapGrid cols rows).foldl f a =
      (List.range rows).foldl (fun a j => (List.range cols).foldl (fun a i => f a (i, j)) a) a := by
  simp only [tapGrid, List.foldl_flatMap, List.foldl_map]

/-! ### The sum and the output word -/

theorem kwWord_eq (m : Vector Word 225) (n : Nat) : kwWord m n = m.toList.getD n 0 := by
  unfold kwWord
  split
  · rename_i h; simp [List.getD_eq_getElem?_getD, h]
  · rename_i h
    rw [List.getD_eq_getElem?_getD, List.getElem?_eq_none (by simpa using h)]; rfl

theorem fromColor_get (v : Word) (c : Channel) :
    (fromColor (colorOfWord v)).get c = F32.fdiv (F32.ofNat (channelByte c v).toNat) 0x437F0000 := by
  have key (f : Byte → Word) : Pixel.get ⟨f (colorOfWord v).r, f (colorOfWord v).g, f (colorOfWord v).b, f (colorOfWord v).a⟩ c =
      f (channelByte c v) := by cases c <;> rfl
  exact (key fromColorCh).trans (by rw [fromColorCh, F32.twoFiftyFive])

theorem pAddPix_get (p q : Pixel) (c : Channel) : (pAddPix p q).get c = F32.fadd (p.get c) (q.get c) := by cases c <;> rfl

theorem pScalePix_get (p : Pixel) (w : Word) (c : Channel) : (pScalePix p w).get c = F32.fmul (p.get c) w := by cases c <;> rfl

/-- A convolution none of whose reads is refused has a result, and its channels are those the rules write out. -/
theorem convSeen_ok {m : Nat → Memory} {s : State} {pol : Policy} {x y : Int}
    (h : ∀ j i, s.isTap j i → refusesRead s (s.tapAddr pol x y j i) = false) :
    ∃ p, convSeen m s pol x y = .ok p ∧ ∀ c, p.get c =
      s.convChannel (fun j i => readWord (m (j * (2 * s.kdim.ka.toNat + 1) + i)) (s.tapAddr pol x y j i)) c := by
  have hr : ∀ t ∈ taps s, refusesRead s (sampleAddr s pol (x + tapDx s t) (y + tapDy s t)) = false :=
    fun t ht => h t.2 t.1 (mem_taps.mp ht)
  refine ⟨_, by unfold convSeen; rw [accumulate_ok 0 Pixel.zero hr], fun c => ?_⟩
  have fold (ts : List ((Nat × Nat) × Nat)) (acc : Pixel) :
      (ts.foldl (fun acc t => pAddPix acc (pScalePix
        (fromColor (colorOfWord (readWord (m t.2) (sampleAddr s pol (x + tapDx s t.1) (y + tapDy s t.1)))))
        (tapWeight s t.1))) acc).get c =
      ts.foldl (fun acc t => F32.fadd acc (F32.fmul
        (F32.fdiv (F32.ofNat (channelByte c (readWord (m t.2) (s.tapAddr pol x y t.1.2 t.1.1))).toNat) 0x437F0000)
        (tapWeight s t.1))) (acc.get c) := by
    induction ts generalizing acc with
    | nil => rfl
    | cons t ts ih =>
      rw [List.foldl_cons, List.foldl_cons, ih, pAddPix_get, pScalePix_get, fromColor_get, sampleAddr_tap]
  have sum := fold (taps s).zipIdx Pixel.zero
  unfold taps at sum
  rw [tapGrid_zipIdx, List.foldl_map, List.foldl_map, foldl_tapGrid, foldl_tapGrid] at sum
  have hz : Pixel.zero.get c = 0 := by cases c <;> rfl
  unfold taps
  rw [tapGrid_zipIdx, List.foldl_map, foldl_tapGrid]
  unfold normalize State.convChannel
  simp only [tapWeight, kwWord_eq, hz] at sum ⊢
  split
  · rw [pScalePix_get, sum]
  · exact sum

/-- The word of a point whose convolution has a result is its correct output value (43_engine R263). -/
theorem correctWord_of_conv {s : State} {pol : Policy} {n : Nat} {p : Pixel}
    (h : conv s pol (pointX s n) (pointY s n) = .ok p) : colorWord (toColor p) = s.correctWord pol n := by
  obtain ⟨q, hq, hc⟩ := convSeen_ok (m := fun _ => s.mem) (s := s) (pol := pol) (x := (pointX s n : Nat)) (y := (pointY s n : Nat))
    fun j i hji => convSeen_reads h (i, j) (mem_taps.mpr hji)
  obtain rfl : q = p := Bus.ok.inj (hq.symm.trans h)
  have hr := hc .r; have hg := hc .g; have hb := hc .b; have ha := hc .a
  simp only [Pixel.get] at hr hg hb ha
  simp only [colorWord, toColor, hr, hg, hb, ha]
  rfl

/-! ### Races -/

/-- An address is that of an output word exactly when some point of the raster is written there. -/
theorem isOutput_iff {s : State} {a : Word} : isOutput s a = true ↔ ∃ n, n < imgW s * imgH s ∧ pointAddr s n = a := by
  have hw : imgW s < 65536 := s.imgDim.width.isLt
  have e (x y : Nat) : dstAddr s x y = dstAddr s 0 y + BitVec.ofNat 32 (4 * x) := by
    simp only [dstAddr, pixelAddr]
    rw [show BitVec.ofNat 32 (4 * x) = 4 * BitVec.ofNat 32 x by rw [BitVec.ofNat_mul]; rfl]
    simp
  unfold isOutput
  rw [List.any_eq_true]
  simp only [List.mem_range, Bool.and_eq_true, decide_eq_true_eq]
  constructor
  · rintro ⟨y, hy, h1, h2⟩
    have hx : (a - dstAddr s 0 y).toNat / 4 < imgW s := by omega
    refine ⟨y * imgW s + (a - dstAddr s 0 y).toNat / 4, ?_, ?_⟩
    · calc _ < y * imgW s + imgW s := by omega
        _ = (y + 1) * imgW s := by rw [Nat.succ_mul]
        _ ≤ imgH s * imgW s := Nat.mul_le_mul_right _ hy
        _ = imgW s * imgH s := Nat.mul_comm _ _
    · unfold pointAddr pointX pointY
      rw [Nat.mul_comm y, Nat.mul_add_mod, Nat.mod_eq_of_lt hx, Nat.mul_add_div (by omega), Nat.div_eq_of_lt hx, Nat.add_zero, e,
        Nat.mul_div_cancel' (Nat.dvd_of_mod_eq_zero h2), BitVec.ofNat_toNat, BitVec.setWidth_eq, BitVec.add_comm,
        BitVec.sub_add_cancel]
  · rintro ⟨n, hn, rfl⟩
    have hpos : 0 < imgW s := by
      rcases Nat.eq_zero_or_pos (imgW s) with h | h
      · rw [h, Nat.zero_mul] at hn; omega
      · exact h
    have hx : n % imgW s < imgW s := Nat.mod_lt _ hpos
    have hoff : (pointAddr s n - dstAddr s 0 (n / imgW s)).toNat = 4 * (n % imgW s) := by
      unfold pointAddr pointX pointY
      rw [e, BitVec.add_comm, BitVec.add_sub_cancel, BitVec.toNat_ofNat]
      exact Nat.mod_eq_of_lt (by omega)
    exact ⟨n / imgW s, Nat.div_lt_of_lt_mul hn, by rw [hoff]; omega, by rw [hoff]; omega⟩

/-- The machine's race is the rules' (20_memory R108; 70_reset R345). -/
theorem raced_iff {s : State} {a : Word} : raced s a = true ↔ s.races a := by
  unfold raced State.races overwritten
  rw [Bool.or_eq_true, isOutput_iff, List.any_eq_true]
  simp only [beq_iff_eq]

/-- The word an output point gets is its correct output value, or one of its taps races (43_engine R263; 70_reset R345). -/
theorem outputWord_cases {s : State} {pol : Policy} {n : Nat} {p : Pixel}
    (h : conv s pol (pointX s n) (pointY s n) = .ok p) :
    outputWord s pol n p = s.correctWord pol n ∨ ∃ a ∈ tapAddrs s pol n, s.races a := by
  unfold outputWord
  split
  · rename_i hr
    obtain ⟨a, ha, h⟩ := List.any_eq_true.mp hr
    exact .inr ⟨a, ha, raced_iff.mp h⟩
  · exact .inl (correctWord_of_conv h)

end Sys2Proof.Machine
end

