-- ==== Sys2Proof/Laws/Environment.lean ====
section
/-! SUPPORT. What another master's writes can change, one and many of them. -/

namespace Sys2Proof.Machine

theorem settleWords_frame (n : Memory) (as : List Word) (s : State) :
    as.foldl (settleWord n) s = { s with mem := (as.foldl (settleWord n) s).mem, overs := (as.foldl (settleWord n) s).overs } := by
  induction as generalizing s with
  | nil => rfl
  | cons a as ih => rw [List.foldl_cons, ih (settleWord n s a)]; rfl

/-- Another master's write changes memory, the record of overwritten words, and draws free values. -/
theorem otherWrite_frame (a : Word) (bs : List Byte) (s : State) :
    otherWrite a bs s = { s with
      mem := (otherWrite a bs s).mem, overs := (otherWrite a bs s).overs, free := (otherWrite a bs s).free } := by
  unfold otherWrite
  split
  · rw [settleWords_frame]; rfl
  · rfl

/-- With no pass running the bytes land, and nothing is recorded (20_memory R101). -/
theorem otherWrite_idle (a : Word) (bs : List Byte) {s : State} (h : s.status.busy = false) :
    otherWrite a bs s = { s with mem := writeBytes s.mem a bs } := by
  unfold otherWrite; rw [if_neg (by rw [h]; decide)]

/-- Another master's write keeps memory canonical. -/
theorem wf_otherWrite (a : Word) (bs : List Byte) {s : State} (h : Memory.wf s.mem = true) :
    Memory.wf (otherWrite a bs s).mem = true := by
  have words (n : Memory) (as : List Word) (u : State) (hu : Memory.wf u.mem = true) :
      Memory.wf (as.foldl (settleWord n) u).mem = true := by
    induction as generalizing u with
    | nil => exact hu
    | cons x as ih => exact ih _ (wf_writeWord _ _ hu)
  unfold otherWrite
  split
  · exact words _ _ _ h
  · exact wf_writeBytes _ _ h

theorem landAll_frame (ws : List MemWrite) (s : State) :
    landAll ws s = { s with mem := (landAll ws s).mem, overs := (landAll ws s).overs, free := (landAll ws s).free } := by
  induction ws generalizing s with
  | nil => rfl
  | cons w ws ih =>
    have e : landAll (w :: ws) s = landAll ws (otherWrite w.addr w.bytes s) := rfl
    rw [e, ih]
    generalize landAll ws (otherWrite w.addr w.bytes s) = t
    rw [otherWrite_frame]

theorem wf_landAll (ws : List MemWrite) {s : State} (h : Memory.wf s.mem = true) : Memory.wf (landAll ws s).mem = true := by
  induction ws generalizing s with
  | nil => exact h
  | cons w ws ih => exact ih (wf_otherWrite _ _ h)

end Sys2Proof.Machine
end

