-- ==== Sys2Proof/Laws/PerInstr.lean ====
section
/-! SUPPORT. The family of statements about every instruction as syntax: the word an assembler writes for it is a legal
command word with its own OP, and 0 in every field it does not read (30_encoding R123, R124, R125, R131). -/

namespace Sys2Proof.Laws.Encoding

/-- The instruction's word is legal, holds its OP, and has no bit outside the bits that select it. -/
def Statement (i : Instr) : Prop :=
  (CmdFields.ofWord (encode i)).wellFormed = true ∧ (CmdFields.ofWord (encode i)).op = i.opcode ∧
  encode i &&& i.mask = encode i

theorem nop : Statement .nop := by unfold Statement; decide

theorem kcommit : Statement .kcommit := by unfold Statement; decide

theorem start : Statement .start := by unfold Statement; decide

theorem abort : Statement .abort := by unfold Statement; decide

theorem map : Statement .map := by unfold Statement; decide

theorem sample (d : PReg) : Statement (.sample d) := by unfold Statement; decide +revert

theorem conv1 (d : PReg) : Statement (.conv1 d) := by unfold Statement; decide +revert

theorem padd (d s1 s2 : PReg) : Statement (.padd d s1 s2) := by unfold Statement; decide +revert +kernel

theorem pscale (d s1 : PReg) : Statement (.pscale d s1) := by unfold Statement; decide +revert

theorem pdiv (d s1 : PReg) : Statement (.pdiv d s1) := by unfold Statement; decide +revert

theorem tocolor (s1 : PReg) : Statement (.tocolor s1) := by unfold Statement; decide +revert

theorem fromcolor (d : PReg) : Statement (.fromcolor d) := by unfold Statement; decide +revert

end Sys2Proof.Laws.Encoding
end

