-- ==== Sys2Proof/Laws/Regs.lean ====
section
/-! SUPPORT. What a register write can change, and what it leaves. -/

namespace Sys2Proof.Machine

/-- A configuration write does nothing but set WIGN, or what it would do with no pass running. -/
theorem configWrite_busy {s : State} (t : State) (h : s.status.busy = true) :
    configWrite s t = { s with status := s.status.ignored } := if_pos h

theorem configWrite_idle {s : State} (t : State) (h : s.status.busy = false) : configWrite s t = t := by
  unfold configWrite; rw [if_neg (by rw [h]; decide)]

/-- A register write changes no memory, no pass state, no result register and nothing outside the block. -/
theorem regWrite_frame (r : Reg) (v : Word) (s : State) :
    regWrite r v s = { regWrite r v s with
      wsum := s.wsum, nfactor := s.nfactor, mapres := s.mapres, pcount := s.pcount, faultAddr := s.faultAddr
      pending := s.pending, stop := s.stop, overs := s.overs, inReset := s.inReset, during := s.during, mem := s.mem, busMap := s.busMap
      agenda := s.agenda, resp := s.resp, free := s.free } := by
  cases r <;> simp only [regWrite, configWrite, writeCtrl, writeKdim, writeKwmem, clearStatus, setPreg] <;>
    first | rfl | (split <;> rfl)

/-- A register write sets neither BUSY nor PRES, and DONE and CERR not either. -/
theorem regWrite_status (r : Reg) (v : Word) (s : State) :
    (regWrite r v s).status.busy = s.status.busy ∧ (regWrite r v s).status.pres = s.status.pres ∧
    ((regWrite r v s).status.done = true → s.status.done = true) ∧
    ((regWrite r v s).status.cerr = true → s.status.cerr = true) := by
  have cfg (t : State) (h : t.status = s.status ∨ t.status = s.status.withKvalid false) :
      (configWrite s t).status.busy = s.status.busy ∧ (configWrite s t).status.pres = s.status.pres ∧
      ((configWrite s t).status.done = true → s.status.done = true) ∧
      ((configWrite s t).status.cerr = true → s.status.cerr = true) := by
    unfold configWrite
    split
    · exact ⟨rfl, rfl, id, id⟩
    · rcases h with h | h <;> rw [h] <;> exact ⟨rfl, rfl, id, id⟩
  cases r with
  | ctrl =>
    simp only [regWrite, writeCtrl]
    split
    · dsimp only; split <;> exact ⟨rfl, rfl, id, id⟩
    · dsimp only; split <;> exact ⟨rfl, rfl, id, id⟩
  | status => exact ⟨rfl, rfl, fun h => (Bool.and_eq_true_iff.mp h).1, fun h => (Bool.and_eq_true_iff.mp h).1⟩
  | imgDim | srcBase | srcStride | dstBase | dstStride => exact cfg _ (.inl rfl)
  | kdim | kwmem _ => exact cfg _ (.inr rfl)
  | coord | scalar | color | preg _ _ => exact ⟨rfl, rfl, id, id⟩
  | id | cmd | wsum | nfactor | mapres | pcount | faultAddr | reserved => exact ⟨rfl, rfl, id, id⟩

/-- While a pass runs a register write changes nothing a pass reads (10_state R34, R57). -/
theorem regWrite_frozen (r : Reg) (v : Word) {s : State} (h : s.status.busy = true) :
    regWrite r v s = { s with
      ctrl := { s.ctrl with ieDone := (regWrite r v s).ctrl.ieDone, ieCerr := (regWrite r v s).ctrl.ieCerr }
      status := (regWrite r v s).status, coord := (regWrite r v s).coord, scalar := (regWrite r v s).scalar
      color := (regWrite r v s).color, pregs := (regWrite r v s).pregs } ∧
    (regWrite r v s).status.kvalid = s.status.kvalid := by
  cases r with
  | ctrl => simp only [regWrite, writeCtrl, h, if_true]; refine ⟨rfl, ?_⟩; split <;> rfl
  | imgDim | srcBase | srcStride | dstBase | dstStride => simp only [regWrite, configWrite_busy _ h]; exact ⟨trivial, rfl⟩
  | kdim => simp only [regWrite, writeKdim, configWrite_busy _ h]; exact ⟨trivial, rfl⟩
  | kwmem i => simp only [regWrite, writeKwmem, configWrite_busy _ h]; exact ⟨trivial, rfl⟩
  | status | coord | scalar | color | preg _ _ => exact ⟨rfl, rfl⟩
  | id | cmd | wsum | nfactor | mapres | pcount | faultAddr | reserved => exact ⟨rfl, rfl⟩

end Sys2Proof.Machine
end

