-- ==== Sys2Proof/Laws/Step.lean ====
section
/-! SUPPORT. One step by the event at the head of the agenda, runs of several steps, and the register writes and commands in
the form a case analysis uses. -/

namespace Sys2Proof.Machine

theorem step_nil {s : State} (h : s.agenda = []) : step s = .next (engineTurn (Config.passOrder s.free) s) := by
  unfold step; rw [h]

theorem step_engine {s : State} {pick : Nat} {rest : List Event} (h : s.agenda = .engine pick :: rest) :
    step s = .next (engineTurn pick { s with agenda := rest }) := by unfold step; rw [h]

theorem step_access {s : State} {t : Access} {rest : List Event} (h : s.agenda = .access t :: rest) :
    step s = portAccess t { s with agenda := rest } := by unfold step; rw [h]

theorem step_accessDuring {s : State} {t : Access} {ws : List MemWrite} {rest : List Event}
    (h : s.agenda = .accessDuring t ws :: rest) : step s = accessDuring t ws { s with agenda := rest } := by
  unfold step; rw [h]

/-- Everything a transaction during which other masters' writes land can do: while a pass runs, the writes and then the
transaction; else the transaction and then the writes. -/
theorem accessDuring_cases {t : Access} {ws : List MemWrite} {s u : State} (h : accessDuring t ws s = .next u) :
    (s.status.busy = true ∧ portAccess t (landAll ws s) = .next u) ∨
    (s.status.busy = false ∧ ∃ v, portAccess t { s with during := ws } = .next v ∧
      u = { v with during := [], mem := landWrites v.mem ws }.tick) := by
  unfold accessDuring at h
  split at h
  · rename_i hb; exact .inl ⟨hb, h⟩
  · rename_i hb
    split at h
    · rename_i v hv
      cases h
      exact .inr ⟨by simpa using hb, v, hv, rfl⟩
    · rename_i hn
      exact (hn u h).elim

theorem step_resetOn {s : State} {rest : List Event} (h : s.agenda = .resetOn :: rest) :
    step s = .next (assertReset { s with agenda := rest }) := by unfold step; rw [h]

theorem step_memWrite {s : State} {a : Word} {bs : List Byte} {rest : List Event} (h : s.agenda = .memWrite a bs :: rest) :
    step s = .next (otherWrite a bs { s with agenda := rest }) := by unfold step; rw [h]

theorem step_memRead {s : State} {a : Word} {rest : List Event} (h : s.agenda = .memRead a :: rest) :
    step s = .next (otherRead a { s with agenda := rest }) := by unfold step; rw [h]

/-- A run of one step more. -/
theorem run_succ (M : Host.Core) {k : Nat} {s t : M.State} (h : M.step s = .next t) : M.run (k + 1) s = M.run k t := by
  simp only [Host.Core.run, h]

/-- What every kind of step keeps, every step keeps: what is to show of each. -/
theorem step_induct {P : State → Prop} {s t : State} (h : step s = .next t)
    (turn : ∀ pick ag, P (engineTurn pick { s with agenda := ag }))
    (port : ∀ a ag u, portAccess a { s with agenda := ag } = .next u → P u)
    (raced : ∀ a ws ag u, s.status.busy = true → portAccess a (landAll ws { s with agenda := ag }) = .next u → P u)
    (amid : ∀ a ws ag u, s.status.busy = false → portAccess a { s with agenda := ag, during := ws } = .next u →
      P { u with during := [], mem := landWrites u.mem ws }.tick)
    (poll : ∀ o m v ag, P (pollTurn o m v ag s)) (wait : ∀ ag, P (irqTurn ag s))
    (resetOn : ∀ ag, s.agenda = .resetOn :: ag → P (assertReset { s with agenda := ag }))
    (resetOff : ∀ ag, P (releaseReset { s with agenda := ag })) (write : ∀ a bs ag, P (otherWrite a bs { s with agenda := ag }))
    (read : ∀ a ag, P (otherRead a { s with agenda := ag })) (map : ∀ m ag, P { s with busMap := m, agenda := ag }) : P t := by
  unfold step at h
  split at h
  · rename_i ha
    cases h
    simpa only [← ha] using turn (Config.passOrder s.free) s.agenda
  · exact port _ _ _ h
  · rcases accessDuring_cases h with ⟨hb, h⟩ | ⟨hb, v, hv, rfl⟩
    · exact raced _ _ _ _ hb h
    · exact amid _ _ _ v hb hv
  all_goals cases h
  · exact poll _ _ _ _
  · exact wait _
  · exact turn _ _
  · rename_i ha; exact resetOn _ ha
  · exact resetOff _
  · exact write _ _ _
  · exact read _ _
  · exact map _ _

/-- Everything an accepted or refused transaction can do. -/
theorem portAccess_cases {a : Access} {s t : State} (h : portAccess a s = .next t) :
    (∃ r, t = { s with resp := r }) ∨ (s.inReset = false ∧ ∃ r, t = regWrite r a.data { s with resp := .ok }) ∨
    (s.inReset = false ∧ t = reject .illegalCmd { s with resp := .ok }) ∨
    (s.inReset = false ∧ ∃ i, decode a.data = .ok i ∧ exec i { s with resp := .ok } = .next t) := by
  unfold portAccess at h
  split at h
  · cases h; exact .inl ⟨_, rfl⟩
  · rename_i hr
    have hr : s.inReset = false := by simpa using hr
    split at h
    · cases h; exact .inl ⟨_, rfl⟩
    · split at h
      · unfold portWrite at h
        split at h
        · unfold command at h
          split at h
          · rename_i i hi; exact .inr (.inr (.inr ⟨hr, i, hi, h⟩))
          · cases h; exact .inr (.inr (.inl ⟨hr, rfl⟩))
        · cases h; exact .inr (.inl ⟨hr, _, rfl⟩)
      · cases h; exact .inl ⟨_, rfl⟩

/-- Everything a command can do to a state, one case per kind of effect. -/
theorem exec_cases {i : Instr} {s t : State} (h : exec i s = .next t) :
    t = s ∨ (∃ c, t = reject c s) ∨ (∃ a, t = rejectBusErr a s ∧ refusesRead s a = true ∧ ((∃ d, i = .sample d) ∨ ∃ d, i = .conv1 d)) ∨
    (i = .kcommit ∧ s.status.busy = false ∧ kdimEven s.kdim = false ∧ kdimRange s.kdim = false ∧ t = commitKernel s) ∨
    (i = .start ∧ s.status.busy = false ∧ s.status.kvalid = true ∧ s.ctrl.policy ≠ none ∧ t = startPass s) ∨
    (i = .abort ∧ s.status.busy = true ∧ t = drain (s.stopBy .aborted)) ∨
    (∃ m, t = { s with mapres := m }) ∨ (∃ d p, t = setPreg s d p) ∨ (∃ c, t = { s with color := c }) := by
  cases i with
  | nop => cases h; exact .inl rfl
  | kcommit =>
    rcases rejectIf_next h with ⟨-, e⟩ | ⟨h1, h⟩
    · exact .inr (.inl ⟨_, e⟩)
    rcases rejectIf_next h with ⟨-, e⟩ | ⟨h2, h⟩
    · exact .inr (.inl ⟨_, e⟩)
    rcases rejectIf_next h with ⟨-, e⟩ | ⟨h3, h⟩
    · exact .inr (.inl ⟨_, e⟩)
    cases h
    exact .inr (.inr (.inr (.inl ⟨rfl, h1, h2, h3, rfl⟩)))
  | start =>
    rcases rejectIf_next h with ⟨-, e⟩ | ⟨h1, h⟩
    · exact .inr (.inl ⟨_, e⟩)
    rcases rejectIf_next h with ⟨-, e⟩ | ⟨h2, h⟩
    · exact .inr (.inl ⟨_, e⟩)
    rcases withPolicy_next h with ⟨-, e⟩ | ⟨pol, hp, h⟩
    · exact .inr (.inl ⟨_, e⟩)
    cases h
    exact .inr (.inr (.inr (.inr (.inl ⟨rfl, h1, by simpa using h2, by rw [hp]; exact Option.some_ne_none _, rfl⟩))))
  | abort =>
    simp only [exec, execAbort] at h
    split at h
    · rename_i hb; cases h; exact .inr (.inr (.inr (.inr (.inr (.inl ⟨rfl, hb, rfl⟩)))))
    · cases h; exact .inl rfl
  | map =>
    rcases withPolicy_next h with ⟨-, e⟩ | ⟨pol, -, h⟩
    · exact .inr (.inl ⟨_, e⟩)
    rcases rejectIf_next h with ⟨-, e⟩ | ⟨-, h⟩
    · exact .inr (.inl ⟨_, e⟩)
    cases h
    exact .inr (.inr (.inr (.inr (.inr (.inr (.inl ⟨_, rfl⟩))))))
  | sample d =>
    rcases rejectIf_next h with ⟨-, e⟩ | ⟨-, h⟩
    · exact .inr (.inl ⟨_, e⟩)
    rcases withPolicy_next h with ⟨-, e⟩ | ⟨pol, -, h⟩
    · exact .inr (.inl ⟨_, e⟩)
    rcases rejectIf_next h with ⟨-, e⟩ | ⟨-, h⟩
    · exact .inr (.inl ⟨_, e⟩)
    cases h
    unfold storePixel
    cases hr : refusesRead s (sampleAddr s pol (coordX s) (coordY s)) with
    | true => rw [sample_busErr (s := { s with mem := seenMem s 0 }) hr]; exact .inr (.inr (.inl ⟨_, rfl, hr, .inl ⟨d, rfl⟩⟩))
    | false => rw [sample_ok (s := { s with mem := seenMem s 0 }) hr]; exact .inr (.inr (.inr (.inr (.inr (.inr (.inr (.inl ⟨d, _, rfl⟩)))))))
  | conv1 d =>
    rcases rejectIf_next h with ⟨-, e⟩ | ⟨-, h⟩
    · exact .inr (.inl ⟨_, e⟩)
    rcases rejectIf_next h with ⟨-, e⟩ | ⟨-, h⟩
    · exact .inr (.inl ⟨_, e⟩)
    rcases withPolicy_next h with ⟨-, e⟩ | ⟨pol, -, h⟩
    · exact .inr (.inl ⟨_, e⟩)
    rcases rejectIf_next h with ⟨-, e⟩ | ⟨-, h⟩
    · exact .inr (.inl ⟨_, e⟩)
    cases h
    unfold storePixel
    split
    · rename_i a ha
      refine .inr (.inr (.inl ⟨a, rfl, ?_, .inr ⟨d, rfl⟩⟩))
      obtain ⟨u, -, -, hr⟩ := convSeen_busErr ha
      exact hr
    · exact .inr (.inr (.inr (.inr (.inr (.inr (.inr (.inl ⟨d, _, rfl⟩)))))))
  | padd d s1 s2 => cases h; exact .inr (.inr (.inr (.inr (.inr (.inr (.inr (.inl ⟨d, _, rfl⟩)))))))
  | pscale d s1 => cases h; exact .inr (.inr (.inr (.inr (.inr (.inr (.inr (.inl ⟨d, _, rfl⟩)))))))
  | pdiv d s1 => cases h; exact .inr (.inr (.inr (.inr (.inr (.inr (.inr (.inl ⟨d, _, rfl⟩)))))))
  | tocolor s1 => cases h; exact .inr (.inr (.inr (.inr (.inr (.inr (.inr (.inr ⟨_, rfl⟩)))))))
  | fromcolor d => cases h; exact .inr (.inr (.inr (.inr (.inr (.inr (.inr (.inl ⟨d, _, rfl⟩)))))))

end Sys2Proof.Machine
end

