-- ==== Sys2Proof/Tests/Slice0.lean ====
section
/-! SUPPORT. Tests: expected values are the spec's own examples (the rule is named at each), never the model's answers. After
them, for every statement of Certificates/Slice0 that has hypotheses, a witness that meets all of them. -/

namespace Sys2Proof.Tests

/- One theorem after the other: each kernel evaluation that waits for an earlier one would hold a thread. -/
set_option Elab.async false

open Sys2Proof.Machine

/-- The state an outcome holds. -/
def stateOf : Result → State
  | .next s => s
  | _ => State.reset

/-- The legal instruction a word decodes to. -/
def decoded (w : Word) : Option Instr :=
  match decode w with
  | .ok i => some i
  | .error _ => none

/-! ### Well-formed command words: an ill-formed term for each check -/

theorem test_wellFormed_accepts : (⟨0x10, 2, 1, 0, 0⟩ : CmdFields).wellFormed = true := by decide

theorem test_rsv_refused : (⟨0x10, 2, 1, 0, 1⟩ : CmdFields).rsvZero = false ∧ (⟨0x10, 2, 1, 0, 1⟩ : CmdFields).wellFormed = false := by
  decide

theorem test_opcode_refused : (⟨0x07, 0, 0, 0, 0⟩ : CmdFields).opAssigned = false ∧ (⟨0x07, 0, 0, 0, 0⟩ : CmdFields).wellFormed = false := by
  decide

theorem test_registers_exist : (Instr.padd 3 3 3).wellFormed = true := by decide

/-! ### Decoding: words written out from the fields of 30_encoding R121, R123 (OP, D << 8, S1 << 10, S2 << 12) -/

/-- Unread fields set: still a NOP (43_engine R269). -/
theorem test_decode_nop : decoded 0x00000000 = some .nop ∧ decoded 0x00003F00 = some .nop := by decide

theorem test_decode_kcommit : decoded 0x00000001 = some .kcommit := by decide

theorem test_decode_start : decoded 0x00000002 = some .start := by decide

theorem test_decode_abort : decoded 0x00000003 = some .abort := by decide

theorem test_decode_map : decoded 0x00000004 = some .map := by decide

/-- D = 1 (41_boundary R202). -/
theorem test_decode_sample : decoded 0x00000105 = some (.sample 1) := by decide

/-- D = 2 (42_kernel R235). -/
theorem test_decode_conv1 : decoded 0x00000206 = some (.conv1 2) := by decide

/-- D = 2, S1 = 1, S2 = 0 (30_encoding R131). D = 0, S1 = 0, S2 = 3: `3 << 12` is `0x3000`. -/
theorem test_decode_padd : decoded 0x00000610 = some (.padd 2 1 0) ∧ decoded 0x00003010 = some (.padd 0 0 3) := by decide

/-- D = 1, S1 = 0 (40_pixel_alu R163), S2 ignored. -/
theorem test_decode_pscale : decoded 0x00000111 = some (.pscale 1 0) ∧ decoded 0x00003111 = some (.pscale 1 0) := by decide

/-- D = 3, S1 = 3 (40_pixel_alu R164). -/
theorem test_decode_pdiv : decoded 0x00000F12 = some (.pdiv 3 3) := by decide

/-- S1 = 2, D ignored (40_pixel_alu R165). -/
theorem test_decode_tocolor : decoded 0x00000813 = some (.tocolor 2) ∧ decoded 0x00000B13 = some (.tocolor 2) := by decide

/-- D = 0 (40_pixel_alu R166). -/
theorem test_decode_fromcolor : decoded 0x00000014 = some (.fromcolor 0) := by decide

/-- The gaps of the opcode map and the reserved bits (30_encoding R123, R125). -/
theorem test_decode_refuses :
    decoded 0x00000007 = none ∧ decoded 0x0000000F = none ∧ decoded 0x00000015 = none ∧ decoded 0x000000FF = none ∧
    decoded 0x00004000 = none ∧ decoded 0x80000010 = none := by decide

/-- The bytes of `PADD p2, p1, p0`, the least significant first (20_memory R92). -/
theorem test_decodeBytes : (decodeBytes [0x10, 0x06, 0x00, 0x00, 0xAA]).toOption = some (.padd 2 1 0, [0xAA]) := by decide

theorem test_decodeBytes_short : (decodeBytes [0x10, 0x06, 0x00]).toOption = none := by decide

theorem test_encode : encode (.padd 2 1 0) = 0x00000610 ∧ encode (.tocolor 2) = 0x00000813 := by decide

theorem test_asm : (Instr.padd 2 1 0).asm = "PADD p2, p1, p0" := by decide

/-! ### The pixel arithmetic (examples of 40_pixel_alu R162 to R166) -/

/-- P1 and P0 of R162's example. -/
def addends : State :=
  setPreg (setPreg State.reset 1 ⟨0x3F000000, 0x3E800000, 0x7F7FFFFF, 0x7F800000⟩) 0 ⟨0x3F400000, 0xBE800000, 0x7F7FFFFF, 0xFF800000⟩

theorem test_padd : preg (stateOf (exec (.padd 2 1 0) addends)) 2 = ⟨0x3FA00000, 0x00000000, 0x7F800000, 0x7FC00000⟩ := by
  decide +kernel

/-- The destination is a source too: the old value is read (10_state R51). -/
theorem test_padd_alias : (preg (stateOf (exec (.padd 1 1 0) addends)) 1).r = 0x3FA00000 := by decide +kernel

/-- R163's example. -/
theorem test_pscale :
    preg (stateOf (exec (.pscale 1 0) { setPreg State.reset 0 ⟨0x3F000000, 1, 0, 0x3F800000⟩ with scalar := 0x40000000 })) 1 =
      ⟨0x3F800000, 0x00000002, 0x00000000, 0x40000000⟩ := by decide +kernel

/-- Subnormal ties (R163, corner cases): `1 * 0.5` gives 0, `3 * 0.5` gives 2. -/
theorem test_pscale_ties : F32.fmul 0x00000001 0x3F000000 = 0 ∧ F32.fmul 0x00000003 0x3F000000 = 2 := by decide +kernel

/-- R164's example, by zero. -/
theorem test_pdiv :
    preg (stateOf (exec (.pdiv 3 3) (setPreg State.reset 3 ⟨0x3F800000, 0xBF800000, 0, 0x3F800000⟩))) 3 =
      ⟨0x7F800000, 0xFF800000, 0x7FC00000, 0x7F800000⟩ := by decide +kernel

/-- R164: `1.0 / 3.0`, and a subnormal quotient kept. -/
theorem test_pdiv_rounds : F32.fdiv 0x3F800000 0x40400000 = 0x3EAAAAAB ∧ F32.fdiv 0x00800000 0x40000000 = 0x00400000 := by
  decide +kernel

/-- R165's example. -/
theorem test_tocolor :
    (stateOf (exec (.tocolor 2) (setPreg State.reset 2 ⟨0x3F800000, 0x3F000000, 0xBDCCCCCD, 0x7FC00000⟩))).color = 0x00007FFF := by
  decide +kernel

/-- R160: the largest value below 1.0 gives 254. R165: just below 1/255 gives 0. -/
theorem test_tocolor_truncates : toColorCh 0x3F7FFFFF = 254 ∧ toColorCh 0x3B808080 = 0 ∧ toColorCh 0x3B808081 = 1 := by
  decide +kernel

/-- R166's example. -/
theorem test_fromcolor :
    preg (stateOf (exec (.fromcolor 0) { State.reset with color := 0xFF800100 })) 0 = ⟨0, 0x3B808081, 0x3F008081, 0x3F800000⟩ := by
  decide +kernel

/-! ### The boundary map and the sampler -/

/-- R201's example: the reference Wrap wraps the in-range coordinate too. -/
theorem test_map :
    (stateOf (exec .map { State.reset with imgDim := ⟨4, 4⟩, ctrl := ⟨1, false, false, false, false⟩, coord := ⟨4, 3⟩ })).mapres =
      ⟨1, 0⟩ := by decide

/-- R303: the reserved policy is reported before the zero dimension. -/
theorem test_map_rejected :
    (stateOf (exec .map { State.reset with ctrl := ⟨3, false, false, false, false⟩ })).status.cecode = 6 ∧
    (stateOf (exec .map State.reset)).status.cecode = 7 := by decide

/-- R202's example: memory word `0x40302010` at 0x1000, COORD (-1, -1). -/
def onePixel : State :=
  { State.reset with
    imgDim := ⟨1, 1⟩, srcBase := 0x1000, srcStride := 4, dstBase := 0x2000, dstStride := 4
    mem := [(0x1000, 0x10), (0x1001, 0x20), (0x1002, 0x30), (0x1003, 0x40)] }

theorem test_sample :
    preg (stateOf (exec (.sample 1) { onePixel with coord := ⟨0xFFFF, 0xFFFF⟩ })) 1 =
      ⟨0x3D808081, 0x3E008081, 0x3E40C0C1, 0x3E808081⟩ := by decide +kernel

/-- R304: FAULT_ADDR and code 8, the destination unchanged. -/
theorem test_sample_busErr :
    (stateOf (exec (.sample 1) { onePixel with busMap := [⟨0x1000, 4, true, false⟩] })).faultAddr = 0x1000 ∧
    (stateOf (exec (.sample 1) { onePixel with busMap := [⟨0x1000, 4, true, false⟩] })).status.cecode = 8 := by decide

/-! ### The kernel (examples of 42_kernel R222, R235) -/

/-- KDIM 3 by 3 and nine weights of 1.0. -/
def boxKernel : State := { onePixel with kdim := ⟨3, 3, 0, 0⟩, kwmem := Vector.replicate 225 0x3F800000 }

theorem test_kcommit :
    regRead .kdim (stateOf (exec .kcommit { boxKernel with ctrl := ⟨0, false, true, false, false⟩ })) = 0x01010303 ∧
    (stateOf (exec .kcommit { boxKernel with ctrl := ⟨0, false, true, false, false⟩ })).wsum = 0x41100000 ∧
    (stateOf (exec .kcommit { boxKernel with ctrl := ⟨0, false, true, false, false⟩ })).nfactor = 0x3DE38E39 := by decide +kernel

/-- R222, corner cases: KW = 16 is even, KW = 17 out of range. -/
theorem test_kcommit_rejected :
    (stateOf (exec .kcommit { State.reset with kdim := ⟨16, 3, 0, 0⟩ })).status.cecode = 3 ∧
    (stateOf (exec .kcommit { State.reset with kdim := ⟨17, 3, 0, 0⟩ })).status.cecode = 4 := by decide

theorem test_conv1 :
    preg (stateOf (exec (.conv1 2) (commitKernel boxKernel))) 2 = ⟨0x3F109091, 0x3F909091, 0x3FD8D8D9, 0x40109091⟩ := by
  decide +kernel

theorem test_conv1_normalized :
    preg (stateOf (exec (.conv1 2) (commitKernel { boxKernel with ctrl := ⟨0, false, true, false, false⟩ }))) 2 =
      ⟨0x3D808081, 0x3E008081, 0x3E40C0C1, 0x3E808081⟩ := by decide +kernel

/-! ### The pass -/

/-- NOP changes no register (43_engine R269). -/
theorem test_nop : (stateOf (exec .nop addends)).pregs = addends.pregs := by decide

/-- A 2 by 1 image with a committed 1 by 1 kernel of 1.0, its source at 0x1000 and its output at 0x2000. -/
def ready : State :=
  commitKernel { onePixel with imgDim := ⟨2, 1⟩, srcStride := 8, dstStride := 8, kdim := ⟨1, 1, 0, 0⟩, kwmem := Vector.replicate 225 0x3F800000 }

/-- The same with a pass just started. -/
def running : State := startPass ready

/-- The same with one point left. -/
def almostDone : State := { running with pending := [⟨1, 2⟩], pcount := 1 }

/-- R260's flags, and both points pending. -/
theorem test_start :
    (stateOf (exec .start { ready with status := { ready.status with done := true } })).status =
      ⟨true, false, false, true, false, 0, 0⟩ ∧
    (stateOf (exec .start ready)).pending = [⟨0, 2⟩] := by decide +kernel

/-- The zero-dimension START (R270). -/
theorem test_start_empty :
    (stateOf (exec .start { ready with imgDim := ⟨0, 1⟩, pcount := 9 })).status = ⟨false, true, false, true, false, 0, 0⟩ ∧
    (stateOf (exec .start { ready with imgDim := ⟨0, 1⟩, pcount := 9 })).pcount = 0 := by decide +kernel

/-- R268: PRES = 2, DONE, BUSY clear. The drain is free, so nothing is said of PCOUNT here. -/
theorem test_abort : (stateOf (exec .abort running)).status = ⟨false, true, false, true, false, 0, 2⟩ := by rfl

/-- ABORT with no pass is no error (R268). -/
theorem test_abort_idle : exec .abort ready = .next ready := rfl

/-- One engine step writes the converted source pixel (42_kernel R236 (c), 43_engine R262), and the count goes up. -/
theorem test_engine_step :
    readWord (engineStep 0 running).mem 0x2000 = 0x40302010 ∧ (engineStep 0 running).pcount = 1 ∧
    (engineStep 0 running).status.busy = true := by decide +kernel

/-- A pass onto its own source: every tap of it races, though nothing has been written yet (70_reset R345). In `running` the
source word races only once it has been written (20_memory R108). -/
theorem test_in_place_races :
    raced { running with dstBase := 0x1000 } 0x1000 = true ∧ raced { running with dstBase := 0x1000 } 0x1004 = true ∧
    raced running 0x1000 = false ∧ raced (otherWrite 0x1001 [9] running) 0x1000 = true := by decide +kernel

/-- A write that lands during a command is in memory after it (20_memory R108). -/
theorem test_write_during_command :
    readWord (stateOf (step { onePixel with
      agenda := [.accessDuring ⟨true, 0x00C, 4, 0xF, 0x00000105⟩ [⟨0x1001, [0x55]⟩]] })).mem 0x1000 = 0x40305510 := by rfl

/-- `ready` with another master's write of a source byte landing during the host's START. -/
def startDuring : State :=
  { ready with agenda := [.accessDuring ⟨true, 0x00C, 4, 0xF, 0x00000002⟩ [⟨0x1001, [0x55]⟩]] }

/-- The pass it starts sees that write, and the word does not race (20_memory R105). -/
theorem test_write_during_start :
    raced (stateOf (step startDuring)) 0x1000 = false ∧
    readWord (engineStep 0 (stateOf (step startDuring))).mem 0x2000 = 0x40305510 := by decide +kernel

/-- Another master's write that lands during the host's ABORT races with the pass it drains (70_reset R346; 20_memory R108). -/
theorem test_write_during_abort :
    raced (landAll [⟨0x1001, [0x55]⟩] running) 0x1000 = true ∧ contested (landAll [⟨0x2000, [0x55]⟩] running) 0x2000 = true ∧
    step { running with agenda := [.accessDuring ⟨true, 0x00C, 4, 0xF, 0x00000003⟩ [⟨0x2000, [0x55]⟩]] } =
      exec .abort { landAll [⟨0x2000, [0x55]⟩] running with resp := .ok } := ⟨by decide +kernel, by decide +kernel, rfl⟩

/-- The last point ends the pass (R265). -/
theorem test_engine_end : (engineStep 0 almostDone).status = ⟨false, true, false, true, false, 0, 0⟩ := by decide +kernel

/-! ### The register port -/

/-- A CMD write of `MAP` with a zero dimension is rejected with code 7 (20_memory R93; 60_exceptions R302). -/
theorem test_step_command : (stateOf (step (State.reset.withFetchWord 32 0x00000004))).status.cecode = 7 := by decide

theorem test_decodeTableWord : decodeTableWord 32 0x00000610 = some (.padd 2 1 0) := by decide

/-- The ERROR response (20_memory R91). -/
theorem test_port_error : (stateOf (portAccess ⟨true, 0x030, 4, 0x7, 1⟩ State.reset)).resp = .error := by decide

/-- Bits [1:0] of SRC_BASE are dropped (10_state R40). -/
theorem test_hardwired_bits : regRead .srcBase (regWrite .srcBase 0x00001003 State.reset) = 0x00001000 := by decide

/-- KWMEM word 224 is the last usable one (10_state R52). -/
theorem test_kwmem_edge : regAt 0x480 = .kwmem 224 ∧ regAt 0x484 = .reserved := by decide

/-! ### Witnesses: for each statement, a state and operands that meet all its hypotheses -/

theorem witness_EncodedInstructionsDecodeBack : (Instr.padd 3 2 1).wellFormed = true := by decide

theorem witness_DecodeSelectsByMask :
    decode 0x00003F01 = .ok .kcommit ∧ decode 0x00003010 = .ok (.padd 0 0 3) := ⟨rfl, rfl⟩

theorem witness_IllegalWordsAreRejected :
    (0x00004000 : Word).extractLsb' 14 18 ≠ 0 ∧ (0x80000000 : Word).extractLsb' 14 18 ≠ 0 ∧
    ∀ op ∈ ([0x07, 0x0F, 0x15, 0xFF] : List (BitVec 8)),
      op ∉ ([0x00, 0x01, 0x02, 0x03, 0x04, 0x05, 0x06, 0x10, 0x11, 0x12, 0x13, 0x14] : List (BitVec 8)) := by decide

/-- `onePixel` with the host about to write `PADD p2, p1, p0` to CMD. -/
def commanded : State := { onePixel with agenda := [.access ⟨true, 0x00C, 4, 0xF, 0x00000610⟩] }

theorem witness_CommandWriteRunsTheDecodedInstruction :
    commanded.inReset = false ∧ commanded.agenda = .access ⟨true, 0x00C, 4, 0xF, 0x00000610⟩ :: [] ∧
    decode 0x00000610 = .ok (.padd 2 1 0) := ⟨rfl, rfl, rfl⟩

/-- The same with another master's write landing during it. -/
theorem witness_CommandWriteRunsTheDecodedInstruction_during :
    ({ onePixel with agenda := [.accessDuring ⟨true, 0x00C, 4, 0xF, 0x00000610⟩ [⟨0x1000, [0x55]⟩]] } : State).agenda =
      .accessDuring ⟨true, 0x00C, 4, 0xF, 0x00000610⟩ [⟨0x1000, [0x55]⟩] :: [] ∧
    onePixel.inReset = false ∧ decode 0x00000610 = .ok (.padd 2 1 0) ∧ onePixel.status.busy = false ∧
    running.inReset = false ∧ running.status.busy = true :=
  ⟨rfl, rfl, rfl, rfl, by decide +kernel, by decide +kernel⟩

theorem witness_NopChangesNothing :
    (0x00003F00 : Word).extractLsb' 0 8 = 0 ∧ (0x00003F00 : Word).extractLsb' 14 18 = 0 ∧
    (0x00004000 : Word).extractLsb' 14 18 ≠ 0 := by decide

theorem witness_PixelArithmeticResults : (0 : PReg) ≠ 2 := by decide

/-- Each clause of the conversion at its ends: the least and the negative NaNs, -0.0 and -inf; +0.0 and +inf; the values at
and just below 1.0. -/
theorem witness_ColorConversionResults :
    (3 : PReg) ≠ 0 ∧ (0x7F800000 < (0x7F800001 : Word).toNat % 2 ^ 31 ∧ 0x7F800000 < (0xFFFFFFFF : Word).toNat % 2 ^ 31) ∧
    ((0x80000000 : Word).msb = true ∧ (0xFF800000 : Word).msb = true) ∧
    ((0x00000000 : Word).toNat ≤ 0x7F800000 ∧ (0x7F800000 : Word).toNat ≤ 0x7F800000) ∧
    0x437F0000 ≤ (F32.fmul 0x3F800000 0x437F0000).toNat ∧ (F32.fmul 0x3F7FFFFF 0x437F0000).toNat < 0x437F0000 := by
  decide +kernel

theorem witness_InvalidOperationsGiveTheCanonicalNan :
    (F32.isNaN 0x7F800001 = true ∨ F32.isNaN 0x3F800000 = true) ∧ F32.isNaN 0xFFFFFFFF = true ∧
    (0x80000000 : Word) &&& 0x7FFFFFFF = 0 ∧ (0xFF800000 : Word) &&& 0x7FFFFFFF = 0x7F800000 := by decide

theorem witness_SignsOfZerosAndDivisionByZero :
    ((0x7F7FFFFF : Word).toNat % 2 ^ 31 < 0x7F800000 ∧ (0x7F7FFFFF : Word).toNat % 2 ^ 31 ≠ 0) ∧
    (0x80000001 : Word).toNat % 2 ^ 31 ≠ 0 ∧ (F32.fmul 0x80000001 0x3F000000).toNat % 2 ^ 31 = 0 ∧
    (F32.fdiv 0x80000001 0x40000000).toNat % 2 ^ 31 = 0 ∧
    (F32.isNaN 0xFF800000 = false ∧ (0xFF800000 : Word).toNat % 2 ^ 31 ≠ 0 ∧ (0x80000000 : Word).toNat % 2 ^ 31 = 0) := by
  decide +kernel

/-- Just below and at the overflow threshold, and a tie between two patterns. -/
theorem witness_RoundingIsNearestTiesToEven :
    0 < 1 ∧ F32.roundMag (2 ^ 277 - 2 ^ 252 - 1) 1 = 0x7F7FFFFF ∧ F32.roundMag (2 ^ 277 - 2 ^ 252) 1 = 0x7F800000 ∧
    F32.roundMag 1 2 = 0 ∧ F32.roundMag 3 2 = 2 := by decide +kernel

theorem witness_FiniteOperationsRoundTheExactResult :
    (0xFF7FFFFF : Word).toNat % 2 ^ 31 < 0x7F800000 ∧ (0x00000001 : Word).toNat % 2 ^ 31 < 0x7F800000 ∧
    F32.signedUnits 0xFF7FFFFF + F32.signedUnits 0x00000001 ≠ 0 ∧ F32.units 0x00000001 ≠ 0 := by decide +kernel

theorem witness_ExtendRepeatsTheBorder :
    (1 ≤ (1 : Int)) ∧ ((-1 : Int) < 0) ∧ ((4 : Int) ≤ 4) ∧ ((0 : Int) ≤ 3 ∧ (3 : Int) < 4) ∧
    State.reset.ctrl.bpol = 0 := by decide

theorem witness_WrapReferenceIsTheSourceFormula :
    (2 ≤ (2 : Int)) ∧ (⟨1, false, true, true, true⟩ : Ctrl).bpol = 1 ∧ (⟨1, false, true, true, true⟩ : Ctrl).wrapm = false := by decide

theorem witness_WrapCorrectedTilesTheImage :
    (1 ≤ (1 : Int)) ∧ (⟨1, true, false, false, false⟩ : Ctrl).bpol = 1 ∧ (⟨1, false, true, true, true⟩ : Ctrl).bpol = 1 := by decide

/-- `n = 4`: the ends of each clause's range. -/
theorem witness_MirrorReflectsAndRepeats :
    (2 ≤ (4 : Int)) ∧ ((0 : Int) ≤ 0 ∧ (3 : Int) ≤ 4 - 1) ∧ (-(4 - 1) ≤ (-3 : Int) ∧ (-1 : Int) < 0) ∧
    ((4 : Int) - 1 < 4 ∧ (6 : Int) ≤ 2 * (4 - 1)) ∧
    (⟨2, true, false, false, false⟩ : Ctrl).bpol = 2 := by decide

theorem witness_MapStaysInRangeAndFixesTheInterior :
    (1 ≤ (1 : Int)) ∧ inRange 4 4 3 0 = true ∧ inRange 4 4 4 3 = false ∧ (0 < (1 : Int) ∧ (1 : Int) ≤ 2 - 1) := by decide

theorem witness_MapCommandResult :
    onePixel.ctrl.policy = some .extend ∧ onePixel.imgDim.width ≠ 0 ∧ onePixel.imgDim.height ≠ 0 := by decide

theorem witness_PixelAddressFormula : 65535 < 65536 ∧ 0 < 65536 := by decide

theorem witness_EngineAccessesAreAlignedWords : onePixel.basesAligned ∧ Memory.wf onePixel.mem = true ∧ 3 < 4 := by
  unfold State.basesAligned; decide

/-- An in-range point and one outside the image. -/
theorem witness_SampleCommandResult :
    onePixel.status.busy = false ∧ onePixel.ctrl.policy = some .extend ∧ onePixel.imgDim.width ≠ 0 ∧ onePixel.imgDim.height ≠ 0 ∧
    mapPoint .extend 1 1 onePixel.coord.x.toInt onePixel.coord.y.toInt = (0, 0) ∧ mapPoint .extend 1 1 (-1) (-1) = (0, 0) ∧
    refusesRead onePixel (srcAddr onePixel 0 0) = false := by decide

/-- A 3 by 3 kernel at (0, 0) of a 2 by 1 image whose second source word is refused: the third tap is the first to read it. -/
def refusing : State :=
  { commitKernel { boxKernel with imgDim := ⟨2, 1⟩ } with busMap := [⟨0x1004, 4, true, false⟩] }

theorem witness_BusErrorRejectsSampleAndConv1 :
    (refusing.status.busy = false ∧ refusing.ctrl.policy = some .extend ∧ refusing.imgDim.width ≠ 0 ∧ refusing.imgDim.height ≠ 0) ∧
    (mapPoint .extend 2 1 1 0 = (1, 0) ∧ refusesRead refusing (srcAddr refusing 1 0) = true) ∧
    refusing.status.kvalid = true ∧ refusing.isTap 0 2 ∧
    (∀ j i : Nat, refusing.isTap j i → (j < 0 ∨ (j = 0 ∧ i < 2)) →
      refusesRead refusing (refusing.tapAddr .extend refusing.coord.x.toInt refusing.coord.y.toInt j i) = false) ∧
    refusesRead refusing (refusing.tapAddr .extend refusing.coord.x.toInt refusing.coord.y.toInt 0 2) = true := by
  have h0 : ∀ i, i < 2 →
      refusesRead refusing (refusing.tapAddr .extend refusing.coord.x.toInt refusing.coord.y.toInt 0 i) = false := by decide +kernel
  refine ⟨by decide +kernel, by decide +kernel, by decide +kernel, by unfold State.isTap; decide +kernel, fun j i _ h => ?_,
    by decide +kernel⟩
  rcases h with h | ⟨rfl, h⟩
  · exact absurd h (Nat.not_lt_zero j)
  · exact h0 i h

/-- The smallest and the largest legal kernel. -/
theorem witness_KcommitCommandResult :
    State.reset.status.busy = false ∧ (⟨1, 15, 0, 0⟩ : KDim).legal ∧ (⟨15, 1, 0, 0⟩ : KDim).legal := by
  unfold KDim.legal; decide

theorem witness_NormalizationFactorCases :
    (0x00000001 : Word) &&& 0x7FFFFFFF ≠ 0 ∧ F32.isNaN 0xFF800001 = true ∧ F32.isNaN 0xBF800000 = false := by decide

/-- The nine taps of a 3 by 3 kernel, none of them refused. -/
theorem witness_Conv1CommandResult :
    (commitKernel boxKernel).status.busy = false ∧ (commitKernel boxKernel).status.kvalid = true ∧
    (commitKernel boxKernel).ctrl.policy = some .extend ∧ (commitKernel boxKernel).imgDim.width ≠ 0 ∧
    (commitKernel boxKernel).imgDim.height ≠ 0 ∧ ∀ j i, (commitKernel boxKernel).isTap j i →
      refusesRead (commitKernel boxKernel) ((commitKernel boxKernel).tapAddr .extend (commitKernel boxKernel).coord.x.toInt
        (commitKernel boxKernel).coord.y.toInt j i) = false :=
  ⟨by decide +kernel, by decide +kernel, by decide +kernel, by decide +kernel, by decide +kernel, fun _ _ _ => rfl⟩

/-- The identity kernel on the 1 by 1 image. -/
def identity : State :=
  commitKernel { onePixel with kdim := ⟨3, 3, 0, 0⟩, kwmem := (Vector.replicate 225 0).set 4 0x3F800000 }

theorem witness_IdentityKernelReproducesTheInput :
    identity.kdim.kw = 3 ∧ identity.kdim.ka = 1 ∧ identity.kdim.kb = 1 ∧ identity.ctrl.norm = false ∧
    (∀ i, i < 9 → identity.kwmem.toList.getD i 0 = if i = 4 then 0x3F800000 else 0) ∧ 0 < imgW identity ∧ 0 < imgH identity ∧
    ∀ k ∈ taps identity, refusesRead identity
      (sampleAddr identity .mirror ((0 : Nat) + tapDx identity k) ((0 : Nat) + tapDy identity k)) = false := by decide +kernel

theorem witness_StartCommandResult :
    ready.status.busy = false ∧ ready.status.kvalid = true ∧ ready.ctrl.bpol ≠ 3 ∧
    (ready.imgDim.width ≠ 0 ∧ ready.imgDim.height ≠ 0) ∧
    ({ ready with imgDim := ⟨0, 1⟩ } : State).imgDim.width = 0 := by decide +kernel

theorem running_passRunning : running.passRunning := by unfold State.passRunning; decide +kernel

theorem almostDone_passRunning : almostDone.passRunning := by unfold State.passRunning; decide +kernel

/-- Both points are pending and their writes allowed. -/
theorem witness_AbortCommandResult :
    ready.status.busy = false ∧ running.status.busy = true ∧ running.stop = .none ∧ running.passRunning ∧
    running.memCanonical ∧ running.basesAligned ∧ running.ctrl.policy = some .extend ∧ pendingHas running.pending 1 = true ∧
    refusesWrite running (pointAddr running 1) = false :=
  ⟨by decide +kernel, by decide +kernel, by decide +kernel, running_passRunning, by unfold State.memCanonical; decide +kernel,
    by unfold State.basesAligned; decide +kernel, by decide +kernel, by decide +kernel, rfl⟩

/-- A running pass whose engine is given the turn. -/
def engineNext (s : State) : State := { s with agenda := [.engine 0] }

theorem witness_EngineStepWritesOnePoint :
    (engineNext running).agenda = .engine 0 :: [] ∧ (engineNext running).memCanonical ∧ (engineNext running).status.busy = true ∧
    (engineNext running).stop = .none ∧ (engineNext running).inReset = false ∧ (engineNext running).ctrl.policy = some .extend ∧
    pendingPick (engineNext running).pending 0 = some 0 ∧
    (∀ a ∈ tapAddrs (engineNext running) .extend 0, refusesRead (engineNext running) a = false ∧ ¬ (engineNext running).races a) ∧
    refusesWrite (engineNext running) (pointAddr (engineNext running) 0) = false ∧
    (∀ o ∈ (engineNext running).overs, o.addr = pointAddr (engineNext running) 0 → o.byPass = true) := by
  have ht : tapAddrs (engineNext running) .extend 0 = [0x1000] := by decide +kernel
  have ho : (engineNext running).overs = [] := by decide +kernel
  have hn : imgW (engineNext running) * imgH (engineNext running) = 2 := by decide +kernel
  have hp : ∀ n, n < 2 → pointAddr (engineNext running) n ≠ 0x1000 := by decide +kernel
  refine ⟨rfl, ?_, ?_, ?_, ?_, ?_, ?_, fun a ha => ⟨rfl, ?_⟩, rfl, fun o h => by rw [ho] at h; cases h⟩
  · unfold State.memCanonical; decide +kernel
  · decide +kernel
  · decide +kernel
  · decide +kernel
  · decide +kernel
  · decide +kernel
  · rw [ht, List.mem_singleton] at ha; subst ha
    rintro (⟨o, h, _⟩ | ⟨n, h, e⟩)
    · rw [ho] at h; cases h
    · exact hp n (hn ▸ h) e

/-- The same with the pass's last point, so that both clauses on STATUS are met. -/
theorem witness_EngineStepWritesOnePoint_last :
    pendingPick almostDone.pending 0 = some 1 ∧ pendingSize (pendingRemove almostDone.pending 1) = 0 ∧
    pendingSize (pendingRemove running.pending 0) ≠ 0 := by decide +kernel

theorem witness_PassConfigurationIsFrozen :
    running.status.busy = true ∧ (∀ rest, running.agenda ≠ .resetOn :: rest) ∧ ∃ t, step running = .next t :=
  ⟨by decide +kernel, fun rest h => (List.cons_ne_nil _ rest h.symm).elim, _, rfl⟩

/-- Two points pending, none of whose accesses is refused. -/
theorem witness_PassRunsToItsEnd :
    running.passRunning ∧ running.status.busy = true ∧ running.agenda = [] ∧ running.ctrl.policy = some .extend ∧
    (∀ i, pendingHas running.pending i = true →
      (∀ a ∈ tapAddrs running .extend i, refusesRead running a = false) ∧ refusesWrite running (pointAddr running i) = false) ∧
    1 < pendingSize running.pending :=
  ⟨running_passRunning, by decide +kernel, by decide +kernel, by decide +kernel, fun _ _ => ⟨fun _ _ => rfl, rfl⟩,
    by decide +kernel⟩

theorem witness_FinishedPassHoldsTheConvolution :
    running.memCanonical ∧ running.basesAligned ∧ running.passRunning ∧ running.status.busy = true ∧
    running.ctrl.policy = some .extend ∧ running.agenda = [] ∧ running.overs = [] ∧
    (∀ i, i < imgW running * imgH running →
      (∀ a ∈ tapAddrs running .extend i, refusesRead running a = false) ∧ refusesWrite running (pointAddr running i) = false) ∧
    running.pending = pendingAll (imgW running) (imgH running) ∧
    (∀ i j, i < imgW running * imgH running → j < imgW running * imgH running → i ≠ j →
      pointAddr running i ≠ pointAddr running j) ∧
    (∀ i j, i < imgW running * imgH running → j < imgW running * imgH running →
      pointAddr running j ∉ tapAddrs running .extend i) := by
  have hn : imgW running * imgH running = 2 := by decide +kernel
  have h1 : ∀ i, i < 2 → ∀ j, j < 2 → i ≠ j → pointAddr running i ≠ pointAddr running j := by decide +kernel
  have h2 : ∀ i, i < 2 → ∀ j, j < 2 → pointAddr running j ∉ tapAddrs running .extend i := by decide +kernel
  refine ⟨?_, ?_, running_passRunning, ?_, ?_, ?_, ?_, fun _ _ => ⟨fun _ _ => rfl, rfl⟩, ?_, fun i j hi hj => ?_, fun i j hi hj => ?_⟩
  · unfold State.memCanonical; decide +kernel
  · unfold State.basesAligned; decide +kernel
  · decide +kernel
  · decide +kernel
  · decide +kernel
  · decide +kernel
  · decide +kernel
  · exact h1 i (hn ▸ hi) j (hn ▸ hj)
  · exact h2 i (hn ▸ hi) j (hn ▸ hj)

/-- A pass whose source, or whose output, is refused. -/
def blocked (onRead : Bool) : State :=
  { engineNext running with busMap := [⟨if onRead then 0x1000 else 0x2000, 4, onRead, !onRead⟩] }

theorem blocked_passRunning (b : Bool) : (blocked b).passRunning := by
  unfold State.passRunning; cases b <;> decide +kernel

theorem witness_BusErrorEndsThePass (b : Bool) :
    (blocked b).agenda = .engine 0 :: [] ∧ (blocked b).passRunning ∧ (blocked b).status.busy = true ∧
    (blocked b).ctrl.policy = some .extend ∧ pendingPick (blocked b).pending 0 = some 0 ∧
    ((∃ a ∈ tapAddrs (blocked b) .extend 0, refusesRead (blocked b) a = true) ∨
      refusesWrite (blocked b) (pointAddr (blocked b) 0) = true) ∧
    (blocked b).memCanonical ∧ (blocked b).basesAligned ∧ pendingHas (blocked b).pending 1 = true ∧
    refusesWrite (blocked b) (pointAddr (blocked b) 1) = false := by
  refine ⟨rfl, blocked_passRunning b, ?_, ?_, ?_, ?_, ?_, ?_, ?_, ?_⟩
  · cases b <;> decide +kernel
  · cases b <;> decide +kernel
  · cases b <;> decide +kernel
  · cases b
    · exact .inr (by decide +kernel)
    · exact .inl ⟨0x1000, by decide +kernel, by decide +kernel⟩
  · unfold State.memCanonical; cases b <;> decide +kernel
  · unfold State.basesAligned; cases b <;> decide +kernel
  · cases b <;> decide +kernel
  · cases b <;> decide +kernel

/-- The first byte below the output raster, and the engine's turn both ways. -/
theorem witness_PassWritesOnlyPendingOutputWords :
    almostDone.memCanonical ∧ almostDone.passRunning ∧
    (∀ i j, pendingHas almostDone.pending i = true → j < 4 → 0x2003 ≠ byteAddr (pointAddr almostDone i) j) ∧
    (∃ t, exec .abort almostDone = .next t) ∧ (engineNext almostDone).agenda = .engine 0 :: [] ∧
    (∃ t, step (engineNext almostDone) = .next t) ∧ almostDone.agenda = [] ∧ ∃ t, step almostDone = .next t := by
  have h1 : ∀ j, j < 4 → 0x2003 ≠ byteAddr (pointAddr almostDone 1) j := by decide +kernel
  refine ⟨?_, almostDone_passRunning, fun i j hi hj => ?_, ⟨_, rfl⟩, rfl, ⟨_, rfl⟩, ?_, _, rfl⟩
  · unfold State.memCanonical; decide +kernel
  · have hi : pendingHas [⟨1, 2⟩] i = true := hi
    simp only [pendingHas, List.any_cons, List.any_nil, Bool.or_false, Bool.and_eq_true, decide_eq_true_eq] at hi
    obtain rfl : i = 1 := by omega
    exact h1 j hj
  · decide +kernel

theorem witness_RegistersReadBackWhatWasWritten :
    ready.status.busy = false ∧ ready.inReset = false ∧ Reg.reserved ≠ .cmd ∧ (0 : Fin 225) ≠ 224 ∧
    ({ ready with agenda := [.access ⟨false, regOffset (.kwmem 224), 4, 0, 0⟩] } : State).agenda =
      .access ⟨false, regOffset (.kwmem 224), 4, 0, 0⟩ :: [] ∧
    ({ ready with agenda := [.access ⟨true, regOffset .reserved, 4, 0xF, 7⟩] } : State).agenda =
      .access ⟨true, regOffset .reserved, 4, 0xF, 7⟩ :: [] :=
  ⟨by decide +kernel, by decide +kernel, by decide, by decide, rfl, rfl⟩

theorem witness_KvalidFollowsItsRule :
    (∃ t, exec .kcommit boxKernel = .next t) ∧ boxKernel.status.busy = false ∧ boxKernel.kdim.legal ∧
    boxKernel.status.kvalid = false ∧ (0x00000008 : Word).getLsbD 3 ≠ boxKernel.ctrl.norm := by
  refine ⟨⟨_, rfl⟩, by decide, by unfold KDim.legal; decide, by decide, by decide⟩

theorem witness_FrozenRegistersIgnoreWrites : running.status.busy = true := by decide +kernel

theorem witness_CtrlWriteRule : running.status.busy = true ∧ ready.status.busy = false := by decide +kernel

/-- A short write, a misaligned one, and one with a byte enable off. -/
theorem witness_OtherTransactionsGetAnError :
    State.reset.inReset = false ∧ (⟨false, 0x004, 2, 0, 0⟩ : Access).size ≠ 4 ∧
    (⟨false, 0x006, 4, 0, 0⟩ : Access).offset.toNat % 4 ≠ 0 ∧
    ((⟨true, 0x004, 4, 0xE, 0⟩ : Access).isWrite = true ∧ (⟨true, 0x004, 4, 0xE, 0⟩ : Access).enables ≠ 0xF) := by decide

/-- Both ends of each gap. -/
theorem witness_ReservedOffsetsReadZero :
    State.reset.inReset = false ∧ (([0x048, 0x07C, 0x0C0, 0x0FC, 0x484, 0xFFC] : List (BitVec 12)).all fun o =>
      o.toNat % 4 = 0 ∧ ((0x048 ≤ o.toNat ∧ o.toNat < 0x080) ∨ (0x0C0 ≤ o.toNat ∧ o.toNat < 0x100) ∨ 0x484 ≤ o.toNat)) = true := by
  decide

theorem witness_RejectionsComeInOrder :
    decoded 0x00004000 = none ∧ running.status.busy = true ∧ State.reset.status.busy = false ∧
    (⟨16, 1, 0, 0⟩ : KDim).kw.toNat % 2 = 0 ∧ 15 < (⟨17, 1, 0, 0⟩ : KDim).kw.toNat ∧ State.reset.status.kvalid = false ∧
    ready.status.kvalid = true ∧ ready.status.busy = false ∧ ready.kdim.legal ∧ ({ ready.ctrl with bpol := 3 } : Ctrl).bpol = 3 ∧
    ready.ctrl.bpol ≠ 3 ∧ ready.imgDim.width ≠ 0 ∧ ready.imgDim.height ≠ 0 ∧ State.reset.imgDim.width = 0 ∧ Instr.opcode .abort = 0x03 ∧ ∃ t, exec .abort running = .next t :=
  ⟨by decide, by decide +kernel, by decide, by decide, by decide, by decide, by decide +kernel, by decide +kernel,
    by unfold KDim.legal; decide +kernel, rfl, by decide +kernel, by decide +kernel,
    by decide +kernel, by decide, rfl, _, rfl⟩

/-- A SAMPLE that the platform refuses changes FAULT_ADDR. -/
theorem witness_OnlyBusErrorsWriteFaultAddr :
    ∃ t, exec (.sample 1) { onePixel with busMap := [⟨0x1000, 4, true, false⟩] } = .next t ∧
      t.faultAddr ≠ ({ onePixel with busMap := [⟨0x1000, 4, true, false⟩] } : State).faultAddr := ⟨_, rfl, by decide⟩

theorem witness_CommandsDuringAPassLeaveIt :
    running.status.busy = true ∧ (∃ t, exec .kcommit running = .next t) ∧ (∃ t, exec .map running = .next t) ∧
    Instr.kcommit ≠ .abort ∧ Instr.opcode .kcommit = 0x01 ∧ Instr.opcode (.padd 0 0 0) = 0x10 :=
  ⟨by decide +kernel, ⟨_, rfl⟩, ⟨_, rfl⟩, by decide, rfl, rfl⟩

theorem witness_ResetInputPutsResetValues :
    ({ almostDone with agenda := [.resetOn] } : State).agenda = .resetOn :: [] ∧ almostDone.memCanonical ∧
    almostDone.passRunning ∧ ready.status.busy = false ∧ ({ ready with inReset := true } : State).inReset = true ∧
    ∀ i j, pendingHas almostDone.pending i = true → j < 4 → 0x2003 ≠ byteAddr (pointAddr almostDone i) j :=
  ⟨rfl, witness_PassWritesOnlyPendingOutputWords.1, almostDone_passRunning, by decide +kernel, rfl,
    witness_PassWritesOnlyPendingOutputWords.2.2.1⟩

/-- A pass is running, and none is: the early read has both. -/
theorem witness_EarlyReadSeesAHeldValue :
    ({ almostDone with agenda := [.memRead 0x2001] } : State).agenda = .memRead 0x2001 :: [] ∧
    ({ ready with agenda := [.memRead 0x2001] } : State).status.busy = false := by decide +kernel

theorem witness_RacingWritesLeaveOneOfTheTwo :
    running.memCanonical ∧ (0x2000 : Word).toNat % 4 = 0 ∧
    ({ running with agenda := [.memWrite 0x2000 (bytesOfWord 5)] } : State).agenda = .memWrite 0x2000 (bytesOfWord 5) :: [] ∧
    ∃ t, attempt .extend 0 running = (none, t) :=
  ⟨by unfold State.memCanonical; decide +kernel, by decide, rfl, _, rfl⟩

theorem witness_StepsKeepMemoryCanonical : running.memCanonical ∧ ∃ t, step running = .next t :=
  ⟨by unfold State.memCanonical; decide +kernel, _, rfl⟩

theorem witness_StepsKeepTheHardwiredBits : running.basesAligned ∧ ∃ t, step running = .next t :=
  ⟨by unfold State.basesAligned; decide +kernel, _, rfl⟩

theorem witness_StepsKeepStatusLegal : running.statusLegal ∧ ∃ t, step running = .next t :=
  ⟨by unfold State.statusLegal; decide +kernel, _, rfl⟩

/-- With KVALID 1, so that the invariant says something. -/
theorem witness_StepsKeepTheCommittedKernel :
    running.kernelCommitted ∧ running.status.kvalid = true ∧ ∃ t, step running = .next t :=
  ⟨by unfold State.kernelCommitted KDim.legal; decide +kernel, by decide +kernel, _, rfl⟩

/-- With BUSY 1, so that the invariant says something. -/
theorem witness_StepsKeepTheRunningPass :
    running.passRunning ∧ running.idleClean ∧ running.status.busy = true ∧ ∃ t, step running = .next t :=
  ⟨running_passRunning, by unfold State.idleClean; decide +kernel, by decide +kernel, _, rfl⟩

end Sys2Proof.Tests
end

section
/-! The family of 10_state: what a step can do to the registers a pass reads and to STATUS, the invariants every step keeps,
and the rules of single registers. -/

namespace Sys2Proof.Machine

/-! ### The write of CTRL -/

/-- A written word differs from CTRL in bits [3:0] when NORM, WRAPM or BPOL does (10_state R32, R34). -/
theorem differsLow_eq (c : Ctrl) (v : Word) :
    c.differsLow v = decide (v.extractLsb' 0 4 ≠ BitVec.ofBool c.norm ++ BitVec.ofBool c.wrapm ++ c.bpol) := by
  have hlow : c.word.extractLsb' 0 4 = BitVec.ofBool c.norm ++ BitVec.ofBool c.wrapm ++ c.bpol := by
    obtain ⟨b, w, n, d, e⟩ := c
    revert b w n d e
    decide
  unfold Ctrl.differsLow
  rw [hlow, Bool.eq_iff_iff, bne_iff_ne, decide_eq_true_iff, ne_comm]

/-- While a pass runs a write of CTRL sets the interrupt enables, and WIGN where it would have changed more (10_state R34). -/
theorem writeCtrl_busy (v : Word) {s : State} (h : s.status.busy = true) :
    writeCtrl v s = { s with
      ctrl := { s.ctrl with ieDone := v.getLsbD 4, ieCerr := v.getLsbD 5 }
      status := { s.status with
        wign := s.status.wign ||
          decide (v.extractLsb' 0 4 ≠ BitVec.ofBool s.ctrl.norm ++ BitVec.ofBool s.ctrl.wrapm ++ s.ctrl.bpol) } } := by
  unfold writeCtrl
  rw [if_pos h, differsLow_eq]
  by_cases hd : v.extractLsb' 0 4 ≠ BitVec.ofBool s.ctrl.norm ++ BitVec.ofBool s.ctrl.wrapm ++ s.ctrl.bpol
  · rw [decide_eq_true hd, Bool.or_true]; rfl
  · rw [decide_eq_false hd, Bool.or_false]; rfl

/-- With no pass a write of CTRL is taken whole, and another NORM clears KVALID (10_state R34, R53). -/
theorem writeCtrl_idle (v : Word) {s : State} (h : s.status.busy = false) :
    writeCtrl v s = { s with
      ctrl := ⟨v.extractLsb' 0 2, v.getLsbD 2, v.getLsbD 3, v.getLsbD 4, v.getLsbD 5⟩
      status := { s.status with kvalid := s.status.kvalid && decide (v.getLsbD 3 = s.ctrl.norm) } } := by
  have hnorm : (Ctrl.ofWord v).norm = v.getLsbD 3 := rfl
  unfold writeCtrl
  rw [if_neg (by rw [h]; decide), hnorm]
  by_cases hn : v.getLsbD 3 = s.ctrl.norm
  · rw [decide_eq_true hn, if_neg (by rw [hn]; simp), Bool.and_true]; rfl
  · rw [decide_eq_false hn, if_pos (bne_iff_ne.mpr hn), Bool.and_false]; rfl

/-- Settles O41: the write of CTRL with a pass running, and with none. -/
theorem ctrlWriteRule : Obligations.CtrlWriteRule :=
  fun _ v => ⟨writeCtrl_busy v, writeCtrl_idle v⟩

/-! ### Waiting for the engine -/

/-- A look of a `POLL` changes the agenda, the answer and the count of free values. -/
theorem pollTurn_frame (o : BitVec 12) (m v : Word) (rest : List Event) (s : State) :
    ∃ ag r f, pollTurn o m v rest s = { s with agenda := ag, resp := r, free := f } := by
  unfold pollTurn
  split
  · exact ⟨_, _, _, rfl⟩
  · split
    · exact ⟨_, _, _, rfl⟩
    · dsimp only
      split
      · exact ⟨_, _, _, rfl⟩
      · exact ⟨_, _, _, rfl⟩

/-- A look at `irq` changes the agenda and the count of free values. -/
theorem irqTurn_frame (rest : List Event) (s : State) : ∃ ag f, irqTurn rest s = { s with agenda := ag, free := f } := by
  unfold irqTurn
  split
  · exact ⟨_, _, rfl⟩
  · exact ⟨_, _, rfl⟩

/-- What every kind of step keeps, every step keeps, in one case for all that changes only the agenda, the answer and the count
of free values: a look of a `POLL` or at `irq`, and another master's read. -/
theorem step_induct_quiet {P : State → Prop} {s t : State} (h : step s = .next t)
    (quiet : ∀ ag r f, P { s with agenda := ag, resp := r, free := f })
    (turn : ∀ pick ag, P (engineTurn pick { s with agenda := ag }))
    (port : ∀ a ag u, portAccess a { s with agenda := ag } = .next u → P u)
    (raced : ∀ a ws ag u, s.status.busy = true → portAccess a (landAll ws { s with agenda := ag }) = .next u → P u)
    (amid : ∀ a ws ag u, s.status.busy = false → portAccess a { s with agenda := ag, during := ws } = .next u →
      P { u with during := [], mem := landWrites u.mem ws }.tick)
    (resetOn : ∀ ag, s.agenda = .resetOn :: ag → P (assertReset { s with agenda := ag }))
    (resetOff : ∀ ag, P (releaseReset { s with agenda := ag }))
    (write : ∀ a bs ag, P (otherWrite a bs { s with agenda := ag })) (map : ∀ m ag, P { s with busMap := m, agenda := ag }) : P t := by
  refine step_induct h turn port raced amid (fun o m v ag => ?poll) (fun ag => ?wait) resetOn resetOff write
    (fun _ ag => quiet ag _ _) map
  case poll =>
    obtain ⟨ag', r, f, e⟩ := pollTurn_frame o m v ag s
    rw [e]; exact quiet ag' r f
  case wait =>
    obtain ⟨ag', f, e⟩ := irqTurn_frame ag s
    rw [e]; exact quiet ag' s.resp f

/-! ### The configuration -/

/-- The registers a pass reads (43_engine R273), with KVALID. -/
structure PassConfig where
  bpol      : BitVec 2
  wrapm     : Bool
  norm      : Bool
  imgDim    : ImgDim
  kdim      : KDim
  kwmem     : Vector Word 225
  wsum      : Word
  nfactor   : Word
  srcBase   : Word
  srcStride : Word
  dstBase   : Word
  dstStride : Word
  kvalid    : Bool

/-- The registers a pass reads, in a state. -/
def State.config (s : State) : PassConfig where
  bpol      := s.ctrl.bpol
  wrapm     := s.ctrl.wrapm
  norm      := s.ctrl.norm
  imgDim    := s.imgDim
  kdim      := s.kdim
  kwmem     := s.kwmem
  wsum      := s.wsum
  nfactor   := s.nfactor
  srcBase   := s.srcBase
  srcStride := s.srcStride
  dstBase   := s.dstBase
  dstStride := s.dstStride
  kvalid    := s.status.kvalid

theorem startPass_config (s : State) : (startPass s).config = s.config := by
  unfold startPass; split <;> rfl

theorem attempt_config (pol : Policy) (i : Nat) (s : State) : (attempt pol i s).2.config = s.config := by
  rw [attempt_frame]; rfl

theorem settle_config : (p : Option Word × State) → (settle p).config = p.2.config
  | (some _, _) => rfl
  | (none, t) => by unfold settle; dsimp only; split <;> rfl

theorem engineTurn_config (pick : Nat) (s : State) : (engineTurn pick s).config = s.config := by
  rcases engineTurn_cases pick s with e | ⟨pol, i, -, -, -, -, -, e⟩
  · rw [e]
  · rw [e]; exact (settle_config _).trans (attempt_config pol i s)

theorem otherWrite_config (a : Word) (bs : List Byte) (s : State) : (otherWrite a bs s).config = s.config := by
  rw [otherWrite_frame]; rfl

/-- While a pass runs a register write leaves the configuration (10_state R34, R57). -/
theorem regWrite_config_busy (r : Reg) (v : Word) {s : State} (h : s.status.busy = true) :
    (regWrite r v s).config = s.config := by
  obtain ⟨hframe, hkvalid⟩ := regWrite_frozen r v h
  generalize regWrite r v s = t at hframe hkvalid
  rw [hframe]
  simp only [State.config, hkvalid]

/-- A command leaves the configuration, but for a KCOMMIT that succeeds. -/
theorem exec_config {i : Instr} {s t : State} (h : exec i s = .next t) :
    t.config = s.config ∨
    (i = .kcommit ∧ s.status.busy = false ∧ kdimEven s.kdim = false ∧ kdimRange s.kdim = false ∧ t = commitKernel s) := by
  rcases exec_cases h with rfl | ⟨c, rfl⟩ | ⟨a, rfl, -, -⟩ | hcommit | ⟨-, -, -, -, rfl⟩ | ⟨-, -, rfl⟩ | ⟨m, rfl⟩ |
    ⟨d, p, rfl⟩ | ⟨c, rfl⟩
  case inr.inr.inr.inl => exact .inr hcommit
  case inr.inr.inr.inr.inl => exact .inl (startPass_config s)
  all_goals exact .inl rfl

/-- What can become of a configuration, `busy` saying whether a pass runs: with no pass, a register write and a KCOMMIT that
succeeds change it. -/
inductive ConfigChange (c : PassConfig) (busy : Bool) : PassConfig → Prop
  | kept : ConfigChange c busy c
  | written (r : Reg) (v : Word) (u : State) (same : u.config = c) (idle : busy = false) (idle' : u.status.busy = false) :
      ConfigChange c busy (regWrite r v u).config
  | committed (u : State) (same : u.config = c) (idle : busy = false) (odd : kdimEven u.kdim = false)
      (small : kdimRange u.kdim = false) : ConfigChange c busy (commitKernel u).config

/-- A configuration that is the same has changed as far as any may. -/
theorem ConfigChange.of_eq {c d : PassConfig} {busy : Bool} (h : d = c) : ConfigChange c busy d := h ▸ .kept

theorem portAccess_config {a : Access} {s t : State} (h : portAccess a s = .next t) :
    ConfigChange s.config s.status.busy t.config := by
  rcases portAccess_cases h with ⟨r, rfl⟩ | ⟨-, r, rfl⟩ | ⟨-, rfl⟩ | ⟨-, i, -, he⟩
  · exact .kept
  · cases hb : s.status.busy with
    | true => exact .of_eq (regWrite_config_busy r a.data (s := { s with resp := .ok }) hb)
    | false => exact .written r a.data { s with resp := .ok } rfl rfl hb
  · exact .kept
  · rcases exec_config he with hc | ⟨-, hb, hodd, hsmall, rfl⟩
    · exact .of_eq hc
    · exact .committed { s with resp := .ok } rfl hb hodd hsmall

/-- Everything a step but a reset can do to the configuration. -/
theorem step_config {s t : State} (h : step s = .next t) :
    ConfigChange s.config s.status.busy t.config ∨
    ∃ ag, s.agenda = .resetOn :: ag ∧ t = assertReset { s with agenda := ag } := by
  refine step_induct_quiet (P := fun t => ConfigChange s.config s.status.busy t.config ∨
    ∃ ag, s.agenda = .resetOn :: ag ∧ t = assertReset { s with agenda := ag }) h (fun _ _ _ => .inl .kept) ?turn ?port
    ?raced ?amid (fun ag ha => .inr ⟨ag, ha, rfl⟩) (fun _ => .inl .kept) ?write (fun _ _ => .inl .kept)
  case turn => exact fun pick ag => .inl (.of_eq (engineTurn_config pick { s with agenda := ag }))
  case port =>
    intro a ag u hu
    have hc := portAccess_config hu
    exact .inl hc
  case raced =>
    intro a ws ag u _ hu
    have hc := portAccess_config hu
    rw [landAll_frame] at hc
    exact .inl hc
  case amid =>
    intro a ws ag u _ hu
    have hc := portAccess_config hu
    exact .inl hc
  case write => exact fun a bs ag => .inl (.of_eq (otherWrite_config a bs { s with agenda := ag }))

/-- What a reset, an idle register write and a KCOMMIT that succeeds establish or keep of the configuration, every step keeps. -/
theorem step_config_induct {P : PassConfig → Prop} {s t : State} (h : step s = .next t) (hs : P s.config)
    (written : ∀ r v (u : State), u.status.busy = false → P u.config → P (regWrite r v u).config)
    (committed : ∀ u : State, kdimEven u.kdim = false → kdimRange u.kdim = false → P u.config → P (commitKernel u).config)
    (reset : ∀ u : State, P (assertReset u).config) : P t.config := by
  rcases step_config h with hc | ⟨ag, -, rfl⟩
  · generalize t.config = d at hc
    cases hc with
    | kept => exact hs
    | written r v u same _ idle => exact written r v u idle (same ▸ hs)
    | committed u same _ odd small => exact committed u odd small (same ▸ hs)
  · exact reset _

/-- Settles O33: with BUSY 1 the only changes of the configuration left are none. -/
theorem passConfigurationIsFrozen : Obligations.PassConfigurationIsFrozen := by
  intro s t hb hreset h
  have e : t.config = s.config := by
    rcases step_config h with hc | ⟨ag, ha, -⟩
    · rw [hb] at hc
      generalize t.config = d at hc
      cases hc with
      | kept => rfl
      | written _ _ _ _ idle => cases idle
      | committed _ _ idle => cases idle
    · exact absurd ha (hreset ag)
  simpa only [State.config, PassConfig.mk.injEq] using e

/-! ### The hardwired low bits -/

/-- The bases and strides of a configuration are multiples of 4 (10_state R40, R41). -/
def PassConfig.aligned (c : PassConfig) : Prop :=
  c.srcBase.toNat % 4 = 0 ∧ c.srcStride.toNat % 4 = 0 ∧ c.dstBase.toNat % 4 = 0 ∧ c.dstStride.toNat % 4 = 0

theorem basesAligned_iff (s : State) : s.basesAligned ↔ s.config.aligned := Iff.rfl

theorem dropLow_mod (v : Word) : (dropLow v).toNat % 4 = 0 := by
  have h : (dropLow v).extractLsb' 0 2 = 0 := by
    unfold dropLow
    ext i hi
    obtain rfl | rfl : i = 0 ∨ i = 1 := by omega
    · simp
    · simp
  simpa using congrArg BitVec.toNat h

/-- A register write stores a base or stride with its low bits 0 (10_state R40, R41). -/
theorem regWrite_aligned (r : Reg) (v : Word) {s : State} (hb : s.status.busy = false) (h : s.config.aligned) :
    (regWrite r v s).config.aligned := by
  obtain ⟨hsb, hss, hdb, hds⟩ := h
  cases r with
  | srcBase => simp only [regWrite, configWrite_idle _ hb]; exact ⟨dropLow_mod v, hss, hdb, hds⟩
  | srcStride => simp only [regWrite, configWrite_idle _ hb]; exact ⟨hsb, dropLow_mod v, hdb, hds⟩
  | dstBase => simp only [regWrite, configWrite_idle _ hb]; exact ⟨hsb, hss, dropLow_mod v, hds⟩
  | dstStride => simp only [regWrite, configWrite_idle _ hb]; exact ⟨hsb, hss, hdb, dropLow_mod v⟩
  | ctrl | imgDim | kdim | kwmem _ =>
    simp only [regWrite, writeCtrl_idle v hb, writeKdim, writeKwmem, configWrite_idle _ hb]; exact ⟨hsb, hss, hdb, hds⟩
  | status | coord | scalar | color | preg _ _ => exact ⟨hsb, hss, hdb, hds⟩
  | id | cmd | wsum | nfactor | mapres | pcount | faultAddr | reserved => exact ⟨hsb, hss, hdb, hds⟩

theorem assertReset_aligned (s : State) : (assertReset s).config.aligned := ⟨rfl, rfl, rfl, rfl⟩

/-- Settles O57: only an idle register write changes a base or stride other than to 0, and it drops the low bits. -/
theorem stepsKeepTheHardwiredBits : Obligations.StepsKeepTheHardwiredBits := by
  intro s t hs h
  rw [basesAligned_iff] at hs ⊢
  exact step_config_induct h hs (fun r v u idle hu => regWrite_aligned r v idle hu)
    (fun u _ _ hu => hu) assertReset_aligned

/-! ### The committed kernel -/

/-- While KVALID is 1 the kernel registers of a configuration are those a KCOMMIT gives (10_state R53). -/
def PassConfig.committed (c : PassConfig) : Prop :=
  c.kvalid = true →
    c.kdim.legal ∧ c.kdim.ka.toNat = c.kdim.kw.toNat / 2 ∧ c.kdim.kb.toNat = c.kdim.kh.toNat / 2 ∧
    c.wsum = weightSum c.kwmem c.kdim.kw.toNat c.kdim.kh.toNat ∧ c.nfactor = normFactor c.wsum c.norm

theorem kernelCommitted_iff (s : State) : s.kernelCommitted ↔ s.config.committed := Iff.rfl

/-- A legal KDIM is one that passes both checks of KCOMMIT (42_kernel R222; 60_exceptions R302). -/
theorem legal_iff (k : KDim) : k.legal ↔ kdimEven k = false ∧ kdimRange k = false := by
  have hmax : Config.kdimMax = 15 := rfl
  simp only [KDim.legal, kdimEven, kdimRange, Bool.or_eq_false_iff, beq_eq_false_iff_ne, decide_eq_false_iff_not]
  omega

/-- An idle write of CTRL, KDIM or KWMEM that changes what a KCOMMIT reads clears KVALID; every other write leaves that
(10_state R53). -/
theorem regWrite_committed (r : Reg) (v : Word) {s : State} (hb : s.status.busy = false) (h : s.config.committed) :
    (regWrite r v s).config.committed := by
  cases r with
  | ctrl =>
    simp only [regWrite, writeCtrl_idle v hb]
    intro hk
    obtain ⟨hvalid, hnorm⟩ := Bool.and_eq_true_iff.mp hk
    simp only [State.config, of_decide_eq_true hnorm]
    exact h hvalid
  | kdim => simp only [regWrite, writeKdim, configWrite_idle _ hb]; exact fun hk => nomatch hk
  | kwmem i => simp only [regWrite, writeKwmem, configWrite_idle _ hb]; exact fun hk => nomatch hk
  | imgDim | srcBase | srcStride | dstBase | dstStride => simp only [regWrite, configWrite_idle _ hb]; exact h
  | status | coord | scalar | color | preg _ _ => exact h
  | id | cmd | wsum | nfactor | mapres | pcount | faultAddr | reserved => exact h

/-- A KCOMMIT that succeeds leaves a committed kernel (42_kernel R222). -/
theorem commitKernel_committed {s : State} (hodd : kdimEven s.kdim = false) (hsmall : kdimRange s.kdim = false) :
    (commitKernel s).config.committed := by
  intro _
  refine ⟨(legal_iff s.kdim).mpr ⟨hodd, hsmall⟩, ?_, ?_, rfl, rfl⟩
  · exact (BitVec.toNat_ushiftRight _ _).trans (Nat.shiftRight_eq_div_pow _ _)
  · exact (BitVec.toNat_ushiftRight _ _).trans (Nat.shiftRight_eq_div_pow _ _)

theorem assertReset_committed (s : State) : (assertReset s).config.committed := fun hk => nomatch hk

/-- Settles O59: KCOMMIT establishes it, an idle write of what it depends on clears KVALID, and reset too. -/
theorem stepsKeepTheCommittedKernel : Obligations.StepsKeepTheCommittedKernel := by
  intro s t hs h
  rw [kernelCommitted_iff] at hs ⊢
  exact step_config_induct h hs (fun r v u idle hu => regWrite_committed r v idle hu)
    (fun u hodd hsmall _ => commitKernel_committed hodd hsmall) assertReset_committed

/-! ### KVALID -/

/-- The rule of KVALID for register writes (10_state R53). -/
theorem regWrite_kvalid_idle (r : Reg) (v : Word) {s : State} (h : s.status.busy = false) :
    (regWrite r v s).status.kvalid =
      if r = .kdim ∨ (∃ i, r = .kwmem i) ∨ (r = .ctrl ∧ v.getLsbD 3 ≠ s.ctrl.norm) then false else s.status.kvalid := by
  cases r with
  | ctrl =>
    simp only [regWrite, writeCtrl_idle v h]
    by_cases hn : v.getLsbD 3 = s.ctrl.norm
    · rw [decide_eq_true hn, if_neg (by simpa using hn), Bool.and_true]
    · rw [decide_eq_false hn, if_pos (by simpa using hn), Bool.and_false]
  | kdim => simp [regWrite, writeKdim, configWrite_idle _ h, Status.withKvalid]
  | kwmem i => simp [regWrite, writeKwmem, configWrite_idle _ h, Status.withKvalid]
  | imgDim | srcBase | srcStride | dstBase | dstStride => simp [regWrite, configWrite_idle _ h]
  | status | coord | scalar | color | preg _ _ => simp [regWrite, Status.cleared]
  | id | cmd | wsum | nfactor | mapres | pcount | faultAddr | reserved => simp [regWrite]

/-- KCOMMIT with no pass and a legal KDIM succeeds (42_kernel R222). -/
theorem exec_kcommit_legal {s : State} (hb : s.status.busy = false) (hk : s.kdim.legal) :
    exec .kcommit s = .next (commitKernel s) := by
  obtain ⟨hodd, hsmall⟩ := (legal_iff s.kdim).mp hk
  simp only [exec, execKcommit, hb, hodd, hsmall, rejectIf_false]

/-- A command leaves KVALID, but for a KCOMMIT with no pass and a legal KDIM, which sets it (10_state R53). -/
theorem exec_kvalid {i : Instr} {s t : State} (h : exec i s = .next t) :
    t.status.kvalid = true ↔
      s.status.kvalid = true ∨ (i = .kcommit ∧ s.status.busy = false ∧ s.kdim.legal) := by
  rcases exec_config h with hc | ⟨rfl, hb, hodd, hsmall, rfl⟩
  · have hk : t.status.kvalid = s.status.kvalid := congrArg PassConfig.kvalid hc
    refine ⟨fun ht => .inl (hk ▸ ht), ?_⟩
    rintro (hs | ⟨rfl, hb, hlegal⟩)
    · exact hk.trans hs
    · rw [exec_kcommit_legal hb hlegal] at h
      cases h; rfl
  · exact ⟨fun _ => .inr ⟨rfl, hb, (legal_iff s.kdim).mpr ⟨hodd, hsmall⟩⟩, fun _ => rfl⟩

/-- Settles O39: its rule for register writes and for commands, and the engine's turn keeps the whole configuration. -/
theorem kvalidFollowsItsRule : Obligations.KvalidFollowsItsRule := by
  refine ⟨fun r v s => ?_, fun i s t => exec_kvalid,
    fun pick s => congrArg PassConfig.kvalid (engineTurn_config pick s), fun _ => rfl, rfl⟩
  cases hb : s.status.busy with
  | true =>
    rw [if_neg (fun h => nomatch h.1)]
    exact (regWrite_frozen r v hb).2
  | false => simp only [regWrite_kvalid_idle r v hb, true_and]

/-! ### STATUS -/

/-- The values the block produces in STATUS (10_state R35; 60_exceptions R302; 93 I17). -/
def Status.legal (t : Status) : Prop := t.pres ≠ 3 ∧ t.cecode.toNat ≤ 8 ∧ (t.cerr = true ↔ t.cecode ≠ 0)

theorem statusLegal_iff (s : State) : s.statusLegal ↔ s.status.legal := Iff.rfl

/-- Every rejection has a code of 60_exceptions R302. -/
theorem code_range (c : Rej) : c.code.toNat ≤ 8 ∧ c.code ≠ 0 := by cases c <;> decide

theorem rejected_legal {t : Status} (c : Rej) (h : t.legal) : (t.rejected c).legal :=
  ⟨h.1, (code_range c).1, fun _ => (code_range c).2, fun _ => rfl⟩

theorem cleared_legal {t : Status} (v : Word) (h : t.legal) : (t.cleared v).legal := by
  obtain ⟨hpres, hcode, hcerr⟩ := h
  refine ⟨hpres, ?_⟩
  cases hv : v.getLsbD 2 with
  | true => simp only [Status.cleared, hv]; simp
  | false => simpa only [Status.cleared, hv, Bool.not_false, Bool.and_true] using ⟨hcode, hcerr⟩

theorem ended_legal {t : Status} {p : BitVec 2} (hp : p ≠ 3) (h : t.legal) : (t.ended p).legal := ⟨hp, h.2⟩

theorem stop_pres_ne (w : Stop) : w.pres ≠ 3 := by cases w <;> decide

theorem reset_legal : State.reset.status.legal := ⟨by decide, by decide, by decide⟩

theorem drain_legal {s : State} (h : s.status.legal) : (drain s).status.legal := ended_legal (stop_pres_ne s.stop) h

theorem startPass_legal {s : State} (h : s.status.legal) : (startPass s).status.legal := by
  obtain ⟨-, hcode⟩ := h
  unfold startPass
  split
  · exact ⟨(by decide : (0 : BitVec 2) ≠ 3), hcode⟩
  · exact ⟨(by decide : (0 : BitVec 2) ≠ 3), hcode⟩

/-- A configuration write that does nothing to STATUS but to KVALID changes there KVALID or WIGN (10_state R53, R57). -/
theorem configWrite_status {s t : State} {k : Bool} (h : t.status = { s.status with kvalid := k }) :
    ∃ k w, (configWrite s t).status = { s.status with kvalid := k, wign := w } := by
  unfold configWrite
  split
  · exact ⟨_, _, rfl⟩
  · exact ⟨_, _, h⟩

/-- A register write changes KVALID and WIGN of STATUS, or is the W1C write of STATUS itself (10_state R34, R36, R53, R57). -/
theorem regWrite_status_cases (r : Reg) (v : Word) (s : State) :
    (∃ k w, (regWrite r v s).status = { s.status with kvalid := k, wign := w }) ∨
    (regWrite r v s).status = s.status.cleared v := by
  cases r with
  | ctrl =>
    refine .inl ?_
    cases hb : s.status.busy with
    | true => simp only [regWrite, writeCtrl_busy v hb]; exact ⟨_, _, rfl⟩
    | false => simp only [regWrite, writeCtrl_idle v hb]; exact ⟨_, _, rfl⟩
  | status => exact .inr rfl
  | imgDim | srcBase | srcStride | dstBase | dstStride => exact .inl (configWrite_status (k := s.status.kvalid) rfl)
  | kdim | kwmem _ => exact .inl (configWrite_status (k := false) rfl)
  | coord | scalar | color | preg _ _ => exact .inl ⟨_, _, rfl⟩
  | id | cmd | wsum | nfactor | mapres | pcount | faultAddr | reserved => exact .inl ⟨_, _, rfl⟩

theorem regWrite_legal (r : Reg) (v : Word) {s : State} (h : s.status.legal) : (regWrite r v s).status.legal := by
  rcases regWrite_status_cases r v s with ⟨k, w, e⟩ | e
  · rw [e]; exact h
  · rw [e]; exact cleared_legal v h

theorem exec_legal {i : Instr} {s t : State} (he : exec i s = .next t) (h : s.status.legal) : t.status.legal := by
  rcases exec_cases he with rfl | ⟨c, rfl⟩ | ⟨a, rfl, -, -⟩ | ⟨-, -, -, -, rfl⟩ | ⟨-, -, -, -, rfl⟩ | ⟨-, -, rfl⟩ | ⟨m, rfl⟩ |
    ⟨d, p, rfl⟩ | ⟨c, rfl⟩
  case inr.inl => exact rejected_legal c h
  case inr.inr.inl => exact rejected_legal .busErr h
  case inr.inr.inr.inr.inl => exact startPass_legal h
  case inr.inr.inr.inr.inr.inl => exact drain_legal h
  all_goals exact h

theorem portAccess_legal {a : Access} {s t : State} (ha : portAccess a s = .next t) (h : s.status.legal) :
    t.status.legal := by
  rcases portAccess_cases ha with ⟨r, rfl⟩ | ⟨-, r, rfl⟩ | ⟨-, rfl⟩ | ⟨-, i, -, he⟩
  · exact h
  · exact regWrite_legal r a.data h
  · exact rejected_legal .illegalCmd h
  · exact exec_legal he h

theorem settle_legal : (p : Option Word × State) → p.2.status.legal → (settle p).status.legal
  | (some a, t), h => ended_legal (stop_pres_ne _) h
  | (none, t), h => by
    by_cases hz : pendingSize t.pending = 0
    · rw [settle_last hz]; exact ended_legal (by decide) h
    · rw [settle_more hz]; exact h

theorem engineTurn_legal (pick : Nat) {s : State} (h : s.status.legal) : (engineTurn pick s).status.legal := by
  rcases engineTurn_cases pick s with e | ⟨pol, i, -, -, -, -, -, e⟩
  · rwa [e]
  · rw [e]
    refine settle_legal _ ?_
    rw [attempt_frame]; exact h

/-- Settles O58: each operation on STATUS keeps it legal, and every step is made of these. -/
theorem stepsKeepStatusLegal : Obligations.StepsKeepStatusLegal := by
  intro s t hs h
  rw [statusLegal_iff] at hs ⊢
  refine step_induct_quiet (P := fun t => t.status.legal) h (fun _ _ _ => hs) (fun pick _ => engineTurn_legal pick hs)
    (fun _ _ _ hu => portAccess_legal hu hs) ?raced (fun _ _ _ u _ hu => ?amid)
    (fun ag _ => ?reset) (fun _ => hs) ?write (fun _ _ => hs)
  case raced =>
    intro a ws ag u _ hu
    rw [landAll_frame] at hu
    exact portAccess_legal hu hs
  case amid =>
    have hl := portAccess_legal hu hs
    exact hl
  case reset => exact reset_legal
  case write =>
    intro a bs ag
    rw [otherWrite_frame]; exact hs

/-! ### The running pass -/

/-- What the invariant of a running pass and that of the idle machine's records come to, writes landing during a command left
aside: a command with such writes keeps this too. -/
def State.passKept (s : State) : Prop := s.passRunning ∧ (s.status.busy = false → s.overs = [])

/-- With no pass running there is only the record of overwritten words to keep empty. -/
theorem passKept_idle {s : State} (hb : s.status.busy = false) (ho : s.overs = []) : s.passKept :=
  ⟨fun h => (nomatch hb.symm.trans h), fun _ => ho⟩

/-- A raster has fewer points than PCOUNT has values (10_state R38, R48). -/
theorem raster_lt (s : State) : imgW s * imgH s < 2 ^ 32 :=
  Nat.lt_of_lt_of_eq (Nat.mul_lt_mul'' s.imgDim.width.isLt s.imgDim.height.isLt) (by decide)

/-- With a pixel in the image the raster has points. -/
theorem raster_ne_zero {s : State} (h : dimZero s = false) : imgW s * imgH s ≠ 0 := by
  simp only [dimZero, Bool.or_eq_false_iff, beq_eq_false_iff_ne] at h
  exact Nat.mul_ne_zero h.1 h.2

/-- An accepted START begins a pass with the whole raster pending, or none (43_engine R260, R270). -/
theorem startPass_passKept {s : State} (h : s.passKept) (hb : s.status.busy = false) (hk : s.status.kvalid = true)
    (hp : s.ctrl.policy ≠ none) (hr : s.inReset = false) : (startPass s).passKept := by
  unfold startPass
  split
  · exact passKept_idle hb (h.2 hb)
  · rename_i hz
    have hz : dimZero s = false := by simpa using hz
    refine ⟨fun _ => ⟨hk, rfl, rfl, fun e => hp ((policy_eq_none _).mpr e), rfl, hr, hz, pendingWf_all _ _, ?_, ?_⟩,
      fun h => nomatch h⟩
    · exact fun e => raster_ne_zero hz ((pendingSize_all _ _).symm.trans e)
    · exact (Nat.zero_add _).trans (pendingSize_all _ _)

theorem drain_passKept (s : State) : (drain s).passKept := passKept_idle rfl rfl

/-- A register write keeps the pass: it changes no pass state, and what it may change of STATUS is not the pass's. -/
theorem regWrite_passKept (r : Reg) (v : Word) {s : State} (h : s.passKept) : (regWrite r v s).passKept := by
  obtain ⟨hbusy, hpres, hdone, -⟩ := regWrite_status r v s
  have hovers : (regWrite r v s).overs = s.overs := by rw [regWrite_frame]
  refine ⟨fun hb => ?_, fun hb => hovers.trans (h.2 (hbusy.symm.trans hb))⟩
  have hb := hbusy.symm.trans hb
  obtain ⟨hk, hd, hp, hpol, hstop, hreset, hz, hwf, hne, hcount⟩ := h.1 hb
  obtain ⟨hfrozen, hkvalid⟩ := regWrite_frozen r v hb
  have hd : (regWrite r v s).status.done = false := Bool.eq_false_iff.mpr fun e => (nomatch hd.symm.trans (hdone e))
  generalize regWrite r v s = t at *
  rw [hfrozen]
  exact ⟨hkvalid.trans hk, hd, hpres.trans hp, hpol, hstop, hreset, hz, hwf, hne, hcount⟩

theorem exec_passKept {i : Instr} {s t : State} (he : exec i s = .next t) (hr : s.inReset = false) (h : s.passKept) :
    t.passKept := by
  rcases exec_cases he with rfl | ⟨c, rfl⟩ | ⟨a, rfl, -, -⟩ | ⟨-, hb, -, -, rfl⟩ | ⟨-, hb, hk, hp, rfl⟩ | ⟨-, -, rfl⟩ |
    ⟨m, rfl⟩ | ⟨d, p, rfl⟩ | ⟨c, rfl⟩
  case inr.inr.inr.inl => exact passKept_idle hb (h.2 hb)
  case inr.inr.inr.inr.inl => exact startPass_passKept h hb hk hp hr
  case inr.inr.inr.inr.inr.inl => exact drain_passKept _
  all_goals exact h

theorem portAccess_passKept {a : Access} {s t : State} (ha : portAccess a s = .next t) (h : s.passKept) : t.passKept := by
  rcases portAccess_cases ha with ⟨r, rfl⟩ | ⟨-, r, rfl⟩ | ⟨-, rfl⟩ | ⟨hr, i, -, he⟩
  · exact h
  · exact regWrite_passKept r a.data (s := { s with resp := .ok }) h
  · exact h
  · exact exec_passKept he hr h

/-- An output point that is written leaves the pending points, and PCOUNT counts it; the last one ends the pass (43_engine
R262, R265, R266). -/
theorem settle_passKept {pol : Policy} {pick i : Nat} {s t : State} (hb : s.status.busy = true) (h : s.passKept)
    (hi : pendingPick s.pending pick = some i) (ha : attempt pol i s = (none, t)) : (settle (none, t)).passKept := by
  obtain ⟨p, -, -, rfl⟩ := attempt_written ha
  obtain ⟨hk, hd, hp, hpol, hstop, hreset, hz, hwf, -, hcount⟩ := h.1 hb
  have hsize := pendingSize_remove hwf (pendingPick_has hi)
  by_cases hlast : pendingSize (pendingRemove s.pending i) = 0
  · rw [settle_last hlast]; exact passKept_idle rfl rfl
  · rw [settle_more hlast]
    refine ⟨fun _ => ⟨hk, hd, hp, hpol, hstop, hreset, hz, pendingWf_remove hwf, hlast, ?_⟩,
      fun hb' => (nomatch hb.symm.trans hb')⟩
    have hlt := raster_lt s
    have hpc : (s.pcount + 1).toNat = s.pcount.toNat + 1 := by
      rw [BitVec.toNat_add]; exact Nat.mod_eq_of_lt (by simp; omega)
    calc (s.pcount + 1).toNat + pendingSize (pendingRemove s.pending i)
        = s.pcount.toNat + pendingSize s.pending := by omega
      _ = imgW s * imgH s := hcount

theorem engineTurn_passKept (pick : Nat) {s : State} (h : s.passKept) : (engineTurn pick s).passKept := by
  rcases engineTurn_cases pick s with e | ⟨pol, i, hb, -, -, -, hi, e⟩
  · rwa [e]
  · rw [e]
    cases ha : attempt pol i s with
    | mk o t =>
      cases o with
      | none => exact settle_passKept hb h hi ha
      | some a => exact drain_passKept _

/-- Another master's write records nothing while no pass runs. -/
theorem otherWrite_passKept (a : Word) (bs : List Byte) {s : State} (h : s.passKept) : (otherWrite a bs s).passKept := by
  cases hb : s.status.busy with
  | true =>
    rw [otherWrite_frame]
    exact ⟨h.1, fun hb' => (nomatch hb.symm.trans hb')⟩
  | false => rw [otherWrite_idle a bs hb]; exact h

theorem landAll_passKept (ws : List MemWrite) {s : State} (h : s.passKept) : (landAll ws s).passKept := by
  induction ws generalizing s with
  | nil => exact h
  | cons w ws ih => exact ih (otherWrite_passKept w.addr w.bytes h)

/-- What holds of the pass, every step keeps. -/
theorem step_passKept {s t : State} (h : step s = .next t) (hs : s.passKept) : t.passKept := by
  refine step_induct_quiet (P := State.passKept) h (fun _ _ _ => hs)
    (fun pick ag => engineTurn_passKept pick (s := { s with agenda := ag }) hs) (fun _ _ _ hu => portAccess_passKept hu hs) ?raced (fun _ _ _ u _ hu => ?amid)
    (fun _ _ => passKept_idle rfl rfl) ?resetOff ?write (fun _ _ => hs)
  case raced =>
    exact fun a ws ag u _ hu => portAccess_passKept hu (landAll_passKept ws (s := { s with agenda := ag }) hs)
  case amid =>
    have hk := portAccess_passKept hu hs
    exact hk
  case resetOff =>
    refine fun ag => ⟨fun hb => ?_, hs.2⟩
    obtain ⟨hk, hd, hp, hpol, hstop, -, hrest⟩ := hs.1 hb
    exact ⟨hk, hd, hp, hpol, hstop, rfl, hrest⟩
  case write => exact fun a bs ag => otherWrite_passKept a bs (s := { s with agenda := ag }) hs

/-! ### Writes that land during a command -/

theorem settle_during : (p : Option Word × State) → (settle p).during = p.2.during
  | (some _, _) => rfl
  | (none, t) => by unfold settle; dsimp only; split <;> rfl

theorem engineTurn_during (pick : Nat) (s : State) : (engineTurn pick s).during = s.during := by
  rcases engineTurn_cases pick s with e | ⟨pol, i, -, -, -, -, -, e⟩
  · rw [e]
  · rw [e]
    refine (settle_during _).trans ?_
    rw [attempt_frame]; rfl

theorem exec_during {i : Instr} {s t : State} (he : exec i s = .next t) : t.during = s.during := by
  rcases exec_cases he with rfl | ⟨c, rfl⟩ | ⟨a, rfl, -, -⟩ | ⟨-, -, -, -, rfl⟩ | ⟨-, -, -, -, rfl⟩ | ⟨-, -, rfl⟩ |
    ⟨m, rfl⟩ | ⟨d, p, rfl⟩ | ⟨c, rfl⟩
  case inr.inr.inr.inr.inl => unfold startPass; split <;> rfl
  all_goals rfl

theorem portAccess_during {a : Access} {s t : State} (ha : portAccess a s = .next t) : t.during = s.during := by
  rcases portAccess_cases ha with ⟨r, rfl⟩ | ⟨-, r, rfl⟩ | ⟨-, rfl⟩ | ⟨-, i, -, he⟩
  · rfl
  · rw [regWrite_frame]
  · rfl
  · have hd := exec_during he
    exact hd

/-- Between steps no command has writes landing during it. -/
theorem step_during {s t : State} (h : step s = .next t) (hs : s.during = []) : t.during = [] := by
  refine step_induct_quiet (P := fun t => t.during = []) h (fun _ _ _ => hs) (fun pick ag => (engineTurn_during pick _).trans hs)
    (fun _ _ _ hu => (portAccess_during hu).trans hs) ?raced (fun _ _ _ _ _ _ => rfl)
    (fun _ _ => rfl) (fun _ => hs) ?write (fun _ _ => hs)
  case raced =>
    intro a ws ag u _ hu
    rw [landAll_frame] at hu
    exact (portAccess_during hu).trans hs
  case write =>
    intro a bs ag
    rw [otherWrite_frame]; exact hs

/-- Settles O60: the pass is kept by every kind of step, and no step but a command with writes landing sets those. -/
theorem stepsKeepTheRunningPass : Obligations.StepsKeepTheRunningPass := by
  intro s t hpass hclean h
  obtain ⟨hovers, hduring⟩ := hclean
  obtain ⟨hpass', hovers'⟩ := step_passKept h ⟨hpass, hovers⟩
  exact ⟨hpass', hovers', step_during h hduring⟩

/-! ### Writes of single registers -/

/-- COORD, SCALAR and COLOR are written while a pass runs as while none does (10_state R42, R44, R45, R57). -/
theorem regRead_regWrite_operand {r : Reg} (h : r ∈ [Reg.coord, .scalar, .color]) (v : Word) (s : State) :
    regRead r (regWrite r v s) = v := by
  simp only [List.mem_cons, List.not_mem_nil, or_false] at h
  rcases h with rfl | rfl | rfl
  · exact BitVec.extractLsb'_append_extractLsb'_eq_extractLsb' (by decide) |>.trans (by simp)
  · rfl
  · rfl

/-- A pixel channel reads what was written to it (10_state R50). -/
theorem regRead_regWrite_preg (n : PReg) (c : Channel) (v : Word) (s : State) :
    regRead (.preg n c) (regWrite (.preg n c) v s) = v := by
  simp only [regRead, regWrite, preg_setPreg_same]
  cases c <;> rfl

/-- Settles O40: a configuration write does nothing but set WIGN, and the operands read back what is written. -/
theorem frozenRegistersIgnoreWrites : Obligations.FrozenRegistersIgnoreWrites := by
  intro s v hb
  refine ⟨fun r hr => ?_, fun i => configWrite_busy _ hb, fun r hr => regRead_regWrite_operand hr v s,
    fun n c => regRead_regWrite_preg n c v s, congrArg State.ctrl (writeCtrl_busy v hb)⟩
  simp only [List.mem_cons, List.not_mem_nil, or_false] at hr
  rcases hr with rfl | rfl | rfl | rfl | rfl | rfl
  all_goals exact configWrite_busy _ hb

/-- The bits of STATUS as the host reads it (10_state R35). -/
theorem status_word_getLsbD (t : Status) (i : Nat) : t.word.getLsbD i =
    if i = 0 then t.busy else if i = 1 then t.done else if i = 2 then t.cerr else if i = 3 then t.kvalid
    else if i = 4 then t.wign else if i < 8 then false else if i < 12 then t.cecode.getLsbD (i - 8)
    else t.pres.getLsbD (i - 12) := by
  simp only [Status.word, BitVec.getLsbD_append, BitVec.getLsbD_ofBool]
  match i with
  | 0 | 1 | 2 | 3 | 4 | 5 | 6 | 7 | 8 | 9 | 10 | 11 | 12 | 13 => simp
  | n + 14 => simp

/-- The W1C bits of STATUS: DONE, CERR and WIGN (10_state R35). -/
theorem w1cMask_getLsbD {i : Nat} (hi : i < 32) : (0x00000016 : Word).getLsbD i = decide (i = 1 ∨ i = 2 ∨ i = 4) := by
  revert i; decide

/-- The bits of STATUS outside CECODE (10_state R35). -/
theorem noCecodeMask_getLsbD {i : Nat} (hi : i < 32) : (0xFFFFF0FF : Word).getLsbD i = decide (i < 8 ∨ 12 ≤ i) := by
  revert i; decide

theorem allOnes_getLsbD {i : Nat} (hi : i < 32) : (0xFFFFFFFF : Word).getLsbD i = true := by
  revert i; decide

/-- The W1C write of STATUS, bit by bit of the words (10_state R35, R36). -/
theorem cleared_word (t : Status) (v : Word) : (t.cleared v).word =
    t.word &&& ~~~(v &&& 0x00000016) &&& (if v.getLsbD 2 then 0xFFFFF0FF else 0xFFFFFFFF) := by
  apply BitVec.eq_of_getLsbD_eq
  intro i hi
  have hmask : BitVec.getLsbD (if v.getLsbD 2 then (0xFFFFF0FF : Word) else 0xFFFFFFFF) i =
      (!v.getLsbD 2 || decide (i < 8 ∨ 12 ≤ i)) := by
    cases v.getLsbD 2
    · exact allOnes_getLsbD hi
    · exact noCecodeMask_getLsbD hi
  simp only [BitVec.getLsbD_and, BitVec.getLsbD_not, status_word_getLsbD, Status.cleared, hi, hmask, w1cMask_getLsbD hi]
  match i with
  | 0 | 1 | 2 | 3 | 4 | 5 | 6 | 7 | 12 | 13 => simp
  | 8 | 9 | 10 | 11 => cases v.getLsbD 2 <;> simp
  | n + 14 => simp

/-- Settles O42, bit by bit of the word read. -/
theorem statusWriteClearsItsBits : Obligations.StatusWriteClearsItsBits :=
  fun s v => ⟨rfl, cleared_word s.status v⟩

/-! ### The register map -/

theorem regOffset_kwmem_toNat (i : Fin 225) : (regOffset (.kwmem i)).toNat = 0x100 + 4 * i.val := by
  have hi := i.isLt
  simp only [regOffset, regWordIndex, BitVec.toNat_ofNat]
  omega

/-- Every register's offset is aligned (10_state R30). -/
theorem regOffset_mod (r : Reg) : (regOffset r).toNat % 4 = 0 := by
  simp only [regOffset, BitVec.toNat_ofNat]
  omega

/-- Every register is found at its own offset (10_state R30, R50, R52). -/
theorem regAt_regOffset (r : Reg) : regAt (regOffset r) = r := by
  cases r with
  | preg n c => cases c <;> decide +revert
  | kwmem i =>
    have hi := i.isLt
    have hw : (regOffset (.kwmem i)).toNat / 4 = 64 + i.val := by rw [regOffset_kwmem_toNat]; omega
    unfold regAt regAtWord
    rw [hw, if_neg (by omega), dif_neg (by omega), dif_pos (by omega)]
    simp
  | id | ctrl | status | cmd | imgDim | kdim | srcBase | srcStride | dstBase | dstStride => decide
  | wsum | nfactor | coord | mapres | scalar | color | pcount | faultAddr | reserved => decide

/-- Settles O45: the rows by evaluation, the way back for each kind of register. -/
theorem registerMapHasNoOverlap : Obligations.RegisterMapHasNoOverlap :=
  ⟨by decide, by decide, regOffset_kwmem_toNat, fun r => ⟨regAt_regOffset r, regOffset_mod r⟩⟩

/-! ### The state right after reset -/

/-- Every pixel channel is `+0.0` right after reset (10_state R58). -/
theorem regRead_preg_reset (n : PReg) (c : Channel) : regRead (.preg n c) State.reset = 0 := by
  cases c <;> decide +revert

/-- Settles O51, by evaluation of the reset state. -/
theorem resetValues : Obligations.ResetValues :=
  ⟨rfl, by decide, rfl, regRead_preg_reset, rfl, rfl, rfl⟩

/-- Settles O55: right after reset there is no kernel and no pass to hold anything of. -/
theorem resetMeetsTheInvariants : Obligations.ResetMeetsTheInvariants := by
  obtain ⟨hpass, hovers⟩ : State.reset.passKept := passKept_idle rfl rfl
  exact ⟨wf_reset, ⟨rfl, rfl, rfl, rfl⟩, reset_legal, fun h => (nomatch h), hpass, hovers, rfl⟩

end Sys2Proof.Machine
end

section
/-! The family of 20_memory: what every step does to the form of memory, the addresses of the engine's accesses, the bytes of
a word, the transactions of the register port, and another master's read. -/

namespace Sys2Proof.Machine

/-! ### The form of memory -/

/-- An output point writes one word or none. -/
theorem attempt_memCanonical (pol : Policy) (i : Nat) {s : State} (h : s.memCanonical) :
    (attempt pol i s).2.memCanonical := by
  cases ha : attempt pol i s with
  | mk o t =>
    cases o with
    | none =>
      obtain ⟨p, -, -, rfl⟩ := attempt_written ha
      exact wf_writeWord _ _ h
    | some a =>
      rcases attempt_failed ha with ⟨-, -, rfl⟩ | ⟨-, -, rfl⟩
      · exact h
      · exact wf_writeWord _ _ h

theorem drained_memCanonical {s : State} (h : s.memCanonical) : (drained s).memCanonical := by
  refine drained_induct (P := State.memCanonical) ?written ?failed h
  case written =>
    intro u pol i t _ hu _ ht
    simpa only [ht] using attempt_memCanonical pol i hu
  case failed =>
    intro u pol i a t _ hu _ ht
    have hc : t.memCanonical := by simpa only [ht] using attempt_memCanonical pol i hu
    exact hc

/-- A stopped pass leaves the memory of the points that drained. -/
theorem drain_memCanonical {s : State} (h : s.memCanonical) : (drain s).memCanonical := drained_memCanonical h

theorem settle_memCanonical : (p : Option Word × State) → p.2.memCanonical → (settle p).memCanonical
  | (some a, t), h => by
    rw [settle_failed]
    exact drain_memCanonical (s := { t with faultAddr := a }.stopBy .busErr) h
  | (none, t), h => by
    by_cases hz : pendingSize t.pending = 0
    · rw [settle_last hz]; exact h
    · rw [settle_more hz]; exact h

theorem engineTurn_memCanonical (pick : Nat) {s : State} (h : s.memCanonical) : (engineTurn pick s).memCanonical := by
  rcases engineTurn_cases pick s with e | ⟨pol, i, -, -, -, -, -, e⟩
  · rwa [e]
  · rw [e]; exact settle_memCanonical _ (attempt_memCanonical pol i h)

/-- Of the commands only ABORT writes memory, by the drain of the pass (20_memory R95; 43_engine R267, R268). -/
theorem exec_mem {i : Instr} {s t : State} (he : exec i s = .next t) : t.mem = s.mem ∨ t = drain (s.stopBy .aborted) := by
  rcases exec_cases he with rfl | ⟨c, rfl⟩ | ⟨a, rfl, -, -⟩ | ⟨-, -, -, -, rfl⟩ | ⟨-, -, -, -, rfl⟩ | ⟨-, -, rfl⟩ |
    ⟨m, rfl⟩ | ⟨d, p, rfl⟩ | ⟨c, rfl⟩
  case inr.inr.inr.inr.inl => unfold startPass; split <;> exact .inl rfl
  case inr.inr.inr.inr.inr.inl => exact .inr rfl
  all_goals exact .inl rfl

theorem exec_memCanonical {i : Instr} {s t : State} (he : exec i s = .next t) (h : s.memCanonical) : t.memCanonical := by
  rcases exec_mem he with e | rfl
  · unfold State.memCanonical; rw [e]; exact h
  · exact drain_memCanonical h

theorem portAccess_memCanonical {a : Access} {s t : State} (ha : portAccess a s = .next t) (h : s.memCanonical) :
    t.memCanonical := by
  rcases portAccess_cases ha with ⟨r, rfl⟩ | ⟨-, r, rfl⟩ | ⟨-, rfl⟩ | ⟨-, i, -, he⟩
  · exact h
  · rw [regWrite_frame]; exact h
  · exact h
  · exact exec_memCanonical he h

/-- The writes in flight at a reset are words at the points' addresses (70_reset R341). -/
theorem wildLoop_memCanonical (ks : List Nat) {s : State} (h : s.memCanonical) : (wildLoop ks s).memCanonical := by
  induction ks generalizing s with
  | nil => exact h
  | cons k ks ih =>
    unfold wildLoop
    split
    · exact h
    · exact ih (wf_writeWord _ _ h)

theorem abandonPass_memCanonical {s : State} (h : s.memCanonical) : (abandonPass s).memCanonical := by
  unfold abandonPass
  split
  · exact wildLoop_memCanonical _ (drained_memCanonical h)
  · exact h

/-- Settles O56: every write of memory, whoever makes it, is one of bytes or words. -/
theorem stepsKeepMemoryCanonical : Obligations.StepsKeepMemoryCanonical := by
  intro s t hs h
  refine step_induct_quiet (P := State.memCanonical) h (fun _ _ _ => hs)
    (fun pick ag => engineTurn_memCanonical pick (s := { s with agenda := ag }) hs)
    (fun _ _ _ hu => portAccess_memCanonical hu hs) ?raced ?amid
    (fun ag _ => abandonPass_memCanonical (s := { s with agenda := ag }) hs) (fun _ => hs)
    (fun a bs ag => wf_otherWrite a bs (s := { s with agenda := ag }) hs) (fun _ _ => hs)
  case raced => exact fun a ws ag u _ hu => portAccess_memCanonical hu (wf_landAll ws (s := { s with agenda := ag }) hs)
  case amid => exact fun a ws ag u _ hu => wf_landWrites ws (portAccess_memCanonical hu hs)

/-! ### Raster addresses -/

/-- `PixelAddr` as a number (20_memory R99). -/
theorem pixelAddr_toNat (base stride : Word) (x y : Nat) :
    (pixelAddr base stride x y).toNat = (base.toNat + y * stride.toNat + 4 * x) % 2 ^ 32 := by
  have hrow : y % 2 ^ 32 * stride.toNat % 2 ^ 32 = y * stride.toNat % 2 ^ 32 := Nat.mod_mul_mod _ _ _
  have hfour : (4 : Word).toNat = 4 := rfl
  simp only [pixelAddr, BitVec.toNat_add, BitVec.toNat_mul, BitVec.toNat_ofNat, hrow, hfour]
  omega

/-- `PixelAddr` with the stride read as the negative number `stride - 2^32`: whole turns of the address space do not count
(20_memory R99). -/
theorem pixelAddr_toNat_negStride (base stride : Word) (x y : Nat) :
    ((pixelAddr base stride x y).toNat : Int) =
      ((base.toNat : Int) + y * ((stride.toNat : Int) - 2 ^ 32) + 4 * x) % 2 ^ 32 := by
  have turns : (base.toNat : Int) + y * ((stride.toNat : Int) - 2 ^ 32) + 4 * x =
      (base.toNat + y * stride.toNat + 4 * x) - 2 ^ 32 * y := by
    rw [Int.mul_sub]; omega
  rw [turns, Int.sub_mul_emod_self_left, pixelAddr_toNat]
  omega

/-- Settles O22: both addresses are `PixelAddr`. -/
theorem pixelAddressFormula : Obligations.PixelAddressFormula :=
  fun _ x y _ _ => ⟨pixelAddr_toNat _ _ x y, pixelAddr_toNat _ _ x y, pixelAddr_toNat_negStride _ _ x y,
    pixelAddr_toNat_negStride _ _ x y⟩

/-- From an aligned base by aligned rows every pixel's address is aligned (20_memory R99, R100). -/
theorem pixelAddr_aligned {base stride : Word} (hb : base.toNat % 4 = 0) (hs : stride.toNat % 4 = 0) (x y : Nat) :
    (pixelAddr base stride x y).toNat % 4 = 0 := by
  have hrow : y * stride.toNat % 4 = 0 := by rw [Nat.mul_mod, hs, Nat.mul_zero]
  rw [pixelAddr_toNat, Nat.mod_mod_of_dvd _ (by decide)]
  omega

/-- The taps of an output point are read row by row of the kernel (42_kernel R229, R237). -/
theorem tapAddrs_rows (s : State) (pol : Policy) (n : Nat) :
    tapAddrs s pol n = (List.range (2 * s.kdim.kb.toNat + 1)).flatMap (fun j =>
      (List.range (2 * s.kdim.ka.toNat + 1)).map (fun i => s.tapAddr pol (n % imgW s : Nat) (n / imgW s : Nat) j i)) := by
  simp only [tapAddrs_eq, taps, tapGrid, List.map_flatMap, List.map_map, Function.comp_def]

/-! ### The bytes of a word -/

/-- Byte `k` of a word in memory is its bits `[8k+7:8k]` (20_memory R96). -/
theorem readWord_byte (m : Memory) (a : Word) {k : Nat} (hk : k < 4) :
    (readWord m a).extractLsb' (8 * k) 8 = readByte m (byteAddr a k) := by
  unfold readWord wordOfBytes
  apply BitVec.eq_of_getLsbD_eq
  intro i hi
  simp only [BitVec.getLsbD_extractLsb', BitVec.getLsbD_append, hi, decide_true, Bool.true_and]
  obtain rfl | rfl | rfl | rfl : k = 0 ∨ k = 1 ∨ k = 2 ∨ k = 3 := by omega
  · simp [hi]
  · simp [hi]
  · simp [hi, show ¬ 16 + i < 8 by omega, show 16 + i - 8 = 8 + i by omega]
  · simp [hi, show ¬ 24 + i < 8 by omega, show 24 + i - 8 = 16 + i by omega, show ¬ 16 + i < 8 by omega,
      show 16 + i - 8 = 8 + i by omega]

/-- Settles O23: the addresses are those of the rules by definition, aligned as `PixelAddr` is, and a written word's bytes
are those of the word read back. -/
theorem engineAccessesAreAlignedWords : Obligations.EngineAccessesAreAlignedWords := by
  refine ⟨fun _ _ _ _ => rfl, fun s pol n => ⟨tapAddrs_rows s pol n, rfl⟩, fun s hs => ?aligned, fun m a v k hk => ?bytes⟩
  case aligned =>
    obtain ⟨hsb, hss, hdb, hds⟩ := hs
    exact ⟨fun _ _ _ => pixelAddr_aligned hsb hss _ _, fun _ => pixelAddr_aligned hdb hds _ _⟩
  case bytes =>
    refine ⟨byteAddr_eq a k, readWord_byte m a hk, fun hm => ?_⟩
    rw [← readWord_byte _ a hk, readWord_writeWord_same a v hm]

/-! ### Transactions -/

/-- The transactions the port accepts (20_memory R91). -/
theorem accepted_iff (t : Access) :
    t.accepted = true ↔ t.size = 4 ∧ t.offset.toNat % 4 = 0 ∧ (t.isWrite = true → t.enables = 0xF) := by
  simp only [Access.accepted, aligned, Bool.and_eq_true, Bool.or_eq_true, Bool.not_eq_true', beq_iff_eq, and_assoc]
  cases t.isWrite <;> simp

/-- Settles O43: the three causes are those for which a transaction is not accepted. -/
theorem otherTransactionsGetAnError : Obligations.OtherTransactionsGetAnError := by
  intro s t hr h
  have hn : ¬ t.accepted = true := by
    rw [accepted_iff]
    rintro ⟨hsize, hoffset, henables⟩
    rcases h with h | h | ⟨hwrite, h⟩
    · exact h hsize
    · exact h hoffset
    · exact h (henables hwrite)
  simp only [portAccess, hr, hn, Bool.false_eq_true, Bool.not_false, if_true, if_false]

/-- An aligned 4-byte read answers the register at its offset (20_memory R90). -/
theorem portAccess_read {o : BitVec 12} (en : BitVec 4) (v : Word) {s : State} (hr : s.inReset = false)
    (ho : o.toNat % 4 = 0) :
    portAccess ⟨false, o, 4, en, v⟩ s = .next { s with resp := .data (regRead (regAt o) s) } := by
  have ha : Access.accepted ⟨false, o, 4, en, v⟩ = true := (accepted_iff _).mpr ⟨rfl, ho, fun h => nomatch h⟩
  simp only [portAccess, hr, ha, Bool.false_eq_true, Bool.not_true, if_false]

/-- An aligned full write is the write of the register at its offset (20_memory R90, R93). -/
theorem portAccess_write {o : BitVec 12} (v : Word) {s : State} (hr : s.inReset = false) (ho : o.toNat % 4 = 0) :
    portAccess ⟨true, o, 4, 0xF, v⟩ s = portWrite (regAt o) v { s with resp := .ok } := by
  have ha : Access.accepted ⟨true, o, 4, 0xF, v⟩ = true := (accepted_iff _).mpr ⟨rfl, ho, fun _ => rfl⟩
  simp only [portAccess, hr, ha, Bool.false_eq_true, Bool.not_true, if_true, if_false]

theorem portWrite_of_ne_cmd {r : Reg} (v : Word) (s : State) (h : r ≠ .cmd) : portWrite r v s = .next (regWrite r v s) :=
  if_neg h

/-- A full write of a command's word to CMD runs the command (20_memory R93; 30_encoding R127). -/
theorem portAccess_cmd {w : Word} {i : Instr} {s : State} (hr : s.inReset = false) (hd : decode w = .ok i) :
    portAccess ⟨true, 0x00C, 4, 0xF, w⟩ s = exec i { s with resp := .ok } := by
  rw [portAccess_write w hr (by decide), show regAt 0x00C = .cmd from regAt_regOffset .cmd]
  simp only [portWrite, if_true, command, hd]

/-- The reserved offsets (10_state R30, R52). -/
theorem regAt_reserved {o : BitVec 12} (ho : o.toNat % 4 = 0)
    (h : (0x048 ≤ o.toNat ∧ o.toNat < 0x080) ∨ (0x0C0 ≤ o.toNat ∧ o.toNat < 0x100) ∨ 0x484 ≤ o.toNat) :
    regAt o = .reserved := by
  unfold regAt regAtWord
  rw [if_neg (by omega), dif_neg (by omega), dif_neg (by omega)]

/-- Settles O44: the register there is the reserved one, which reads 0 and takes no write. -/
theorem reservedOffsetsReadZero : Obligations.ReservedOffsetsReadZero := by
  intro s o en v hr ho h
  have hreg := regAt_reserved ho h
  refine ⟨?read, ?write⟩
  case read => rw [portAccess_read en v hr ho, hreg]; rfl
  case write => rw [portAccess_write v hr ho, hreg]; rfl

/-! ### Commands with writes landing during them -/

theorem rejectIf_total {b : Bool} {c : Rej} {s : State} {k : Result} (h : ∃ t, k = .next t) :
    ∃ t, rejectIf b c s k = .next t := by
  cases b
  · exact h
  · exact ⟨_, rfl⟩

theorem withPolicy_total {s : State} {k : Policy → Result} (h : ∀ pol, ∃ t, k pol = .next t) :
    ∃ t, withPolicy s k = .next t := by
  cases hp : s.ctrl.policy with
  | none => exact ⟨_, withPolicy_none hp⟩
  | some pol => rw [withPolicy_some hp]; exact h pol

/-- Every command has a next state in every state: it has its effect or is rejected (60_exceptions R300, R310). -/
theorem exec_total (i : Instr) (s : State) : ∃ t, exec i s = .next t := by
  cases i with
  | kcommit => exact rejectIf_total (rejectIf_total (rejectIf_total ⟨_, rfl⟩))
  | start => exact rejectIf_total (rejectIf_total (withPolicy_total fun _ => ⟨_, rfl⟩))
  | map => exact withPolicy_total fun _ => rejectIf_total ⟨_, rfl⟩
  | sample d => exact rejectIf_total (withPolicy_total fun _ => rejectIf_total ⟨_, rfl⟩)
  | conv1 d => exact rejectIf_total (rejectIf_total (withPolicy_total fun _ => rejectIf_total ⟨_, rfl⟩))
  | nop | abort | padd _ _ _ | pscale _ _ | pdiv _ _ | tocolor _ | fromcolor _ => exact ⟨_, rfl⟩

/-- While a pass runs the writes land before the transaction (70_reset R346; log 21). -/
theorem accessDuring_busy (t : Access) (ws : List MemWrite) {s : State} (hb : s.status.busy = true) :
    accessDuring t ws s = portAccess t (landAll ws s) := if_pos hb

/-- With no pass running the writes have all landed after the transaction (20_memory R105, R108). -/
theorem accessDuring_idle {t : Access} {ws : List MemWrite} {s u : State} (hb : s.status.busy = false)
    (h : portAccess t { s with during := ws } = .next u) :
    accessDuring t ws s = .next { u with during := [], mem := landWrites u.mem ws }.tick := by
  simp only [accessDuring, hb, h, Bool.false_eq_true, if_false]

theorem landAll_inReset (ws : List MemWrite) (s : State) : (landAll ws s).inReset = s.inReset := by rw [landAll_frame]

/-- Settles O5: a transaction at CMD runs its command, alone, amid the writes, or after those that raced with a pass. -/
theorem commandWriteRunsTheDecodedInstruction : Obligations.CommandWriteRunsTheDecodedInstruction := by
  refine ⟨fun s w i rest hr ha hd => ?alone, fun s w ws i rest hr ha hd => ⟨fun hb => ?amid, fun hb => ?raced⟩⟩
  case alone => exact (step_access ha).trans (portAccess_cmd hr hd)
  case amid =>
    obtain ⟨u, hu⟩ := exec_total i { s with agenda := rest, resp := .ok, during := ws }
    have hport : portAccess ⟨true, 0x00C, 4, 0xF, w⟩ { s with agenda := rest, during := ws } = .next u :=
      (portAccess_cmd (s := { s with agenda := rest, during := ws }) hr hd).trans hu
    exact ⟨u, _, hu, (step_accessDuring ha).trans (accessDuring_idle hb hport), rfl⟩
  case raced =>
    have hland : (landAll ws { s with agenda := rest }).inReset = false := (landAll_inReset ws _).trans hr
    rw [step_accessDuring ha, accessDuring_busy _ ws (s := { s with agenda := rest }) hb]
    exact portAccess_cmd hland hd

/-! ### What registers read back -/

/-- The two halves of a word, put together again, are the word. -/
theorem halves_append (v : Word) : v.extractLsb' 16 16 ++ v.extractLsb' 0 16 = v :=
  BitVec.extractLsb'_append_extractLsb'_eq_extractLsb' (by decide) |>.trans (by simp)

theorem lowSixMask_getLsbD {i : Nat} (hi : i < 32) : (0x0000003F : Word).getLsbD i = decide (i < 6) := by
  revert i; decide

theorem lowHalfMask_getLsbD {i : Nat} (hi : i < 32) : (0x0000FFFF : Word).getLsbD i = decide (i < 16) := by
  revert i; decide

theorem highHalfMask_getLsbD {i : Nat} (hi : i < 32) : (0xFFFF0000 : Word).getLsbD i = decide (16 ≤ i) := by
  revert i; decide

/-- CTRL holds bits [5:0] of the word it is made of (10_state R32). -/
theorem ctrl_word_ofWord (v : Word) : (Ctrl.ofWord v).word = v &&& 0x0000003F := by
  apply BitVec.eq_of_getLsbD_eq
  intro i hi
  simp only [BitVec.getLsbD_and, lowSixMask_getLsbD hi, Ctrl.word, Ctrl.ofWord, BitVec.getLsbD_append, BitVec.getLsbD_ofBool,
    BitVec.getLsbD_extractLsb']
  match i with
  | 0 | 1 | 2 | 3 | 4 | 5 => simp
  | n + 6 => simp [show ¬ n + 6 < 2 by omega, show ¬ n + 6 < 6 by omega]

theorem regRead_regWrite_ctrl (v : Word) {s : State} (hb : s.status.busy = false) :
    regRead .ctrl (regWrite .ctrl v s) = v &&& 0x0000003F := by
  simp only [regRead, regWrite, writeCtrl_idle v hb]
  exact ctrl_word_ofWord v

theorem regRead_regWrite_imgDim (v : Word) {s : State} (hb : s.status.busy = false) :
    regRead .imgDim (regWrite .imgDim v s) = v := by
  simp only [regRead, regWrite, configWrite_idle _ hb, halves_append]

/-- KDIM takes KW and KH of the word, and keeps KA and KB (10_state R39). -/
theorem regRead_regWrite_kdim (v : Word) {s : State} (hb : s.status.busy = false) :
    regRead .kdim (regWrite .kdim v s) = (regRead .kdim s &&& 0xFFFF0000) ||| (v &&& 0x0000FFFF) := by
  simp only [regRead, regWrite, writeKdim, configWrite_idle _ hb]
  apply BitVec.eq_of_getLsbD_eq
  intro i hi
  simp only [BitVec.getLsbD_or, BitVec.getLsbD_and, highHalfMask_getLsbD hi, lowHalfMask_getLsbD hi, BitVec.getLsbD_append,
    BitVec.getLsbD_extractLsb']
  by_cases h8 : i < 8
  · simp [h8, show ¬ 16 ≤ i by omega, show i < 16 by omega]
  · by_cases h16 : i < 16
    · simp [h8, h16, show ¬ 16 ≤ i by omega, show i - 8 < 8 by omega, show 8 + (i - 8) = i by omega]
    · simp [h8, h16, show 16 ≤ i by omega, show ¬ i - 8 < 8 by omega]

/-- The base and stride registers hold the word without its two low bits (10_state R40, R41). -/
theorem regRead_regWrite_base {r : Reg} (h : r ∈ [Reg.srcBase, .srcStride, .dstBase, .dstStride]) (v : Word) {s : State}
    (hb : s.status.busy = false) : regRead r (regWrite r v s) = v &&& 0xFFFFFFFC := by
  simp only [List.mem_cons, List.not_mem_nil, or_false] at h
  rcases h with rfl | rfl | rfl | rfl
  all_goals simp only [regRead, regWrite, configWrite_idle _ hb, dropLow]

theorem regRead_regWrite_kwmem (i : Fin 225) (v : Word) {s : State} (hb : s.status.busy = false) :
    regRead (.kwmem i) (regWrite (.kwmem i) v s) = v := by
  simp [regRead, regWrite, writeKwmem, configWrite_idle _ hb]

/-- A write of a read-only or reserved register changes nothing (10_state R30; 20_memory R94). -/
theorem regWrite_readOnly {r : Reg} (h : r ∈ [Reg.id, .wsum, .nfactor, .mapres, .pcount, .faultAddr, .reserved]) (v : Word)
    (s : State) : regWrite r v s = s := by
  simp only [List.mem_cons, List.not_mem_nil, or_false] at h
  rcases h with rfl | rfl | rfl | rfl | rfl | rfl | rfl
  all_goals rfl

/-- A write of one channel of a pixel is that channel's new value, and leaves the others (10_state R50). -/
theorem pixel_get_set (p : Pixel) (c c' : Channel) (v : Word) : (p.set c v).get c' = if c' = c then v else p.get c' := by
  cases c <;> cases c' <;> rfl

/-- A write of one pixel channel leaves every other channel of every pixel (10_state R50). -/
theorem regWrite_preg_other {n n' : PReg} {c c' : Channel} (v : Word) (s : State) (h : n' ≠ n ∨ c' ≠ c) :
    (preg (regWrite (.preg n c) v s) n').get c' = (preg s n').get c' := by
  by_cases hn : n' = n
  · subst hn
    have hc : c' ≠ c := h.resolve_left fun hne => hne rfl
    simp only [regWrite, preg_setPreg_same, pixel_get_set, hc, if_false]
  · simp only [regWrite, preg_setPreg_other s _ hn]

/-- A write of one KWMEM word changes that word, and clears KVALID (10_state R52, R53). -/
theorem regWrite_kwmem_idle (i : Fin 225) (v : Word) {s : State} (hb : s.status.busy = false) :
    regWrite (.kwmem i) v s = { s with kwmem := s.kwmem.set i v, status := { s.status with kvalid := false } } :=
  configWrite_idle _ hb

/-- The register port at a register's offset: a read answers the register, and a write is the register's (20_memory R90). -/
theorem step_access_register {s : State} (r : Reg) (en : BitVec 4) (v : Word) (rest : List Event) (hr : s.inReset = false) :
    (s.agenda = .access ⟨false, regOffset r, 4, en, v⟩ :: rest →
      step s = .next { s with agenda := rest, resp := .data (regRead r s) }) ∧
    (r ≠ .cmd → s.agenda = .access ⟨true, regOffset r, 4, 0xF, v⟩ :: rest →
      step s = .next (regWrite r v { s with agenda := rest, resp := .ok })) := by
  refine ⟨fun ha => ?read, fun hc ha => ?write⟩
  case read =>
    have hread : regRead r { s with agenda := rest } = regRead r s := by cases r <;> rfl
    rw [step_access ha, portAccess_read en v (s := { s with agenda := rest }) hr (regOffset_mod r), regAt_regOffset, hread]
  case write =>
    rw [step_access ha, portAccess_write v (s := { s with agenda := rest }) hr (regOffset_mod r), regAt_regOffset,
      portWrite_of_ne_cmd _ _ hc]

/-- Settles O38: the port, what each register reads back, and the frame of each write. -/
theorem registersReadBackWhatWasWritten : Obligations.RegistersReadBackWhatWasWritten := by
  refine ⟨fun s r en v rest hr => step_access_register r en v rest hr, fun s v hb => ?readBack, fun s v hb => ?frame⟩
  case readBack =>
    exact ⟨regRead_regWrite_ctrl v hb, regRead_regWrite_imgDim v hb, regRead_regWrite_kdim v hb,
      fun r hr => regRead_regWrite_base hr v hb, fun r hr => regRead_regWrite_operand hr v s,
      fun n c => regRead_regWrite_preg n c v s, fun i => regRead_regWrite_kwmem i v hb,
      fun r hr => regWrite_readOnly hr v s, rfl, rfl, rfl⟩
  case frame =>
    exact ⟨⟨_, rfl⟩, rfl, rfl, ⟨_, configWrite_idle _ hb⟩, ⟨_, configWrite_idle _ hb⟩, ⟨_, configWrite_idle _ hb⟩,
      ⟨_, configWrite_idle _ hb⟩, ⟨_, configWrite_idle _ hb⟩, ⟨_, configWrite_idle _ hb⟩,
      fun i => ⟨_, regWrite_kwmem_idle i v hb, fun k hk => Vector.getElem_set_ne _ _ fun e => hk (Fin.ext e.symm)⟩,
      fun n c => ⟨_, rfl, fun n' c' h => regWrite_preg_other v s h⟩⟩

/-! ### Another master's read -/

/-- The values a word has held since the pass began: the present one, and those that recorded writes replaced
(20_memory R108). -/
theorem mem_heldValues {s : State} {a v : Word} :
    v ∈ heldValues s a ↔ v = readWord s.mem a ∨ ∃ o ∈ s.overs, o.addr = a ∧ v = o.old := by
  simp only [heldValues, List.mem_cons, List.mem_map, List.mem_filter, beq_iff_eq, and_assoc, eq_comm (a := v)]

/-- Another master's read answers a value its word has held since the pass began, the present one with no pass
(20_memory R106, R107; 70_reset R347). -/
theorem otherRead_held (a : Word) (s : State) :
    ∃ v, otherRead a s = { s with resp := .memData v }.tick ∧ v ∈ heldValues s (wordBase a) ∧
      (s.status.busy = false → v = readWord s.mem (wordBase a)) := by
  refine ⟨_, rfl, ?_, fun hb => ?_⟩
  · split
    · have hlt : Config.earlyView s.free % (heldValues s (wordBase a)).length < (heldValues s (wordBase a)).length :=
        Nat.mod_lt _ (Nat.succ_pos _)
      rw [List.getD_eq_getElem?_getD, List.getElem?_eq_getElem hlt]
      exact List.getElem_mem hlt
    · exact List.mem_cons_self
  · simp only [hb, Bool.false_and, Bool.false_eq_true, if_false]

/-- Settles O53: the value read is one its word has held. -/
theorem earlyReadSeesAHeldValue : Obligations.EarlyReadSeesAHeldValue := by
  intro s a rest ha
  obtain ⟨v, hread, hheld, hidle⟩ := otherRead_held a { s with agenda := rest }
  exact ⟨_, v, (step_memRead ha).trans (congrArg _ hread), rfl, mem_heldValues.mp hheld, hidle⟩

end Sys2Proof.Machine
end

section
/-! The family of 30_encoding: the fields of a command word and those a command reads, which words decode to an instruction,
and what commands do while a pass runs. -/

namespace Sys2Proof.Machine

/-! ### The fields of a word -/

/-- A word's fields, laid out again, are the word: each bit is found in the one field that holds it (30_encoding R121). -/
theorem toWord_ofWord (w : Word) : (CmdFields.ofWord w).toWord = w := by
  apply BitVec.eq_of_getLsbD_eq
  intro i hi
  simp only [CmdFields.toWord, CmdFields.ofWord, BitVec.getLsbD_append, BitVec.getLsbD_extractLsb']
  grind

/-- Fields laid out as a word are found again in it (30_encoding R121). -/
theorem ofWord_toWord (f : CmdFields) : CmdFields.ofWord f.toWord = f := by
  simp (disch := omega) only [CmdFields.ofWord, CmdFields.toWord, BitVec.extractLsb'_append_eq_of_add_le,
    BitVec.extractLsb'_append_eq_of_le, Nat.reduceSub, BitVec.extractLsb'_eq_self]

/-- A word is the encoding of an instruction when its fields are those the assembler writes. -/
theorem eq_encode_iff (w : Word) (i : Instr) : w = encode i ↔ CmdFields.ofWord w = i.fields := by
  constructor
  · rintro rfl; exact ofWord_toWord i.fields
  · intro h; rw [encode, ← h, toWord_ofWord]

/-! ### The fields a command reads -/

/-- The fields that select an instruction, RSV, OP and those its command reads, with 0 for the others (30_encoding R124). -/
def readBy (f : CmdFields) : Instr → CmdFields
  | .nop | .kcommit | .start | .abort | .map => ⟨f.op, 0, 0, 0, f.rsv⟩
  | .sample _ | .conv1 _ | .fromcolor _ => ⟨f.op, f.d, 0, 0, f.rsv⟩
  | .padd _ _ _ => f
  | .pscale _ _ | .pdiv _ _ => ⟨f.op, f.d, f.s1, 0, f.rsv⟩
  | .tocolor _ => ⟨f.op, 0, f.s1, 0, f.rsv⟩

@[simp] theorem readBy_op (f : CmdFields) (i : Instr) : (readBy f i).op = f.op := by cases i <;> rfl

@[simp] theorem readBy_rsv (f : CmdFields) (i : Instr) : (readBy f i).rsv = f.rsv := by cases i <;> rfl

@[simp] theorem fields_op (i : Instr) : i.fields.op = i.opcode := by cases i <;> rfl

@[simp] theorem fields_rsv (i : Instr) : i.fields.rsv = 0 := by cases i <;> rfl

/-- The bitwise AND of two words' fields. -/
def andFields (f g : CmdFields) : CmdFields := ⟨f.op &&& g.op, f.d &&& g.d, f.s1 &&& g.s1, f.s2 &&& g.s2, f.rsv &&& g.rsv⟩

theorem ofWord_and (w m : Word) : CmdFields.ofWord (w &&& m) = andFields (CmdFields.ofWord w) (CmdFields.ofWord m) := by
  simp only [CmdFields.ofWord, andFields, BitVec.extractLsb'_and]

/-- The fields with every bit set. -/
def onesFields : CmdFields := ⟨.allOnes 8, .allOnes 2, .allOnes 2, .allOnes 2, .allOnes 18⟩

/-- An instruction's mask is 1 in the fields that select it, and 0 in the others. -/
theorem ofWord_mask (i : Instr) : CmdFields.ofWord i.mask = readBy onesFields i := by
  cases i <;> simp only [Instr.mask, readBy] <;> decide

theorem andFields_readBy_ones (f : CmdFields) (i : Instr) : andFields f (readBy onesFields i) = readBy f i := by
  cases i <;>
    simp only [andFields, readBy, onesFields, BitVec.and_allOnes, BitVec.ofNat_eq_ofNat, BitVec.and_zero]

/-- The mask of an instruction keeps exactly the fields that select it (30_encoding R124). -/
theorem ofWord_and_mask (w : Word) (i : Instr) : CmdFields.ofWord (w &&& i.mask) = readBy (CmdFields.ofWord w) i := by
  rw [ofWord_and, ofWord_mask, andFields_readBy_ones]

/-! ### Which words decode -/

/-- Settles O1, by evaluation of the decoder. -/
theorem specWordsDecode : Obligations.SpecWordsDecode :=
  ⟨rfl, rfl, rfl, rfl, rfl, rfl, rfl, rfl, rfl, rfl, rfl, rfl⟩

/-- A field that the command does not read has no part in decoding it (30_encoding R124). -/
theorem decodeOp_readBy {f : CmdFields} {i : Instr} (h : f.op = i.opcode) : decodeOp (readBy f i) = decodeOp f := by
  obtain ⟨op, d, s1, s2, rsv⟩ := f
  cases i <;> cases h <;> rfl

/-- The fields the assembler writes decode to the instruction, whatever RSV (30_encoding R123, R131). -/
theorem decodeOp_fields (i : Instr) (rsv : BitVec 18) : decodeOp { i.fields with rsv := rsv } = .ok i := by
  cases i <;> rfl

/-- OP and the fields a command reads give an instruction exactly when they are those the assembler writes for it. -/
theorem decodeOp_eq_ok_iff (f : CmdFields) (i : Instr) :
    decodeOp f = .ok i ↔ readBy f i = { i.fields with rsv := f.rsv } := by
  constructor
  · intro h
    obtain ⟨op, d, s1, s2, rsv⟩ := f
    unfold decodeOp at h
    split at h
    all_goals cases h
    all_goals
      rename_i hop
      subst hop
      rfl
  · intro h
    have hop : f.op = i.opcode := by simpa using congrArg CmdFields.op h
    rw [← decodeOp_readBy hop, h, decodeOp_fields]

/-- A word decodes to an instruction exactly when the fields that select it are those the assembler writes. -/
theorem decode_eq_ok_iff (w : Word) (i : Instr) : decode w = .ok i ↔ readBy (CmdFields.ofWord w) i = i.fields := by
  unfold decode CmdFields.rsvZero
  by_cases hr : (CmdFields.ofWord w).rsv = 0
  · rw [if_pos (beq_iff_eq.mpr hr), decodeOp_eq_ok_iff, hr, ← fields_rsv i]
  · rw [if_neg (mt beq_iff_eq.mp hr)]
    exact ⟨nofun, fun h => absurd (by simpa using congrArg CmdFields.rsv h) hr⟩

/-- A word decodes to an instruction exactly when its mask leaves the encoding. -/
theorem decode_eq_ok_iff_mask (w : Word) (i : Instr) : decode w = .ok i ↔ w &&& i.mask = encode i := by
  rw [decode_eq_ok_iff, eq_encode_iff, ofWord_and_mask]

/-- A word that decodes has RSV 0 and the command's OP (30_encoding R125). -/
theorem legal_of_decode {w : Word} {i : Instr} (h : decode w = .ok i) :
    (CmdFields.ofWord w).rsv = 0 ∧ (CmdFields.ofWord w).op = i.opcode := by
  have hf := (decode_eq_ok_iff w i).mp h
  exact ⟨by simpa using congrArg CmdFields.rsv hf, by simpa using congrArg CmdFields.op hf⟩

/-- OP alone, zero-extended, is the word whose other fields are 0. -/
theorem toWord_opOnly (b : BitVec 8) : CmdFields.toWord ⟨b, 0, 0, 0, 0⟩ = b.zeroExtend 32 := by
  simp [CmdFields.toWord, BitVec.setWidth_eq_append]

/-- `0xFFFFC0FF` is the mask of RSV and OP, that of every command without register fields (30_encoding R121). -/
theorem and_rsvOp (w : Word) : w &&& 0xFFFFC0FF =
    CmdFields.toWord ⟨(CmdFields.ofWord w).op, 0, 0, 0, (CmdFields.ofWord w).rsv⟩ := by
  have h := ofWord_and_mask w .nop
  rw [← toWord_ofWord (w &&& 0xFFFFC0FF)]
  exact congrArg CmdFields.toWord h

/-- Settles O3: the mask keeps the fields that select the instruction, and these are what the decoder looks at. -/
theorem decodeSelectsByMask : Obligations.DecodeSelectsByMask := by
  refine ⟨decode_eq_ok_iff_mask, fun w i h => ?_⟩
  obtain ⟨hrsv, hop⟩ := legal_of_decode h
  rw [and_rsvOp, hrsv, hop, toWord_opOnly]

/-- The assembler writes no field but those that select the instruction (30_encoding R131). -/
theorem readBy_fields (i : Instr) : readBy i.fields i = i.fields := by cases i <;> rfl

/-- The encoding of an instruction decodes to it (30_encoding R131). -/
theorem decode_encode (i : Instr) : decode (encode i) = .ok i := by
  rw [decode_eq_ok_iff, encode, ofWord_toWord, readBy_fields]

/-- The bytes of a word are decoded as the word (20_memory R92). -/
theorem decodeBytes_bytesOfWord (w : Word) (rest : List Byte) :
    decodeBytes (bytesOfWord w ++ rest) = (decode w).map fun i => (i, rest) :=
  congrArg (fun v => (decode v).map fun i => (i, rest)) (wordOfBytes_extract w)

/-- Settles O2, by the round trip of the word and that of its bytes. -/
theorem encodedInstructionsDecodeBack : Obligations.EncodedInstructionsDecodeBack := by
  intro i rest _
  rw [decodeBytes_bytesOfWord, decode_encode]; rfl

/-! ### Illegal words -/

/-- Every instruction has an assigned OP (30_encoding R123). -/
theorem opcode_assigned (i : Instr) : i.opcode ∈ assignedOpcodes := by
  cases i <;> simp [Instr.opcode, assignedOpcodes]

/-- A word that decodes to nothing is rejected ILLEGAL_CMD (30_encoding R125). -/
theorem command_illegal {w : Word} (h : ∀ i, decode w ≠ .ok i) (s : State) :
    command w s = .next (reject .illegalCmd s) := by
  unfold command
  split
  · rename_i i hi; exact absurd hi (h i)
  · rfl

/-- Settles O4: what decodes has RSV 0 and an assigned OP, and the rest is rejected. -/
theorem illegalWordsAreRejected : Obligations.IllegalWordsAreRejected := by
  intro w s hw
  refine command_illegal (fun i hi => ?_) s
  obtain ⟨hrsv, hop⟩ := legal_of_decode hi
  rcases hw with hw | hw
  · exact hw hrsv
  · rw [show w.extractLsb' 0 8 = i.opcode from hop] at hw
    exact hw (opcode_assigned i)

/-! ### Commands while a pass runs -/

/-- KCOMMIT, START, SAMPLE and CONV1 check BUSY first (30_encoding R129). -/
theorem exec_rejects_busy {i : Instr} {s : State} (hb : s.status.busy = true)
    (hi : i.opcode ∈ ([0x01, 0x02, 0x05, 0x06] : List (BitVec 8))) : exec i s = .next (reject .busy s) := by
  cases i with
  | kcommit | start | sample _ | conv1 _ => exact if_pos hb
  | nop | abort | map | padd _ _ _ | pscale _ _ | pdiv _ _ | tocolor _ | fromcolor _ => simp [Instr.opcode] at hi

/-- NOP and the pixel arithmetic leave STATUS, whether or not a pass runs. -/
theorem exec_keeps_status {i : Instr} {s t : State} (h : exec i s = .next t)
    (hi : i.opcode ∈ ([0x00, 0x10, 0x11, 0x12, 0x13, 0x14] : List (BitVec 8))) : t.status = s.status := by
  cases i with
  | nop | padd _ _ _ | pscale _ _ | pdiv _ _ | tocolor _ | fromcolor _ => cases h; rfl
  | kcommit | start | abort | map | sample _ | conv1 _ => simp [Instr.opcode] at hi

/-- What a command other than ABORT may change while a pass runs, rejected or not: MAPRES, COLOR, a pixel register, CERR and CECODE. -/
theorem exec_busy_frame {i : Instr} {s t : State} (hb : s.status.busy = true) (h : exec i s = .next t) (ha : i ≠ .abort) :
    t = { s with
      mapres := t.mapres, color := t.color, pregs := t.pregs
      status := { s.status with cerr := t.status.cerr, cecode := t.status.cecode } } := by
  rcases exec_cases h with rfl | ⟨c, rfl⟩ | ⟨a, -, -, hread⟩ | ⟨-, idle, -⟩ | ⟨-, idle, -⟩ | ⟨abort, -⟩ | ⟨m, rfl⟩ |
    ⟨d, p, rfl⟩ | ⟨c, rfl⟩
  case inr.inr.inl =>
    have hbusy : exec i s = .next (reject .busy s) := by
      rcases hread with ⟨d, rfl⟩ | ⟨d, rfl⟩ <;> exact exec_rejects_busy hb (by simp [Instr.opcode])
    cases h.symm.trans hbusy
    rfl
  case inr.inr.inr.inl => exact nomatch hb.symm.trans idle
  case inr.inr.inr.inr.inl => exact nomatch hb.symm.trans idle
  case inr.inr.inr.inr.inr.inl => exact absurd abort ha
  all_goals rfl

/-- Settles O50: the frame, the four commands that BUSY rejects, and those that leave STATUS. -/
theorem commandsDuringAPassLeaveIt : Obligations.CommandsDuringAPassLeaveIt := by
  intro i s t hb h ha
  exact ⟨exec_busy_frame hb h ha, fun hi => Host.Outcome.next.inj (h.symm.trans (exec_rejects_busy hb hi)),
    exec_keeps_status h⟩

end Sys2Proof.Machine
end
section
/-! The family of 40_pixel_alu: signs and values of binary32 patterns, what rounding gives, the three operations by the kinds
of their operands, the conversion of colours, and the statements about the pixel arithmetic commands. -/

namespace Sys2Proof.Machine.F32

/-! ### Sign and magnitude -/

/-- The mask without bit 31 leaves the magnitude pattern. -/
theorem toNat_and_eq_mag (x : Word) : (x &&& 0x7FFFFFFF).toNat = mag x := by
  rw [BitVec.toNat_and]
  exact Nat.and_two_pow_sub_one_eq_mod x.toNat 31

theorem mag_ofNat {m : Nat} (h : m < 2 ^ 31) : mag (BitVec.ofNat 32 m) = m := by
  unfold mag
  rw [BitVec.toNat_ofNat]
  omega

theorem toNat_eq (x : Word) : x.toNat = if negative x then mag x + 2 ^ 31 else mag x := by
  have hx := x.isLt
  unfold negative mag
  simp only [BitVec.msb_eq_decide, decide_eq_true_eq]
  split <;> omega

theorem toNat_of_not_negative {x : Word} (h : negative x = false) : x.toNat = mag x := by
  rw [toNat_eq x, h, if_neg Bool.false_ne_true]

theorem eq_of_negative_of_mag {x y : Word} (hs : negative x = negative y) (hm : mag x = mag y) : x = y :=
  BitVec.eq_of_toNat_eq (by rw [toNat_eq x, toNat_eq y, hs, hm])

theorem mag_pack (b : Bool) {m : Nat} (h : m < 2 ^ 31) : mag (pack b m) = m := by
  unfold mag pack
  rw [BitVec.toNat_ofNat]
  cases b <;> simp <;> omega

theorem negative_pack (b : Bool) {m : Nat} (h : m < 2 ^ 31) : negative (pack b m) = b := by
  unfold negative pack
  rw [BitVec.msb_eq_decide, BitVec.toNat_ofNat]
  cases b <;> simp <;> omega

/-- The exclusive OR with bit 31 alone gives the opposite value. -/
theorem mag_xor_signBit (x : Word) : mag (x ^^^ 0x80000000) = mag x := by
  rw [← toNat_and_eq_mag, ← toNat_and_eq_mag, BitVec.toNat_and, BitVec.toNat_xor, Nat.and_xor_distrib_right]
  exact Nat.xor_zero _

theorem negative_xor_signBit (x : Word) : negative (x ^^^ 0x80000000) = !negative x := by
  rw [negative, BitVec.msb_xor]
  exact Bool.xor_true _

/-! ### The value of a pattern -/

theorem mag_eq_fields (x : Word) : mag x = expField x * 2 ^ 23 + frac x := by
  unfold expField frac; omega

theorem frac_lt (x : Word) : frac x < 2 ^ 23 := Nat.mod_lt _ (by decide)

theorem significand_lt (x : Word) : significand x < 2 ^ 24 := by
  have hf := frac_lt x
  unfold significand
  split <;> omega

theorem units_lt_two_pow (x : Word) : units x < 2 ^ (expField x + 23) := by
  have hf := frac_lt x
  unfold units shift
  by_cases he : expField x = 0
  · simpa [significand, he] using hf
  · calc significand x * 2 ^ (expField x - 1)
      _ < 2 ^ 24 * 2 ^ (expField x - 1) := Nat.mul_lt_mul_of_pos_right (significand_lt x) (Nat.two_pow_pos _)
      _ = 2 ^ (expField x + 23) := by rw [← Nat.pow_add]; congr 1; omega

/-- The magnitude pattern alone gives the magnitude. -/
theorem units_congr {x y : Word} (h : mag x = mag y) : units x = units y := by
  unfold units significand shift expField frac
  rw [h]

/-- A value below `2 ^ 23` quanta of `2 ^ q` units, or one that is a whole number of them. -/
theorem units_lt_or_dvd (q : Nat) (x : Word) : units x < 2 ^ (q + 23) ∨ 2 ^ q ∣ units x := by
  rcases Nat.lt_or_ge q (expField x) with h | h
  · exact .inr (Nat.dvd_mul_left_of_dvd (Nat.pow_dvd_pow 2 (by unfold shift; omega)) _)
  · exact .inl (Nat.lt_of_lt_of_le (units_lt_two_pow x) (Nat.pow_le_pow_right (by decide) (by omega)))

/-- Values rise with the magnitude pattern. -/
theorem units_lt_units {x y : Word} (h : mag x < mag y) : units x < units y := by
  rw [mag_eq_fields x, mag_eq_fields y] at h
  have hx := frac_lt x
  have hy := frac_lt y
  rcases Nat.lt_trichotomy (expField x) (expField y) with he | he | he
  · calc units x
      _ < 2 ^ (expField x + 23) := units_lt_two_pow x
      _ ≤ 2 ^ (23 + shift y) := Nat.pow_le_pow_right (by decide) (by unfold shift; omega)
      _ = 2 ^ 23 * 2 ^ shift y := Nat.pow_add 2 23 _
      _ ≤ units y := Nat.mul_le_mul_right _ (by unfold significand; split <;> omega)
  · unfold units shift significand
    rw [he]
    exact Nat.mul_lt_mul_of_pos_right (by split <;> omega) (Nat.two_pow_pos _)
  · omega

/-- A significand of up to 24 bits over `q` in the exponent field stands for itself times `2 ^ q`, the carry out of 24 bits
included. -/
theorem units_ofNat_significand {q k : Nat} (hm : q * 2 ^ 23 + k < 2 ^ 31) (hk : k ≤ 2 ^ 24) (hn : q = 0 ∨ 2 ^ 23 ≤ k) :
    units (BitVec.ofNat 32 (q * 2 ^ 23 + k)) = k * 2 ^ q := by
  unfold units significand shift expField frac
  rw [mag_ofNat hm]
  rcases Nat.lt_or_ge k (2 ^ 23) with h | h
  · obtain rfl : q = 0 := by omega
    rw [show (0 * 2 ^ 23 + k) / 2 ^ 23 = 0 by omega, if_pos rfl]
    change (0 * 2 ^ 23 + k) % 2 ^ 23 * 2 ^ 0 = k * 2 ^ 0
    rw [Nat.zero_mul, Nat.zero_add, Nat.mod_eq_of_lt h]
  · rcases Nat.lt_or_ge k (2 ^ 24) with h' | h'
    · rw [show (q * 2 ^ 23 + k) / 2 ^ 23 = q + 1 by omega, if_neg (by omega)]
      congr 1
      omega
    · obtain rfl : k = 2 ^ 24 := by omega
      rw [show (q * 2 ^ 23 + 2 ^ 24) / 2 ^ 23 = q + 2 by omega, if_neg (by omega),
        show (q * 2 ^ 23 + 2 ^ 24) % 2 ^ 23 = 0 by omega, show q + 2 - 1 = q + 1 by omega, Nat.pow_succ]
      omega

/-! ### The rounded quotient -/

/-- The rounded quotient is at most half a divisor away, and even where it is that far. -/
theorem roundQuot_close (n : Nat) {d : Nat} (hd : 0 < d) :
    2 * (roundQuot n d * d) ≤ 2 * n + d ∧ 2 * n ≤ 2 * (roundQuot n d * d) + d ∧
    (2 * (roundQuot n d * d) = 2 * n + d ∨ 2 * n = 2 * (roundQuot n d * d) + d → roundQuot n d % 2 = 0) := by
  have hn := Nat.div_add_mod' n d
  have hr := Nat.mod_lt n hd
  have ceil : (n / d + 1) * d = n / d * d + d := Nat.succ_mul _ _
  unfold roundQuot
  split
  · omega
  · split
    · rw [ceil]; omega
    · rcases Nat.mod_two_eq_zero_or_one (n / d) with h | h
      · rw [h, Nat.add_zero]; omega
      · rw [h, ceil]; omega

/-- Multiples of a divisor are at least a divisor apart. -/
theorem mul_add_le_mul (d : Nat) {a b : Nat} (h : a < b) : a * d + d ≤ b * d := by
  rw [← Nat.succ_mul]
  exact Nat.mul_le_mul_right d h

/-- No integer is nearer to the quotient than the rounded one, which is even where another is as near. -/
theorem roundQuot_nearest (n j : Nat) {d : Nat} (hd : 0 < d) :
    ((n : Int) - roundQuot n d * d).natAbs ≤ ((n : Int) - j * d).natAbs ∧
    (((n : Int) - roundQuot n d * d).natAbs = ((n : Int) - j * d).natAbs → j ≠ roundQuot n d → roundQuot n d % 2 = 0) := by
  obtain ⟨hlow, hhigh, heven⟩ := roundQuot_close n hd
  generalize roundQuot n d = k at *
  rw [← Int.natCast_mul, ← Int.natCast_mul]
  rcases Nat.lt_trichotomy j k with h | rfl | h
  · have step := mul_add_le_mul d h
    omega
  · exact ⟨Nat.le_refl _, fun _ hne => absurd rfl hne⟩
  · have step := mul_add_le_mul d h
    omega

theorem roundQuot_le {n d c : Nat} (hd : 0 < d) (h : n ≤ c * d) : roundQuot n d ≤ c := by
  obtain ⟨hlow, -, -⟩ := roundQuot_close n hd
  refine Nat.le_of_not_lt fun hlt => ?_
  have step := mul_add_le_mul d hlt
  omega

theorem le_roundQuot {n d c : Nat} (hd : 0 < d) (h : c * d ≤ n) : c ≤ roundQuot n d := by
  obtain ⟨-, hhigh, -⟩ := roundQuot_close n hd
  refine Nat.le_of_not_lt fun hlt => ?_
  have step := mul_add_le_mul d hlt
  omega

/-- The rounded quotient reaches an even positive integer from half a divisor below it on. -/
theorem even_le_roundQuot_iff (n : Nat) {d c : Nat} (hd : 0 < d) (hc : 0 < c) (he : c % 2 = 0) :
    c ≤ roundQuot n d ↔ (2 * c - 1) * d ≤ 2 * n := by
  obtain ⟨hlow, hhigh, heven⟩ := roundQuot_close n hd
  generalize roundQuot n d = k at *
  rw [Nat.sub_mul, Nat.one_mul, Nat.mul_assoc]
  have hpos : d ≤ c * d := Nat.le_mul_of_pos_left d hc
  constructor
  · intro h
    have := Nat.mul_le_mul_right d h
    omega
  · intro h
    refine Nat.le_of_not_lt fun hlt => ?_
    have step := mul_add_le_mul d hlt
    have hodd : k + 1 = c := Nat.eq_of_mul_eq_mul_right hd (by rw [Nat.succ_mul]; omega)
    omega

/-- A common factor of dividend and divisor has no part in the rounded quotient. -/
theorem roundQuot_mul_right (n d : Nat) {c : Nat} (hc : 0 < c) : roundQuot (n * c) (d * c) = roundQuot n d := by
  unfold roundQuot
  rw [Nat.mul_mod_mul_right, Nat.mul_div_mul_right _ _ hc, ← Nat.mul_assoc]
  simp only [Nat.mul_lt_mul_right hc]

/-! ### Rounding a magnitude -/

/-- The power of two by which `roundMag` cuts the quotient to 24 significant bits, 0 where it is subnormal. -/
def roundShift (n d : Nat) : Nat := Nat.log2 (n / d) - 23

/-- The integer that is left of the quotient, its significand. -/
def roundSig (n d : Nat) : Nat := roundQuot n (d * 2 ^ roundShift n d)

theorem roundMag_eq (n d : Nat) : roundMag n d = min (roundShift n d * 2 ^ 23 + roundSig n d) infMag := rfl

theorem roundMag_le (n d : Nat) : roundMag n d ≤ infMag := Nat.min_le_right _ _

theorem quantum_pos (n : Nat) {d : Nat} (hd : 0 < d) : 0 < d * 2 ^ roundShift n d := Nat.mul_pos hd (Nat.two_pow_pos _)

theorem lt_quantum_mul (n : Nat) {d : Nat} (hd : 0 < d) : n < 2 ^ 24 * (d * 2 ^ roundShift n d) := by
  have hq : n / d < 2 ^ (roundShift n d + 24) :=
    Nat.lt_of_lt_of_le Nat.lt_log2_self (Nat.pow_le_pow_right (by decide) (by unfold roundShift; omega))
  calc n
    _ < 2 ^ (roundShift n d + 24) * d := (Nat.div_lt_iff_lt_mul hd).mp hq
    _ = 2 ^ 24 * (d * 2 ^ roundShift n d) := by rw [Nat.add_comm, Nat.pow_add, Nat.mul_assoc, Nat.mul_comm d]

theorem quantum_mul_le {n d : Nat} (hd : 0 < d) (h : roundShift n d ≠ 0) : 2 ^ 23 * (d * 2 ^ roundShift n d) ≤ n := by
  unfold roundShift at *
  have hq : 2 ^ (n / d).log2 ≤ n / d := Nat.log2_self_le (by rintro e; rw [e] at h; exact h rfl)
  calc 2 ^ 23 * (d * 2 ^ ((n / d).log2 - 23))
    _ = 2 ^ (23 + ((n / d).log2 - 23)) * d := by rw [Nat.pow_add, Nat.mul_assoc, Nat.mul_comm d]
    _ = 2 ^ (n / d).log2 * d := by congr 2; omega
    _ ≤ n := (Nat.le_div_iff_mul_le hd).mp hq

theorem roundSig_le (n : Nat) {d : Nat} (hd : 0 < d) : roundSig n d ≤ 2 ^ 24 :=
  roundQuot_le (quantum_pos n hd) (Nat.le_of_lt (lt_quantum_mul n hd))

theorem le_roundSig {n d : Nat} (hd : 0 < d) (h : roundShift n d ≠ 0) : 2 ^ 23 ≤ roundSig n d :=
  le_roundQuot (quantum_pos n hd) (quantum_mul_le hd h)

/-- Rounding gives infinity from half a unit in the last place above the largest finite value on (40_pixel_alu R153). -/
theorem roundMag_eq_infMag_iff (n : Nat) {d : Nat} (hd : 0 < d) :
    roundMag n d = infMag ↔ (2 ^ 277 - 2 ^ 252) * d ≤ n := by
  have hlt := lt_quantum_mul n hd
  have hle := roundSig_le n hd
  rw [roundMag_eq, infMag]
  rcases Nat.lt_trichotomy (roundShift n d) 253 with h | h | h
  · have hp : d * 2 ^ roundShift n d ≤ d * 2 ^ 252 :=
      Nat.mul_le_mul_left d (Nat.pow_le_pow_right (by decide) (by omega))
    omega
  · have hiff := even_le_roundQuot_iff n (quantum_pos n hd) (c := 2 ^ 24) (by decide) (by decide)
    rw [show roundQuot n (d * 2 ^ roundShift n d) = roundSig n d from rfl] at hiff
    rw [h] at hiff ⊢
    omega
  · have hp : d * 2 ^ 254 ≤ d * 2 ^ roundShift n d :=
      Nat.mul_le_mul_left d (Nat.pow_le_pow_right (by decide) (by omega))
    have hnormal : roundShift n d ≠ 0 := by omega
    have hge := quantum_mul_le hd hnormal
    have hsig := le_roundSig hd hnormal
    omega

/-- A finite rounded pattern is the exponent and the significand it was put together from. -/
theorem roundMag_of_ne_infMag {n d : Nat} (h : roundMag n d ≠ infMag) :
    roundMag n d = roundShift n d * 2 ^ 23 + roundSig n d ∧ roundMag n d < infMag := by
  rw [roundMag_eq] at *
  omega

/-- The value of a finite rounded pattern is a whole number of quanta. -/
theorem units_roundMag {n d : Nat} (hd : 0 < d) (h : roundMag n d ≠ infMag) :
    units (BitVec.ofNat 32 (roundMag n d)) = roundSig n d * 2 ^ roundShift n d := by
  obtain ⟨heq, hlt⟩ := roundMag_of_ne_infMag h
  rw [heq] at hlt ⊢
  refine units_ofNat_significand (Nat.lt_trans hlt (by decide)) (roundSig_le n hd) ?_
  by_cases hz : roundShift n d = 0
  · exact .inl hz
  · exact .inr (le_roundSig hd hz)

/-- The distance of an exact magnitude `n / d` from a value of `u` units, in units of `1 / d`. -/
def unitDist (n d u : Nat) : Nat := ((n : Int) - u * d).natAbs

/-- A value below `2 ^ 23` quanta is farther from the magnitude than `2 ^ 23` quanta are. -/
theorem unitDist_lt_of_lt_normal {n d u : Nat} (hd : 0 < d) (h : roundShift n d ≠ 0) (hu : u < 2 ^ (roundShift n d + 23)) :
    unitDist n d (2 ^ 23 * 2 ^ roundShift n d) < unitDist n d u := by
  have hn := quantum_mul_le hd h
  have hlt := Nat.mul_lt_mul_of_pos_right hu hd
  rw [show 2 ^ (roundShift n d + 23) * d = 2 ^ 23 * (d * 2 ^ roundShift n d) by
    rw [Nat.add_comm, Nat.pow_add, Nat.mul_assoc, Nat.mul_comm d]] at hlt
  unfold unitDist
  rw [← Int.natCast_mul, ← Int.natCast_mul,
    show 2 ^ 23 * 2 ^ roundShift n d * d = 2 ^ 23 * (d * 2 ^ roundShift n d) by
    rw [Nat.mul_assoc, Nat.mul_comm d]]
  omega

/-- Among whole numbers of quanta none is nearer than the significand, which is even where another is as near. -/
theorem roundSig_nearest (n j : Nat) {d : Nat} (hd : 0 < d) :
    unitDist n d (roundSig n d * 2 ^ roundShift n d) ≤ unitDist n d (j * 2 ^ roundShift n d) ∧
    (unitDist n d (roundSig n d * 2 ^ roundShift n d) = unitDist n d (j * 2 ^ roundShift n d) → j ≠ roundSig n d →
      roundSig n d % 2 = 0) := by
  have h := roundQuot_nearest n j (quantum_pos n hd)
  have e (k : Nat) : unitDist n d (k * 2 ^ roundShift n d) = ((n : Int) - k * (d * 2 ^ roundShift n d : Nat)).natAbs := by
    rw [unitDist, ← Int.natCast_mul, ← Int.natCast_mul, Nat.mul_assoc, Nat.mul_comm d]
  rwa [e, e]

/-- No finite value is nearer to the magnitude than the rounded pattern's, which is even where another is as near
(40_pixel_alu R150). -/
theorem roundMag_nearest {n d : Nat} (hd : 0 < d) (h : roundMag n d ≠ infMag) (x : Word) :
    unitDist n d (units (BitVec.ofNat 32 (roundMag n d))) ≤ unitDist n d (units x) ∧
    (unitDist n d (units (BitVec.ofNat 32 (roundMag n d))) = unitDist n d (units x) →
      units x ≠ units (BitVec.ofNat 32 (roundMag n d)) → roundMag n d % 2 = 0) := by
  rw [units_roundMag hd h, (roundMag_of_ne_infMag h).1]
  have whole (j : Nat) (hj : units x = j * 2 ^ roundShift n d) :
      unitDist n d (roundSig n d * 2 ^ roundShift n d) ≤ unitDist n d (units x) ∧
      (unitDist n d (roundSig n d * 2 ^ roundShift n d) = unitDist n d (units x) →
        units x ≠ roundSig n d * 2 ^ roundShift n d → (roundShift n d * 2 ^ 23 + roundSig n d) % 2 = 0) := by
    obtain ⟨hle, heven⟩ := roundSig_nearest n j hd
    rw [hj]
    refine ⟨hle, fun heq hne => ?_⟩
    have := heven heq (fun hjk => hne (by rw [hjk]))
    omega
  rcases units_lt_or_dvd (roundShift n d) x with hlt | hdvd
  · by_cases hz : roundShift n d = 0
    · exact whole (units x) (by rw [hz, Nat.pow_zero, Nat.mul_one])
    · have hfar := unitDist_lt_of_lt_normal hd hz hlt
      have hnear := (roundSig_nearest n (2 ^ 23) hd).1
      exact ⟨by omega, fun heq => by omega⟩
  · obtain ⟨j, hj⟩ := hdvd
    exact whole j (by rw [hj, Nat.mul_comm])

/-- A common factor of the two parts of a magnitude has no part in its rounding. -/
theorem roundMag_mul_right (n d : Nat) {c : Nat} (hc : 0 < c) : roundMag (n * c) (d * c) = roundMag n d := by
  have hs : roundShift (n * c) (d * c) = roundShift n d := by
    unfold roundShift
    rw [Nat.mul_div_mul_right n d hc]
  rw [roundMag_eq, roundMag_eq, roundSig, hs, Nat.mul_right_comm d c, roundQuot_mul_right _ _ hc, ← roundSig]

/-- Settles O14: the overflow threshold, and the nearest pattern below it. -/
theorem roundingIsNearestTiesToEven : Obligations.RoundingIsNearestTiesToEven := by
  intro n d hd
  refine ⟨roundMag_eq_infMag_iff n hd, fun h => ⟨(roundMag_of_ne_infMag h).2, fun m _ => ?_⟩⟩
  exact roundMag_nearest hd h (BitVec.ofNat 32 m)

/-! ### The kinds of values -/

theorem isNaN_eq_false {x : Word} (h : mag x ≤ infMag) : isNaN x = false := decide_eq_false (by omega)

theorem isInf_eq_true {x : Word} (h : mag x = infMag) : isInf x = true := beq_iff_eq.mpr h

theorem isInf_eq_false {x : Word} (h : mag x ≠ infMag) : isInf x = false := beq_eq_false_iff_ne.mpr h

/-- A finite value is neither a NaN nor an infinity. -/
theorem finite_kind {x : Word} (h : mag x < infMag) : isNaN x = false ∧ isInf x = false :=
  ⟨isNaN_eq_false (Nat.le_of_lt h), isInf_eq_false (Nat.ne_of_lt h)⟩

theorem isZero_eq_true {x : Word} (h : mag x = 0) : isZero x = true := beq_iff_eq.mpr h

theorem isZero_eq_false {x : Word} (h : mag x ≠ 0) : isZero x = false := beq_eq_false_iff_ne.mpr h

theorem units_eq_zero {x : Word} (h : mag x = 0) : units x = 0 := by
  simp [units, significand, frac, expField, h]

theorem mag_eq_of_and {x c : Word} (h : x &&& 0x7FFFFFFF = c) : mag x = c.toNat := by
  rw [← toNat_and_eq_mag, h]

/-! ### The operations on NaNs, infinities and zeros -/

theorem fadd_of_isNaN {x y : Word} (h : isNaN x = true ∨ isNaN y = true) : fadd x y = canonicalNaN :=
  if_pos (Bool.or_eq_true_iff.mpr h)

theorem fmul_of_isNaN {x y : Word} (h : isNaN x = true ∨ isNaN y = true) : fmul x y = canonicalNaN :=
  if_pos (Bool.or_eq_true_iff.mpr h)

theorem fdiv_of_isNaN {x y : Word} (h : isNaN x = true ∨ isNaN y = true) : fdiv x y = canonicalNaN :=
  if_pos (Bool.or_eq_true_iff.mpr h)

/-- Zero times infinity, in either order. -/
theorem fmul_zero_infinity {x y : Word} (hx : mag x = 0) (hy : mag y = infMag) :
    fmul x y = canonicalNaN ∧ fmul y x = canonicalNaN := by
  have hzero := isZero_eq_true hx
  have hinf := isInf_eq_true hy
  have hnx := isNaN_eq_false (x := x) (by omega)
  have hny := isNaN_eq_false (x := y) (by omega)
  simp [fmul, hzero, hinf, hnx, hny]

theorem fdiv_infinity_infinity {x y : Word} (hx : mag x = infMag) (hy : mag y = infMag) : fdiv x y = canonicalNaN := by
  simp [fdiv, isNaN_eq_false (Nat.le_of_eq hx), isNaN_eq_false (Nat.le_of_eq hy), isInf_eq_true hx, isInf_eq_true hy]

/-- Division by zero: a zero gives a NaN, any other value an infinity with the sign of the quotient (40_pixel_alu R152, R153). -/
theorem fdiv_by_zero {x y : Word} (hx : mag x ≤ infMag) (hy : mag y = 0) :
    fdiv x y = if mag x = 0 then canonicalNaN else pack (negative x != negative y) infMag := by
  have hny := isNaN_eq_false (x := y) (by omega)
  have hiy := isInf_eq_false (x := y) (by rw [hy]; decide)
  unfold fdiv
  rw [isNaN_eq_false hx, hny, hiy, isZero_eq_true hy]
  by_cases hz : mag x = 0
  · simp [hz, isZero_eq_true hz, isInf_eq_false (x := x) (by rw [hz]; decide)]
  · simp [hz, isZero_eq_false hz]

/-- The canonical NaN, or a pattern of no NaN with the given sign. -/
def NanOrSigned (b : Bool) (z : Word) : Prop := z = canonicalNaN ∨ ∃ m ≤ infMag, z = pack b m

/-- A product is the canonical NaN or has the sign of the exact product (40_pixel_alu R152, R154). -/
theorem fmul_nanOrSigned (x y : Word) : NanOrSigned (negative x != negative y) (fmul x y) := by
  unfold fmul
  split
  · exact .inl rfl
  · split
    · split
      · exact .inl rfl
      · exact .inr ⟨_, Nat.le_refl _, rfl⟩
    · exact .inr ⟨_, roundMag_le _ _, rfl⟩

/-- A quotient is the canonical NaN or has the sign of the exact quotient (40_pixel_alu R152, R154). -/
theorem fdiv_nanOrSigned (x y : Word) : NanOrSigned (negative x != negative y) (fdiv x y) := by
  unfold fdiv
  split
  · exact .inl rfl
  · split
    · split
      · exact .inl rfl
      · exact .inr ⟨_, Nat.le_refl _, rfl⟩
    · split
      · exact .inr ⟨0, by decide, rfl⟩
      · split
        · split
          · exact .inl rfl
          · exact .inr ⟨_, Nat.le_refl _, rfl⟩
        · exact .inr ⟨_, roundMag_le _ _, rfl⟩

/-- What is no NaN has the sign. -/
theorem NanOrSigned.negative_eq {b : Bool} {z : Word} (h : NanOrSigned b z) (hz : mag z ≤ infMag) : negative z = b := by
  rcases h with rfl | ⟨m, hm, rfl⟩
  · exact absurd hz (by decide)
  · exact negative_pack b (Nat.lt_of_le_of_lt hm (by decide))

/-- No NaN comes of a value that is none and a finite value that is no zero. -/
theorem mag_fmul_le {x y : Word} (hx : mag x ≤ infMag) (hy : mag y < infMag) (hz : mag y ≠ 0) : mag (fmul x y) ≤ infMag := by
  have hmag (b : Bool) {m : Nat} (hm : m ≤ infMag) : mag (pack b m) ≤ infMag := by
    rwa [mag_pack b (Nat.lt_of_le_of_lt hm (by decide))]
  unfold fmul
  obtain ⟨hny, hiy⟩ := finite_kind hy
  rw [isNaN_eq_false hx, hny, hiy, isZero_eq_false hz]
  by_cases hinf : mag x = infMag
  · simpa [isInf_eq_true hinf, isZero_eq_false (x := x) (by rw [hinf]; decide)] using hmag _ (Nat.le_refl _)
  · simpa [isInf_eq_false hinf] using hmag _ (roundMag_le _ _)

/-! ### The sum -/

/-- The sum does not depend on the order of its operands (40_pixel_alu R167). -/
theorem fadd_comm (x y : Word) : fadd x y = fadd y x := by
  unfold fadd
  rw [Bool.or_comm (isNaN y)]
  split
  · rfl
  · by_cases hx : isInf x = true <;> by_cases hy : isInf y = true
    · by_cases hs : negative x = negative y
      · rw [eq_of_negative_of_mag hs ((beq_iff_eq.mp hx).trans (beq_iff_eq.mp hy).symm)]
      · simp [hx, hy, hs, Ne.symm hs]
    · simp [hx, hy]
    · simp [hx, hy]
    · simp [hx, hy, addFinite, Int.add_comm (signedUnits y), Bool.and_comm (negative y)]

theorem fadd_finite {x y : Word} (hx : mag x < infMag) (hy : mag y < infMag) : fadd x y = addFinite x y := by
  simp [fadd, finite_kind hx, finite_kind hy]

/-- A finite value and its opposite have the sum `+0.0` (40_pixel_alu R154). -/
theorem fadd_opposite {x : Word} (hx : mag x < infMag) : fadd x (x ^^^ 0x80000000) = 0 := by
  have hsum : signedUnits x + signedUnits (x ^^^ 0x80000000) = 0 := by
    unfold signedUnits
    rw [negative_xor_signBit, units_congr (mag_xor_signBit x)]
    cases negative x with
    | false => exact Int.add_right_neg _
    | true => exact Int.add_left_neg _
  rw [fadd_finite hx (by rwa [mag_xor_signBit]), addFinite, if_pos hsum, negative_xor_signBit, Bool.and_not_self]
  rfl

/-! ### Product and quotient of finite values -/

theorem mul_two_pow_sub_mul_min (k a b : Nat) : k * 2 ^ (a - b) * 2 ^ min a b = k * 2 ^ a := by
  rw [Nat.mul_assoc, ← Nat.pow_add]; congr 2; omega

/-- The exact product is rounded once, in whatever units it is taken. -/
theorem fmul_finite {x y : Word} (hx : mag x < infMag) (hy : mag y < infMag) :
    fmul x y = pack (negative x != negative y) (roundMag (units x * units y) (2 ^ 149)) := by
  have hn : units x * units y =
      significand x * significand y * 2 ^ (shift x + shift y - 149) * 2 ^ min (shift x + shift y) 149 := by
    rw [mul_two_pow_sub_mul_min, units, units, Nat.pow_add, Nat.mul_mul_mul_comm]
  have hd : 2 ^ 149 = 2 ^ (149 - (shift x + shift y)) * 2 ^ min (shift x + shift y) 149 := by
    rw [← Nat.pow_add]; congr 1; omega
  rw [hn, hd, roundMag_mul_right _ _ (Nat.two_pow_pos _)]
  simp [fmul, finite_kind hx, finite_kind hy]

/-- The exact quotient by a non-zero value is rounded once, in whatever units it is taken. -/
theorem fdiv_finite {x y : Word} (hx : mag x < infMag) (hy : mag y < infMag) (hz : mag y ≠ 0) :
    fdiv x y = pack (negative x != negative y) (roundMag (units x * 2 ^ 149) (units y)) := by
  have hn : units x * 2 ^ 149 = significand x * 2 ^ (shift x + 149 - shift y) * 2 ^ min (shift x + 149) (shift y) := by
    rw [mul_two_pow_sub_mul_min, units, Nat.pow_add, Nat.mul_assoc]
  have hd : units y = significand y * 2 ^ (shift y - (shift x + 149)) * 2 ^ min (shift x + 149) (shift y) := by
    rw [Nat.min_comm, mul_two_pow_sub_mul_min, units]
  rw [hn, hd, roundMag_mul_right _ _ (Nat.two_pow_pos _)]
  simp [fdiv, finite_kind hx, finite_kind hy, isZero_eq_false hz]

/-! ### The statements about the operations -/

/-- Settles O15: of finite operands neither is a NaN or an infinity, and what is left rounds once. -/
theorem finiteOperationsRoundTheExactResult : Obligations.FiniteOperationsRoundTheExactResult := by
  intro x y hx hy
  refine ⟨fun hs => ?_, fmul_finite hx hy, fun hz => fdiv_finite hx hy (mt units_eq_zero hz)⟩
  rw [fadd_finite hx hy, addFinite, if_neg hs]

/-- Settles O13: the sums by their exact values, products and quotients by the sign they are packed with. -/
theorem signsOfZerosAndDivisionByZero : Obligations.SignsOfZerosAndDivisionByZero := by
  refine ⟨by decide, by decide, fun x hx _ => fadd_opposite hx,
    fun x y h => (fmul_nanOrSigned x y).negative_eq (Nat.le_trans (Nat.le_of_eq h) (by decide)),
    fun x y h => (fdiv_nanOrSigned x y).negative_eq (Nat.le_trans (Nat.le_of_eq h) (by decide)), fun x y hn hx hy => ?_⟩
  have hne : mag x ≠ 0 := hx
  rw [fdiv_by_zero (Nat.le_of_not_lt (of_decide_eq_false hn)) hy, if_neg hne]
  change pack (x.msb ^^ y.msb) infMag = _
  cases x.msb ^^ y.msb <;> rfl

/-- Settles O12: a NaN operand, opposite infinities, and the zeros and infinities by their magnitude patterns. -/
theorem invalidOperationsGiveTheCanonicalNan : Obligations.InvalidOperationsGiveTheCanonicalNan := by
  refine ⟨fun x y h => ⟨fadd_of_isNaN h, fmul_of_isNaN h, fdiv_of_isNaN h⟩, by decide, by decide,
    fun x y hx hy => fmul_zero_infinity (mag_eq_of_and hx) (mag_eq_of_and hy), fun x y hx hy => ?_,
    fun x y hx hy => fdiv_infinity_infinity (mag_eq_of_and hx) (mag_eq_of_and hy)⟩
  have hzero : mag x = 0 := mag_eq_of_and hx
  rw [fdiv_by_zero (by omega) (mag_eq_of_and hy), if_pos hzero]
  rfl

/-- Settles O11: the sum commutes in each channel; it loses `1.0` beside `2 ^ 100`, unless the large values cancel first. -/
theorem additionCommutesAndDoesNotAssociate : Obligations.AdditionCommutesAndDoesNotAssociate := by
  refine ⟨fun p q => ?_, 0x71800000, 0xF1800000, 0x3F800000, by decide +kernel⟩
  simp only [pAddPix, Pixel.zip, fadd_comm]

end Sys2Proof.Machine.F32

namespace Sys2Proof.Machine

/-! ### Colours -/

/-- The clamp of a value that is no NaN to `0.0` to `255.0`, cut to an integer: 0 for a negative value or `-0.0`. -/
theorem trunc_clamp_of_negative {t : Word} (h : F32.negative t = true) :
    F32.trunc (F32.clamp t F32.posZero F32.twoFiftyFive) = 0 := by
  have hkey : F32.key t = -(F32.mag t : Int) := if_pos h
  have hzero : F32.key F32.posZero = 0 := by decide
  have h255 : F32.key F32.twoFiftyFive = 0x437F0000 := by decide
  unfold F32.clamp
  rw [hkey, hzero, h255, if_neg (c := (0x437F0000 : Int) < _) (by omega)]
  by_cases hmag : F32.mag t = 0
  · rw [if_neg (by omega), F32.trunc, F32.units_eq_zero hmag, Nat.zero_div]
  · rw [if_pos (by omega)]
    decide

/-- The clamp of a value with its sign clear, cut to an integer: 255 from `255.0` on. -/
theorem trunc_clamp_of_not_negative {t : Word} (h : F32.negative t = false) :
    F32.trunc (F32.clamp t F32.posZero F32.twoFiftyFive) =
      if 0x437F0000 ≤ F32.mag t then 255 else F32.trunc t := by
  have hkey : F32.key t = F32.mag t := if_neg (by rw [h]; decide)
  have hzero : F32.key F32.posZero = 0 := by decide
  have h255 : F32.key F32.twoFiftyFive = 0x437F0000 := by decide
  have htop : F32.trunc F32.twoFiftyFive = 255 := by decide +kernel
  unfold F32.clamp
  rw [hkey, hzero, h255, if_neg (by omega)]
  rcases Nat.lt_trichotomy (F32.mag t) 0x437F0000 with hlt | heq | hgt
  · rw [if_neg (by omega), if_neg (by omega)]
  · rw [if_neg (by omega), if_pos (Nat.le_of_eq heq.symm), F32.eq_of_negative_of_mag (y := F32.twoFiftyFive) h heq, htop]
  · rw [if_pos (by omega), if_pos (Nat.le_of_lt hgt), htop]

/-- A value below `255.0` has an integer part that is a byte. -/
theorem trunc_lt_of_mag_lt {t : Word} (h : F32.mag t < 0x437F0000) : F32.trunc t < 256 := by
  have hlt : F32.units t < F32.units F32.twoFiftyFive := F32.units_lt_units h
  have h255 : F32.units F32.twoFiftyFive = 255 * 2 ^ 149 := by decide +kernel
  unfold F32.trunc
  omega

/-- The product with `255.0` has the sign of the other factor, where it is no NaN. -/
theorem negative_fmul_twoFiftyFive {v : Word} (h : F32.mag (F32.fmul v F32.twoFiftyFive) ≤ F32.infMag) :
    F32.negative (F32.fmul v F32.twoFiftyFive) = F32.negative v := by
  have h255 : F32.negative F32.twoFiftyFive = false := by decide
  rw [(F32.fmul_nanOrSigned v F32.twoFiftyFive).negative_eq h, h255, Bool.bne_false]

/-- `ToColorCh` of a value whose product with `255.0` is no NaN (40_pixel_alu R160). -/
theorem toColorCh_of_mag_le {v : Word} (h : F32.mag (F32.fmul v F32.twoFiftyFive) ≤ F32.infMag) :
    toColorCh v =
      BitVec.ofNat 8 (F32.trunc (F32.clamp (F32.fmul v F32.twoFiftyFive) F32.posZero F32.twoFiftyFive)) :=
  if_neg (by rw [F32.isNaN_eq_false h]; decide)

/-- `ToColorCh` of a NaN, and of a value with its sign set (40_pixel_alu R160). -/
theorem toColorCh_eq_zero {v : Word} (h : F32.infMag < F32.mag v ∨ F32.negative v = true) : toColorCh v = 0 := by
  rcases Nat.lt_or_ge F32.infMag (F32.mag (F32.fmul v F32.twoFiftyFive)) with hnan | hmag
  · exact if_pos (decide_eq_true hnan)
  · rcases h with h | h
    · rw [F32.fmul_of_isNaN (.inl (decide_eq_true h))] at hmag
      exact absurd hmag (by decide)
    · rw [toColorCh_of_mag_le hmag, trunc_clamp_of_negative ((negative_fmul_twoFiftyFive hmag).trans h)]
      rfl

/-- `ToColorCh` of any other value: 255 where the product with `255.0` reaches `255.0`, else its integer part
(40_pixel_alu R160). -/
theorem toColorCh_of_toNat_le {v : Word} (hv : v.toNat ≤ F32.infMag) :
    toColorCh v = BitVec.ofNat 8 (if 0x437F0000 ≤ (F32.fmul v F32.twoFiftyFive).toNat then 255
      else F32.trunc (F32.fmul v F32.twoFiftyFive)) := by
  have hv' : v.toNat < 2 ^ 31 := Nat.lt_of_le_of_lt hv (by decide)
  have hmag := F32.mag_fmul_le (x := v) (y := F32.twoFiftyFive) (Nat.le_trans (Nat.mod_le _ _) hv) (by decide) (by decide)
  have hsign : F32.negative (F32.fmul v F32.twoFiftyFive) = false := by
    rw [negative_fmul_twoFiftyFive hmag, F32.negative, BitVec.msb_eq_false_iff_two_mul_lt]
    omega
  rw [toColorCh_of_mag_le hmag, trunc_clamp_of_not_negative hsign, F32.toNat_of_not_negative hsign]

/-- `ToColorCh` of a value that is no NaN and has its sign clear, in the two ranges of its product (40_pixel_alu R160). -/
theorem toColorCh_ranges {v : Word} (hv : v.toNat ≤ F32.infMag) :
    (0x437F0000 ≤ (F32.fmul v F32.twoFiftyFive).toNat → toColorCh v = 255) ∧
    ((F32.fmul v F32.twoFiftyFive).toNat < 0x437F0000 →
      (toColorCh v).toNat = F32.trunc (F32.fmul v F32.twoFiftyFive)) := by
  rw [toColorCh_of_toNat_le hv]
  constructor
  · intro h
    rw [if_pos h]
    rfl
  · intro h
    have hmag := Nat.lt_of_le_of_lt (Nat.mod_le (F32.fmul v F32.twoFiftyFive).toNat (2 ^ 31)) h
    rw [if_neg (Nat.not_le_of_lt h), BitVec.toNat_ofNat, Nat.mod_eq_of_lt (trunc_lt_of_mag_lt hmag)]

/-- What FROMCOLOR writes, channel by channel (40_pixel_alu R161, R166). -/
theorem fromColor_colorOfWord (v : Word) :
    (fromColor (colorOfWord v)).r = F32.fdiv (F32.ofNat (v.extractLsb' 0 8).toNat) 0x437F0000 ∧
    (fromColor (colorOfWord v)).g = F32.fdiv (F32.ofNat (v.extractLsb' 8 8).toNat) 0x437F0000 ∧
    (fromColor (colorOfWord v)).b = F32.fdiv (F32.ofNat (v.extractLsb' 16 8).toNat) 0x437F0000 ∧
    (fromColor (colorOfWord v)).a = F32.fdiv (F32.ofNat (v.extractLsb' 24 8).toNat) 0x437F0000 := by
  simp only [fromColor, fromColorCh, colorOfWord, F32.twoFiftyFive, and_self]

/-- Every byte as a binary32 value and back through the scale of 255 is itself (40_pixel_alu R168). -/
theorem toColorCh_fromColorCh : ∀ k : Byte, toColorCh (fromColorCh k) = k := by decide +kernel

theorem toColor_fromColor (k : Color) : toColor (fromColor k) = k := by
  simp only [toColor, fromColor, toColorCh_fromColorCh]

/-- A word's channels laid out again are the word (20_memory R96). -/
theorem colorWord_colorOfWord (v : Word) : colorWord (colorOfWord v) = v := wordOfBytes_extract v

/-- The binary32 value of a byte is that byte. -/
theorem units_ofNat_byte : ∀ k : Byte,
    (F32.ofNat k.toNat).toNat < F32.infMag ∧ F32.units (F32.ofNat k.toNat) = k.toNat * 2 ^ 149 := by decide +kernel

/-! ### The commands -/

theorem pDivPix_get (p : Pixel) (w : Word) (c : Channel) : (pDivPix p w).get c = F32.fdiv (p.get c) w := by cases c <;> rfl

/-- Settles O8: each of the three commands is one write of a pixel register. -/
theorem pixelArithmeticResults : Obligations.PixelArithmeticResults := by
  intro s d s1 s2
  have write (p : Pixel) (f : Channel → Word) (hp : ∀ c, p.get c = f c) :
      setPreg s d p = { s with pregs := (setPreg s d p).pregs } ∧ (∀ n, n ≠ d → preg (setPreg s d p) n = preg s n) ∧
      ∀ c, (preg (setPreg s d p) d).get c = f c :=
    ⟨rfl, fun _ h => preg_setPreg_other s p h, fun c => by rw [preg_setPreg_same, hp]⟩
  exact ⟨⟨_, rfl, write _ _ (pAddPix_get (preg s s1) (preg s s2))⟩, ⟨_, rfl, write _ _ (pScalePix_get (preg s s1) s.scalar)⟩,
    ⟨_, rfl, write _ _ (pDivPix_get (preg s s1) s.scalar)⟩⟩

/-- Settles O10: COLOR goes through the register as the pixel it stands for, and every byte comes back. -/
theorem colorRoundTripThroughRegisters : Obligations.ColorRoundTripThroughRegisters := by
  intro s n
  refine ⟨_, _, rfl, rfl, ?_⟩
  change colorWord (toColor (preg (setPreg s n (fromColor (colorOfWord s.color))) n)) = s.color
  rw [preg_setPreg_same, toColor_fromColor, colorWord_colorOfWord]

/-- Settles O9: the two commands by what they write, and `ToColorCh` by the sign of its product. -/
theorem colorConversionResults : Obligations.ColorConversionResults := by
  refine ⟨fun s n => ⟨rfl, _, rfl, rfl, fun _ h => preg_setPreg_other s _ h, ?_⟩, fun _ => toColorCh_eq_zero,
    fun _ => toColorCh_ranges, units_ofNat_byte⟩
  rw [preg_setPreg_same]
  exact fromColor_colorOfWord s.color

end Sys2Proof.Machine
end

section
/-! The family of 41_boundary_sampler: what each policy makes of a coordinate, the boundary map of a point, and the results
of MAP and SAMPLE. -/

namespace Sys2Proof.Machine

/-! ### The policy CTRL selects (10_state R32) -/

theorem policy_of_bpol_zero {c : Ctrl} (h : c.bpol = 0) : c.policy = some .extend := by
  unfold Ctrl.policy; rw [h]; rfl

theorem policy_of_bpol_one {c : Ctrl} (h : c.bpol = 1) : c.policy = some (if c.wrapm then .wrapCor else .wrapRef) := by
  unfold Ctrl.policy; rw [h]; rfl

theorem policy_of_bpol_two {c : Ctrl} (h : c.bpol = 2) : c.policy = some .mirror := by
  unfold Ctrl.policy; rw [h]; rfl

/-! ### Extend -/

theorem mapCh_extend (v n : Int) : mapCh .extend v n = min (max v 0) (n - 1) := rfl

theorem extend_below {v n : Int} (hn : 1 ≤ n) (h : v < 0) : mapCh .extend v n = 0 := by
  rw [mapCh_extend]; omega

theorem extend_beyond {v n : Int} (hn : 1 ≤ n) (h : n ≤ v) : mapCh .extend v n = n - 1 := by
  rw [mapCh_extend]; omega

theorem extend_inside {v n : Int} (h0 : 0 ≤ v) (h : v < n) : mapCh .extend v n = v := by
  rw [mapCh_extend]; omega

/-- Settles O16: the three ranges of the clamp. -/
theorem extendRepeatsTheBorder : Obligations.ExtendRepeatsTheBorder :=
  ⟨fun v n hn => ⟨mapCh_extend v n, extend_below hn, extend_beyond hn, extend_inside⟩, fun _ => policy_of_bpol_zero⟩

/-! ### Wrap -/

/-- The range of `fmod` (00_scope R11). -/
theorem floorMod_range (v : Int) {m : Int} (hm : 1 ≤ m) : 0 ≤ floorMod v m ∧ floorMod v m < m :=
  ⟨Int.emod_nonneg v (by omega), Int.emod_lt_of_pos v hm⟩

theorem floorMod_eq_self {v m : Int} (h0 : 0 ≤ v) (h : v < m) : floorMod v m = v := Int.emod_eq_of_lt h0 h

/-- The truncating remainder, shifted up by the modulus and reduced again, is the floor modulo (41_boundary R192). -/
theorem tmod_tmod_add_eq_floorMod (v : Int) {m : Int} (hm : 1 ≤ m) : Int.tmod (Int.tmod v m + m) m = floorMod v m := by
  have hlow : -m < Int.tmod v m := Int.lt_tmod_of_pos v hm
  calc Int.tmod (Int.tmod v m + m) m
      = (Int.tmod v m + m) % m := Int.tmod_eq_emod_of_nonneg (by omega)
    _ = (v - m * Int.tdiv v m) % m := by rw [Int.add_emod_right, Int.tmod_def]
    _ = floorMod v m := Int.sub_mul_emod_self_left v m _

theorem wrapRef_one (v : Int) : mapCh .wrapRef v 1 = 0 := rfl

theorem mapCh_wrapRef (v : Int) {n : Int} (hn : 2 ≤ n) : mapCh .wrapRef v n = floorMod v (n - 1) :=
  if_neg (by omega : ¬ n = 1)

theorem mapCh_wrapCor (v n : Int) : mapCh .wrapCor v n = floorMod v n := rfl

/-- Settles O17: for `N ≥ 2` the reference Wrap is the floor modulo `N - 1`. -/
theorem wrapReferenceIsTheSourceFormula : Obligations.WrapReferenceIsTheSourceFormula := by
  refine ⟨wrapRef_one, fun v n hn => ?_, fun v => ?_, fun c hb hm => ?_⟩
  · have hrange := floorMod_range v (m := n - 1) (by omega)
    rw [mapCh_wrapRef v hn]
    exact ⟨Int.emod_def v (n - 1), (tmod_tmod_add_eq_floorMod v (by omega)).symm, hrange.1, by omega⟩
  · rw [mapCh_wrapRef v (Int.le_refl 2)]
    exact Int.emod_one v
  · rw [policy_of_bpol_one hb, hm]; rfl

/-- Settles O18: the corrected Wrap is the floor modulo `N`. -/
theorem wrapCorrectedTilesTheImage : Obligations.WrapCorrectedTilesTheImage := by
  refine ⟨fun v n hn => ?_, fun _ => policy_of_bpol_one, rfl⟩
  have hrange := floorMod_range v hn
  rw [mapCh_wrapCor]
  exact ⟨hrange.1, by omega, Int.emod_def v n⟩

/-! ### Mirror -/

theorem mirror_one (v : Int) : mapCh .mirror v 1 = 0 := rfl

theorem mapCh_mirror (v : Int) {n : Int} (hn : 2 ≤ n) :
    mapCh .mirror v n = if floorMod v (2 * (n - 1)) ≤ n - 1 then floorMod v (2 * (n - 1))
      else 2 * (n - 1) - floorMod v (2 * (n - 1)) :=
  if_neg (by omega : ¬ n = 1)

theorem mirror_period (v : Int) {n : Int} (hn : 2 ≤ n) : mapCh .mirror (v + 2 * (n - 1)) n = mapCh .mirror v n := by
  have hmod : floorMod (v + 2 * (n - 1)) (2 * (n - 1)) = floorMod v (2 * (n - 1)) := Int.add_emod_right ..
  rw [mapCh_mirror _ hn, mapCh_mirror v hn, hmod]

theorem mirror_inside {v n : Int} (hn : 2 ≤ n) (h0 : 0 ≤ v) (h : v ≤ n - 1) : mapCh .mirror v n = v := by
  rw [mapCh_mirror v hn, floorMod_eq_self h0 (by omega), if_pos h]

/-- The second half of a period runs back to 0; its two ends are the border `N - 1` and the start of the next period. -/
theorem mirror_beyond {v n : Int} (hn : 2 ≤ n) (h0 : n - 1 ≤ v) (h : v ≤ 2 * (n - 1)) :
    mapCh .mirror v n = 2 * (n - 1) - v := by
  rcases Int.le_iff_eq_or_lt.mp h with rfl | hlt
  · have hper := mirror_period 0 hn
    rw [Int.zero_add] at hper
    rw [hper, mirror_inside hn (Int.le_refl 0) (by omega), Int.sub_self]
  · rw [mapCh_mirror v hn, floorMod_eq_self (by omega) hlt]
    split <;> omega

/-- Below the image the reflection is about 0: one period up, it is the one about `N - 1`. -/
theorem mirror_below {v n : Int} (hn : 2 ≤ n) (h0 : -(n - 1) ≤ v) (h : v ≤ 0) : mapCh .mirror v n = -v := by
  rw [← mirror_period v hn, mirror_beyond hn (by omega) (by omega)]
  omega

/-- Every policy maps a coordinate into the image (41_boundary R191 to R194). -/
theorem mapCh_range (pol : Policy) (v : Int) {n : Int} (hn : 1 ≤ n) : 0 ≤ mapCh pol v n ∧ mapCh pol v n < n := by
  cases pol with
  | extend => rw [mapCh_extend]; omega
  | wrapRef =>
    rcases Int.le_iff_eq_or_lt.mp hn with rfl | hn2
    · rw [wrapRef_one]; omega
    · have hrange := floorMod_range v (m := n - 1) (by omega)
      rw [mapCh_wrapRef v hn2]; omega
  | wrapCor => exact floorMod_range v hn
  | mirror =>
    rcases Int.le_iff_eq_or_lt.mp hn with rfl | hn2
    · rw [mirror_one]; omega
    · have hrange := floorMod_range v (m := 2 * (n - 1)) (by omega)
      rw [mapCh_mirror v hn2]
      split <;> omega

/-- Settles O19: one period of the mirror, and its period. -/
theorem mirrorReflectsAndRepeats : Obligations.MirrorReflectsAndRepeats := by
  refine ⟨mirror_one, fun v n hn => ?_, fun n hn => ⟨?_, ?_⟩, fun _ => policy_of_bpol_two⟩
  · have hrange := mapCh_range .mirror v (n := n) (by omega)
    exact ⟨hrange.1, by omega, mirror_period v hn, mirror_inside hn, fun h0 h => mirror_below hn h0 (Int.le_of_lt h),
      fun h0 h => mirror_beyond hn (Int.le_of_lt h0) h⟩
  · exact mirror_below hn (by omega) (by omega)
  · rw [mirror_beyond hn (by omega) (by omega)]; omega

/-! ### The boundary map -/

theorem inRange_iff (w h x y : Int) : inRange w h x y = true ↔ (0 ≤ x ∧ x < w) ∧ 0 ≤ y ∧ y < h := by
  simp only [inRange, Bool.and_eq_true, decide_eq_true_eq, and_assoc]

theorem mapPoint_of_inRange (pol : Policy) {w h x y : Int} (hr : inRange w h x y = true) :
    mapPoint pol w h x y = (x, y) := if_pos hr

theorem mapPoint_of_not_inRange (pol : Policy) {w h x y : Int} (hr : inRange w h x y = false) :
    mapPoint pol w h x y = (mapCh pol x w, mapCh pol y h) := if_neg (Bool.eq_false_iff.mp hr)

/-- A mapped point is in range (41_boundary R196). -/
theorem mapPoint_inRange (pol : Policy) {w h : Int} (x y : Int) (hw : 1 ≤ w) (hh : 1 ≤ h) :
    inRange w h (mapPoint pol w h x y).1 (mapPoint pol w h x y).2 = true := by
  cases hr : inRange w h x y with
  | true => rw [mapPoint_of_inRange pol hr]; exact hr
  | false =>
    rw [mapPoint_of_not_inRange pol hr, inRange_iff]
    exact ⟨mapCh_range pol x hw, mapCh_range pol y hh⟩

/-- Extend is the identity inside, so that it maps every point coordinate by coordinate. -/
theorem mapPoint_extend (w h x y : Int) : mapPoint .extend w h x y = (mapCh .extend x w, mapCh .extend y h) := by
  cases hr : inRange w h x y with
  | true =>
    obtain ⟨⟨hx0, hx⟩, hy0, hy⟩ := (inRange_iff w h x y).mp hr
    rw [mapPoint_of_inRange _ hr, extend_inside hx0 hx, extend_inside hy0 hy]
  | false => exact mapPoint_of_not_inRange _ hr

/-- Settles O20: the range of the map and its two cases, the borders of Extend, and the mirror about each edge. -/
theorem mapStaysInRangeAndFixesTheInterior : Obligations.MapStaysInRangeAndFixesTheInterior := by
  refine fun w h hw hh => ⟨fun pol x y => ⟨mapPoint_inRange pol x y hw hh, mapPoint_of_inRange pol,
    mapPoint_of_not_inRange pol⟩, fun x y => ?_, fun d hd hdw => ⟨?_, ?_⟩⟩
  · rw [mapPoint_extend]
    exact ⟨extend_below hw, extend_beyond hw, extend_below hh, extend_beyond hh⟩
  · rw [mirror_below (by omega) (by omega) (by omega), Int.neg_neg]
  · rw [mirror_beyond (by omega) (by omega) (by omega)]; omega

/-! ### MAP and SAMPLE -/

theorem dimZero_eq_false {s : State} (hw : s.imgDim.width ≠ 0) (hh : s.imgDim.height ≠ 0) : dimZero s = false := by
  simp only [dimZero, imgW, imgH, Bool.or_eq_false_iff, beq_eq_false_iff_ne]
  exact ⟨Nat.ne_of_gt (BitVec.toNat_pos_of_ne_zero hw), Nat.ne_of_gt (BitVec.toNat_pos_of_ne_zero hh)⟩

/-- A coordinate below a dimension fits its half of MAPRES (10_state R38, R43). -/
theorem toNat_ofInt_of_lt {k : Int} {n : BitVec 16} (h0 : 0 ≤ k) (h : k < n.toNat) : ((BitVec.ofInt 16 k).toNat : Int) = k := by
  have hn := n.isLt
  rw [BitVec.toNat_ofInt, Int.emod_eq_of_lt h0 (by omega), Int.toNat_of_nonneg h0]

/-- MAPRES holds a point in range of an image whole (41_boundary R201). -/
theorem mapresOf_toNat {w h : BitVec 16} {m : Int × Int} (hr : inRange w.toNat h.toNat m.1 m.2 = true) :
    (((mapresOf m).x.toNat : Int), ((mapresOf m).y.toNat : Int)) = m := by
  obtain ⟨⟨hx0, hx⟩, hy0, hy⟩ := (inRange_iff ..).mp hr
  exact Prod.ext (toNat_ofInt_of_lt hx0 hx) (toNat_ofInt_of_lt hy0 hy)

/-- MAP where its checks pass (41_boundary R201). -/
theorem exec_map {s : State} {pol : Policy} (hp : s.ctrl.policy = some pol) (hz : dimZero s = false) :
    exec .map s = .next { s with mapres := mapresOf (mapPoint pol (imgW s) (imgH s) (coordX s) (coordY s)) } := by
  simp only [exec, execMap, withPolicy_some hp, hz, rejectIf_false]

/-- Settles O21: the mapped point is in range, so that MAPRES holds it whole. -/
theorem mapCommandResult : Obligations.MapCommandResult := by
  intro s pol hp hw hh
  have hw1 := BitVec.toNat_pos_of_ne_zero hw
  have hh1 := BitVec.toNat_pos_of_ne_zero hh
  exact ⟨_, exec_map hp (dimZero_eq_false hw hh), rfl,
    mapresOf_toNat (mapPoint_inRange pol _ _ (by omega) (by omega))⟩

/-- The sampler reads the word at `SrcAddr` of the mapped point (41_boundary R199, R200). -/
theorem sampleAddr_of_mapPoint {s : State} {pol : Policy} {x y mx my : Int}
    (hm : mapPoint pol (imgW s) (imgH s) x y = (mx, my)) : sampleAddr s pol x y = srcAddr s mx.toNat my.toNat := by
  unfold sampleAddr; rw [hm]

/-- Memory as read number `k` of a command sees it: with the first of the writes that land during the command (20_memory
R108). -/
theorem seenMem_eq (s : State) (k : Nat) : seenMem s k = landWrites s.mem (s.during.take (Config.raceRead s.free k)) :=
  landSome_eq ..

/-- SAMPLE where its checks pass and its read answers OK (41_boundary R200, R202). -/
theorem exec_sample {s : State} {pol : Policy} (d : PReg) (hb : s.status.busy = false) (hp : s.ctrl.policy = some pol)
    (hz : dimZero s = false) (hr : refusesRead s (sampleAddr s pol (coordX s) (coordY s)) = false) :
    exec (.sample d) s = .next (setPreg s d
      (fromColor (colorOfWord (readWord (seenMem s 0) (sampleAddr s pol (coordX s) (coordY s)))))) := by
  simp only [exec, execSample, hb, withPolicy_some hp, hz, rejectIf_false,
    sample_ok (s := { s with mem := seenMem s 0 }) hr]
  rfl

/-- Settles O24: the command writes the pixel of the word its read sees. -/
theorem sampleCommandResult : Obligations.SampleCommandResult := by
  intro s d pol mx my hb hp hw hh hm hr
  have haddr : sampleAddr s pol (coordX s) (coordY s) = srcAddr s mx.toNat my.toNat := sampleAddr_of_mapPoint hm
  refine ⟨_, Config.raceRead s.free 0, exec_sample d hb hp (dimZero_eq_false hw hh) (haddr ▸ hr), rfl,
    fun _ h => preg_setPreg_other s _ h, fun c => ?_⟩
  rw [preg_setPreg_same, fromColor_get, haddr, seenMem_eq]
  rfl

end Sys2Proof.Machine
end

section
/-! The family of 42_kernel_accumulator: the values that binary32 addition and multiplication leave alone, the weight sum and
the normalization factor of KCOMMIT, the result of CONV1, and the identity kernel. -/

namespace Sys2Proof.Machine.F32

/-- The mask without bit 31 finds the zeros. -/
theorem and_eq_zero_iff (x : Word) : x &&& 0x7FFFFFFF = 0 ↔ mag x = 0 := by
  rw [← toNat_and_eq_mag]
  exact BitVec.toNat_eq

/-! ### Rounding of whole numbers of units -/

theorem pack_negative_mag (x : Word) : pack (negative x) (mag x) = x := by
  have hm : mag x < 2 ^ 31 := Nat.mod_lt _ (by decide)
  exact eq_of_negative_of_mag (negative_pack _ hm) (mag_pack _ hm)

theorem units_ne_zero {x : Word} (h : mag x ≠ 0) : units x ≠ 0 :=
  Nat.ne_of_gt (units_lt_units (x := 0) (Nat.pos_of_ne_zero h))

/-- The value gives the magnitude pattern. -/
theorem mag_eq_of_units_eq {x y : Word} (h : units x = units y) : mag x = mag y := by
  rcases Nat.lt_trichotomy (mag x) (mag y) with hlt | heq | hgt
  · exact absurd h (Nat.ne_of_lt (units_lt_units hlt))
  · exact heq
  · exact absurd h (Nat.ne_of_gt (units_lt_units hgt))

/-- No finite value is above the one with the largest pattern. -/
theorem units_le_of_finite {x : Word} (hx : mag x < infMag) : units x ≤ 2 ^ 277 - 2 ^ 253 := by
  have htop : units 0x7F7FFFFF = 2 ^ 277 - 2 ^ 253 := by decide +kernel
  rw [← htop]
  rcases Nat.lt_or_eq_of_le (Nat.le_of_lt_succ hx) with hlt | heq
  · exact Nat.le_of_lt (units_lt_units hlt)
  · exact Nat.le_of_eq (units_congr heq)

/-- Rounding leaves a finite value as it is. -/
theorem roundMag_units {x : Word} (hx : mag x < infMag) : roundMag (units x) 1 = mag x := by
  have hmax := units_le_of_finite hx
  have hfin : roundMag (units x) 1 ≠ infMag := by
    rw [Ne, roundMag_eq_infMag_iff _ Nat.one_pos]
    omega
  have hnear := (roundMag_nearest Nat.one_pos hfin x).1
  have hsame : units (BitVec.ofNat 32 (roundMag (units x) 1)) = units x := by
    unfold unitDist at hnear; omega
  rw [← mag_eq_of_units_eq hsame, mag_ofNat (Nat.lt_of_le_of_lt (roundMag_le _ _) (by decide))]

/-- A whole number of units other than 0 does not round to zero: the least subnormal is nearer. -/
theorem roundMag_ne_zero {n : Nat} (hn : n ≠ 0) : roundMag n 1 ≠ 0 := by
  intro hz
  have hnear := (roundMag_nearest Nat.one_pos (n := n) (by rw [hz]; decide) 1).1
  have hone : units 1 = 1 := by decide
  rw [hz, hone, units_eq_zero (by decide)] at hnear
  unfold unitDist at hnear
  omega

/-! ### Sums and products with `+0.0` and `1.0` -/

/-- A sum of finite values is `-0.0` only where its first operand is (40_pixel_alu R154). -/
theorem eq_negZero_of_addFinite {x y : Word} (h : addFinite x y = 0x80000000) : x = 0x80000000 := by
  simp only [addFinite] at h
  split at h
  · rename_i hsum
    have hsign : (negative x && negative y) = true := by
      rw [← negative_pack (negative x && negative y) (m := 0) (by decide), h]; rfl
    obtain ⟨hx, hy⟩ := Bool.and_eq_true_iff.mp hsign
    simp only [signedUnits, hx, hy, if_true] at hsum
    have hzero : units x = units 0x80000000 := by
      rw [units_eq_zero (x := 0x80000000) (by decide)]; omega
    exact eq_of_negative_of_mag hx (mag_eq_of_units_eq hzero)
  · rename_i hsum
    refine absurd ?_ (roundMag_ne_zero (Int.natAbs_ne_zero.mpr hsum))
    rw [← mag_pack (decide (signedUnits x + signedUnits y < 0)) (Nat.lt_of_le_of_lt (roundMag_le _ _) (by decide)), h]
    rfl

/-- A sum is `-0.0` only where its first operand is (40_pixel_alu R154). -/
theorem fadd_ne_negZero {x : Word} (y : Word) (hx : x ≠ 0x80000000) : fadd x y ≠ 0x80000000 := by
  unfold fadd
  split
  · decide
  · split
    · split
      · decide
      · exact hx
    · split
      · rename_i hinf
        rintro rfl
        exact absurd hinf (by decide)
      · exact mt eq_negZero_of_addFinite hx

/-- `+0.0` added to a finite value with its sign clear gives that value. -/
theorem fadd_zero {x : Word} (hx : mag x < infMag) (hs : negative x = false) : fadd x 0 = x := by
  have hsum : signedUnits x + signedUnits 0 = units x := by
    have hzero : signedUnits 0 = 0 := by decide
    rw [hzero, Int.add_zero, signedUnits, hs, if_neg Bool.false_ne_true]
  have hpack : pack false (mag x) = x := by rw [← hs]; exact pack_negative_mag x
  rw [fadd_finite hx (by decide), addFinite, hsum]
  split
  · rename_i hzero
    rw [hs, Bool.false_and, ← hpack, Decidable.not_not.mp (mt units_ne_zero (by omega))]
  · rw [Int.natAbs_natCast, roundMag_units hx, decide_eq_false (by omega), hpack]

/-- `1.0` times a finite value gives that value. -/
theorem fmul_one {x : Word} (hx : mag x < infMag) : fmul x 0x3F800000 = x := by
  have hone : units 0x3F800000 = 2 ^ 149 := by decide +kernel
  have hround := roundMag_mul_right (units x) 1 (Nat.two_pow_pos 149)
  rw [Nat.one_mul] at hround
  rw [fmul_finite hx (by decide), hone, hround, roundMag_units hx]
  exact (congrArg (pack · _) (Bool.bne_false _)).trans (pack_negative_mag x)

/-- `+0.0` times a finite value with its sign clear gives `+0.0`. -/
theorem fmul_zero {x : Word} (hx : mag x < infMag) (hs : negative x = false) : fmul x 0 = 0 := by
  rw [fmul_finite hx (by decide), units_eq_zero (x := 0) rfl, Nat.mul_zero, hs]
  decide +kernel

/-! ### The reciprocal -/

theorem fdiv_by_infinity {x y : Word} (hx : mag x < infMag) (hy : mag y = infMag) :
    fdiv x y = pack (negative x != negative y) 0 := by
  simp [fdiv, finite_kind hx, isNaN_eq_false (Nat.le_of_eq hy), isInf_eq_true hy]

/-- `1.0` over a value that is no NaN and no zero has the sign of that value (40_pixel_alu R154). -/
theorem negative_fdiv_one {x : Word} (hx : mag x ≤ infMag) (hz : mag x ≠ 0) : negative (fdiv 0x3F800000 x) = negative x := by
  rcases Nat.lt_or_eq_of_le hx with hlt | heq
  · rw [fdiv_finite (by decide) hlt hz, negative_pack _ (Nat.lt_of_le_of_lt (roundMag_le _ _) (by decide))]
    exact Bool.false_bne _
  · rw [fdiv_by_infinity (by decide) heq, negative_pack _ (by decide)]
    exact Bool.false_bne _

end Sys2Proof.Machine.F32

namespace Sys2Proof.Machine

/-! ### The weight sum and the normalization factor -/

/-- In tap order the places of a grid have the numbers `0` to `rows * cols - 1` (42_kernel R223). -/
theorem tapGrid_map_index (cols rows : Nat) :
    (tapGrid cols rows).map (fun t => t.2 * cols + t.1) = List.range (rows * cols) := by
  have h := congrArg (List.map Prod.snd) (tapGrid_zipIdx cols rows)
  rw [List.zipIdx_map_snd, List.map_map, tapGrid_length, ← List.range_eq_range'] at h
  exact h.symm

/-- The weight sum runs over KWMEM in the order of its words (42_kernel R223). -/
theorem weightSum_eq (m : Vector Word 225) (kw kh : Nat) : weightSum m kw kh =
    (List.range (kw * kh)).foldl (fun acc i => F32.fadd acc (m.toList.getD i 0x00000000)) 0x00000000 := by
  rw [Nat.mul_comm, ← tapGrid_map_index, List.foldl_map]
  simp only [weightSum, kwWord_eq, F32.posZero]

/-- A sum that does not start at `-0.0` never comes to it, so that none from `+0.0` does (42_kernel R225). -/
theorem foldl_fadd_ne_negZero {α : Type} (f : α → Word) (ts : List α) {acc : Word} (h : acc ≠ 0x80000000) :
    ts.foldl (fun acc t => F32.fadd acc (f t)) acc ≠ 0x80000000 := by
  induction ts generalizing acc with
  | nil => exact h
  | cons t ts ih => exact ih (F32.fadd_ne_negZero (f t) h)

/-- The factor as one expression, the zero sum found under the mask without bit 31 (42_kernel R225). -/
theorem normFactor_eq (x : Word) (norm : Bool) : normFactor x norm =
    if norm = false then 0x3F800000 else if x &&& 0x7FFFFFFF = 0 then 0x3F800000 else F32.fdiv 0x3F800000 x := by
  have hzero : F32.isZero x = true ↔ x &&& 0x7FFFFFFF = 0 := beq_iff_eq.trans (F32.and_eq_zero_iff x).symm
  cases norm with
  | false => rfl
  | true => simp only [normFactor, hzero, F32.one, if_true, Bool.true_eq_false, if_false]

theorem normFactor_true_of_ne_zero {x : Word} (h : x &&& 0x7FFFFFFF ≠ 0) : normFactor x true = F32.fdiv 0x3F800000 x := by
  rw [normFactor_eq, if_neg (c := true = false) nofun, if_neg h]

theorem normFactor_true_of_isNaN {x : Word} (h : F32.isNaN x = true) : normFactor x true = 0x7FC00000 := by
  have hmag : F32.infMag < F32.mag x := of_decide_eq_true h
  rw [normFactor_true_of_ne_zero (mt (F32.and_eq_zero_iff x).mp (Nat.ne_of_gt (Nat.zero_lt_of_lt hmag))),
    F32.fdiv_of_isNaN (.inr h)]
  rfl

/-! ### KCOMMIT -/

/-- Settles O26: `commitKernel` is the effect, with the sum in the order of KWMEM and the factor as one expression. -/
theorem kcommitCommandResult : Obligations.KcommitCommandResult := by
  intro s hb hk
  obtain ⟨hodd, hsmall⟩ := (legal_iff s.kdim).mp hk
  obtain ⟨-, hka, hkb, -, -⟩ := commitKernel_committed hodd hsmall rfl
  exact ⟨commitKernel s, exec_kcommit_legal hb hk, rfl, rfl, rfl, hka, hkb, weightSum_eq .., normFactor_eq ..⟩

/-- Settles O27: the listed sums by evaluation, the others by the kind of the sum, and the weight sum along its fold. -/
theorem normalizationFactorCases : Obligations.NormalizationFactorCases := by
  refine ⟨fun _ => rfl, by decide, by decide, fun x => normFactor_true_of_ne_zero, fun x => normFactor_true_of_isNaN,
    by decide +kernel, by decide +kernel, by decide +kernel, by decide +kernel, fun x hn hx => ?_,
    fun m kw kh => foldl_fadd_ne_negZero _ _ (by decide)⟩
  rw [normFactor_true_of_ne_zero hx]
  exact F32.negative_fdiv_one (Nat.le_of_not_lt (of_decide_eq_false hn)) (mt (F32.and_eq_zero_iff x).mpr hx)

/-! ### CONV1 -/

/-- CONV1 where its checks pass and its convolution has a result (42_kernel R235). -/
theorem exec_conv1 {s : State} {pol : Policy} {p : Pixel} (d : PReg) (hb : s.status.busy = false)
    (hk : s.status.kvalid = true) (hp : s.ctrl.policy = some pol) (hz : dimZero s = false)
    (hc : convSeen (seenMem s) s pol (coordX s) (coordY s) = .ok p) : exec (.conv1 d) s = .next (setPreg s d p) := by
  simp only [exec, execConv1, hb, hk, withPolicy_some hp, hz, hc, Bool.not_true, rejectIf_false, storePixel]

/-- Settles O28: the command writes the pixel that the convolution gives, each tap reading the memory its read sees. -/
theorem conv1CommandResult : Obligations.Conv1CommandResult := by
  intro s d pol hb hk hp hw hh hr
  obtain ⟨p, hc, hch⟩ := convSeen_ok (m := seenMem s) hr
  refine ⟨_, _, exec_conv1 d hb hk hp (dimZero_eq_false hw hh) hc, rfl, fun _ h => preg_setPreg_other s p h, ?_,
    fun c => (congrArg (·.get c) (preg_setPreg_same s d p)).trans (hch c)⟩
  exact fun j i _ => ⟨_, congrArg (readWord · _) (seenMem_eq s _)⟩

/-! ### The identity kernel -/

theorem fromColorCh_eq (k : Byte) : F32.fdiv (F32.ofNat k.toNat) 0x437F0000 = fromColorCh k := by
  rw [fromColorCh, F32.twoFiftyFive]

/-- The binary32 value of a byte is finite and has its sign clear (40_pixel_alu R161). -/
theorem fromColorCh_range : ∀ k : Byte, F32.mag (fromColorCh k) < F32.infMag ∧ F32.negative (fromColorCh k) = false := by
  decide +kernel

theorem fmul_fromColorCh_zero (k : Byte) : F32.fmul (fromColorCh k) 0 = 0 :=
  F32.fmul_zero (fromColorCh_range k).1 (fromColorCh_range k).2

theorem fmul_fromColorCh_one (k : Byte) : F32.fmul (fromColorCh k) 0x3F800000 = fromColorCh k :=
  F32.fmul_one (fromColorCh_range k).1

theorem fadd_fromColorCh_zero (k : Byte) : F32.fadd (fromColorCh k) 0 = fromColorCh k :=
  F32.fadd_zero (fromColorCh_range k).1 (fromColorCh_range k).2

theorem pixel_eq_of_get {p q : Pixel} (h : ∀ c, p.get c = q.get c) : p = q := by
  cases p; cases q
  exact (Pixel.mk.injEq ..).mpr ⟨h .r, h .g, h .b, h .a⟩

theorem foldl_range_three {α : Type} (f : α → Nat → α) (a : α) : (List.range 3).foldl f a = f (f (f a 0) 1) 2 := rfl

/-- Under the identity kernel without normalization the convolution is the centre tap alone (42_kernel R236). -/
theorem convChannel_identity {s : State} (hkw : s.kdim.kw = 3) (hka : s.kdim.ka = 1) (hkb : s.kdim.kb = 1)
    (hn : s.ctrl.norm = false) (hw : ∀ i, i < 9 → s.kwmem.toList.getD i 0 = if i = 4 then 0x3F800000 else 0)
    (v : Nat → Nat → Word) (c : Channel) : s.convChannel v c = fromColorCh (channelByte c (v 1 1)) := by
  have hkw3 : s.kdim.kw.toNat = 3 := by rw [hkw]; rfl
  have hcols : 2 * s.kdim.ka.toNat + 1 = 3 := by rw [hka]; rfl
  have hrows : 2 * s.kdim.kb.toNat + 1 = 3 := by rw [hkb]; rfl
  have hcentre : s.kwmem.toList.getD (1 * 3 + 1) 0 = 0x3F800000 := hw 4 (by decide)
  have hother (j i : Nat) (hi : j * 3 + i < 9) (hne : j * 3 + i ≠ 4) : s.kwmem.toList.getD (j * 3 + i) 0 = 0 :=
    (hw _ hi).trans (if_neg hne)
  have hzero : F32.fadd 0 0 = 0 := F32.fadd_zero (by decide) (by decide)
  rw [State.convChannel, hn, hkw3, hcols, hrows, foldl_range_three, foldl_range_three, foldl_range_three, foldl_range_three,
    if_neg Bool.false_ne_true]
  simp (disch := decide) only [hcentre, hother, fromColorCh_eq, fmul_fromColorCh_zero, fmul_fromColorCh_one,
    fadd_fromColorCh_zero, F32.fadd_comm 0 (fromColorCh _), hzero]

/-- The centre tap of a 3 by 3 kernel at a point in range reads that point's word (41_boundary R195). -/
theorem tapAddr_centre {s : State} (pol : Policy) {x y : Nat} (hka : s.kdim.ka = 1) (hkb : s.kdim.kb = 1)
    (hx : x < imgW s) (hy : y < imgH s) : s.tapAddr pol x y 1 1 = srcAddr s x y := by
  have hmap : mapPoint pol s.imgDim.width.toNat s.imgDim.height.toNat x y = ((x : Int), (y : Int)) :=
    mapPoint_of_inRange pol ((inRange_iff (imgW s) (imgH s) x y).mpr (by omega))
  have hcentre (z : Int) : z + (((1 : Nat) : Int) - ((1 : BitVec 8).toNat : Int)) = z := Int.add_zero z
  simp only [State.tapAddr, hka, hkb, hcentre, hmap, Int.toNat_natCast]

/-- Settles O29: the pixel is that of the centre tap's word, and that word comes back from it. -/
theorem identityKernelReproducesTheInput : Obligations.IdentityKernelReproducesTheInput := by
  intro s pol x y hkw hka hkb hn hw hx hy hr
  obtain ⟨p, hp, hc⟩ := convSeen_ok (m := fun _ => s.mem) (s := s) (pol := pol) (x := x) (y := y)
    fun j i h => hr (i, j) (mem_taps.mpr h)
  refine ⟨p, hp, ?_⟩
  have hpix : p = fromColor (colorOfWord (readWord s.mem (srcAddr s x y))) := pixel_eq_of_get fun c => by
    rw [hc, convChannel_identity hkw hka hkb hn hw, tapAddr_centre pol hka hkb hx hy, fromColor_get, fromColorCh_eq]
  rw [hpix, toColor_fromColor, colorWord_colorOfWord]

end Sys2Proof.Machine
end

section
/-! The family of 43_engine: NOP and START, what the output points of a pass do to the registers and to memory however many of
them complete or fail, the early ends of a pass, and a pass that is left alone. -/

namespace Sys2Proof.Machine

/-! ### NOP and START -/

/-- A word whose OP and RSV are 0 is a NOP: it reads no other field (43_engine R269). -/
theorem decode_nop {w : Word} (hop : w.extractLsb' 0 8 = 0) (hrsv : w.extractLsb' 14 18 = 0) : decode w = .ok .nop := by
  rw [decode_eq_ok_iff]
  simp only [readBy, CmdFields.ofWord, hop, hrsv]
  rfl

theorem decode_reservedBits {w : Word} (h : w.extractLsb' 14 18 ≠ 0) : decode w = .error .reservedBits :=
  if_neg (mt beq_iff_eq.mp h)

/-- Settles O7: no field but OP and RSV is looked at, and RSV first. -/
theorem nopChangesNothing : Obligations.NopChangesNothing :=
  ⟨fun _ => rfl, fun _ => decode_nop, fun _ => decode_reservedBits⟩

/-- START where its checks pass (43_engine R260). -/
theorem exec_start {s : State} (hb : s.status.busy = false) (hk : s.status.kvalid = true) (hp : s.ctrl.bpol ≠ 3) :
    exec .start s = .next (startPass s) := by
  obtain ⟨pol, hpol⟩ := policy_isSome hp
  simp only [exec, execStart, hb, hk, Bool.not_true, rejectIf_false, withPolicy_some hpol]

/-- An image with a zero dimension has no pixel (43_engine R270). -/
theorem dimZero_eq_true {s : State} (h : s.imgDim.width = 0 ∨ s.imgDim.height = 0) : dimZero s = true := by
  simp only [dimZero, imgW, imgH, Bool.or_eq_true, beq_iff_eq]
  exact h.imp (congrArg BitVec.toNat) (congrArg BitVec.toNat)

theorem startPass_empty {s : State} (h : dimZero s = true) :
    startPass s = { s with pcount := 0, status := { s.status with done := true, pres := 0 } } := if_pos h

theorem startPass_begins {s : State} (h : dimZero s = false) :
    startPass s = { s with
      pcount := 0, pending := pendingAll (imgW s) (imgH s), stop := .none, overs := []
      status := { s.status with busy := true, done := false, pres := 0 } } := if_neg (by rw [h]; decide)

/-- Settles O30: the two cases of `startPass`. -/
theorem startCommandResult : Obligations.StartCommandResult := by
  intro s hb hk hp
  rw [exec_start hb hk hp]
  refine ⟨fun hz => ?empty, fun hw hh => ?begins⟩
  case empty => rw [startPass_empty (dimZero_eq_true hz)]
  case begins =>
    rw [startPass_begins (dimZero_eq_false hw hh)]
    exact ⟨_, rfl, rfl, pendingSize_all _ _, pendingHas_all _ _⟩

/-! ### What output points read of the configuration -/

section
variable {s u : State} (h : u.config = s.config)
include h

theorem imgW_of_config : imgW u = imgW s := congrArg (·.imgDim.width.toNat) h

theorem imgH_of_config : imgH u = imgH s := congrArg (·.imgDim.height.toNat) h

theorem pointX_of_config (n : Nat) : pointX u n = pointX s n := congrArg (n % ·) (imgW_of_config h)

theorem pointY_of_config (n : Nat) : pointY u n = pointY s n := congrArg (n / ·) (imgW_of_config h)

theorem pointAddr_of_config (n : Nat) : pointAddr u n = pointAddr s n := by
  have hbase : u.dstBase = s.dstBase := congrArg PassConfig.dstBase h
  have hstride : u.dstStride = s.dstStride := congrArg PassConfig.dstStride h
  simp only [pointAddr, dstAddr, pointX_of_config h, pointY_of_config h, hbase, hstride]

theorem tapAddrs_of_config (pol : Policy) (n : Nat) : tapAddrs u pol n = tapAddrs s pol n := by
  have hbase : u.srcBase = s.srcBase := congrArg PassConfig.srcBase h
  have hstride : u.srcStride = s.srcStride := congrArg PassConfig.srcStride h
  have hkdim : u.kdim = s.kdim := congrArg PassConfig.kdim h
  simp only [tapAddrs, taps, tapDx, tapDy, sampleAddr, srcAddr, pointX_of_config h, pointY_of_config h, imgW_of_config h,
    imgH_of_config h, hbase, hstride, hkdim]

/-- The policy CTRL selects depends on BPOL and WRAPM (10_state R32). -/
theorem policy_of_config : u.ctrl.policy = s.ctrl.policy := by
  have hbpol : u.ctrl.bpol = s.ctrl.bpol := congrArg PassConfig.bpol h
  have hwrapm : u.ctrl.wrapm = s.ctrl.wrapm := congrArg PassConfig.wrapm h
  simp only [Ctrl.policy, hbpol, hwrapm]

/-- A point whose taps read the same words has the same convolution (42_kernel R232). -/
theorem conv_of_config {pol : Policy} {n : Nat} (hm : u.busMap = s.busMap)
    (hr : ∀ a ∈ tapAddrs s pol n, readWord u.mem a = readWord s.mem a) :
    conv u pol (pointX u n) (pointY u n) = conv s pol (pointX s n) (pointY s n) := by
  rw [pointX_of_config h, pointY_of_config h]
  exact conv_congr (congrArg PassConfig.imgDim h) (congrArg PassConfig.kdim h) (congrArg PassConfig.kwmem h)
    (congrArg PassConfig.srcBase h) (congrArg PassConfig.srcStride h) hm (congrArg PassConfig.norm h)
    (congrArg PassConfig.nfactor h) fun k hk => hr _ (List.mem_map_of_mem hk)

end

theorem refusesRead_of_busMap {s u : State} (h : u.busMap = s.busMap) (a : Word) : refusesRead u a = refusesRead s a := by
  unfold refusesRead; rw [h]

theorem refusesWrite_of_busMap {s u : State} (h : u.busMap = s.busMap) (a : Word) : refusesWrite u a = refusesWrite s a := by
  unfold refusesWrite; rw [h]

theorem tapAddrs_aligned {s : State} {pol : Policy} {n : Nat} (hs : s.basesAligned) {a : Word} (ha : a ∈ tapAddrs s pol n) :
    a.toNat % 4 = 0 := by
  obtain ⟨hsb, hss, -, -⟩ := hs
  obtain ⟨k, -, rfl⟩ := List.mem_map.mp ha
  exact pixelAddr_aligned hsb hss _ _

theorem pointAddr_aligned {s : State} (hs : s.basesAligned) (n : Nat) : (pointAddr s n).toNat % 4 = 0 := by
  obtain ⟨-, -, hdb, hds⟩ := hs
  exact pixelAddr_aligned hdb hds _ _

/-! ### Words in memory -/

/-- A word is made of its four bytes. -/
theorem readWord_congr {m m' : Memory} {a : Word} (h : ∀ j, j < 4 → readByte m (byteAddr a j) = readByte m' (byteAddr a j)) :
    readWord m a = readWord m' a := by
  rw [readWord, h 0 (by decide), h 1 (by decide), h 2 (by decide), h 3 (by decide), readWord]

/-- What `keptOrCorrect` says of the later state is about one word. -/
theorem keptOrCorrect_congr {s t u : State} {pol : Policy} {i : Nat}
    (h : readWord t.mem (pointAddr s i) = readWord u.mem (pointAddr s i)) (hu : s.keptOrCorrect u pol i) :
    s.keptOrCorrect t pol i := by
  unfold State.keptOrCorrect at hu ⊢
  rwa [h]

/-- An output word that no other master has written in the pass is not contested (70_reset R346). -/
theorem contested_eq_false {s : State} {a : Word} (h : ∀ o ∈ s.overs, o.addr = a → o.byPass = true) :
    contested s a = false := by
  simp only [contested, List.any_eq_false, Bool.and_eq_true, beq_iff_eq, Bool.not_eq_true']
  exact fun o ho ⟨ha, hp⟩ => nomatch (h o ho ha).symm.trans hp

/-- What a completed point leaves of its word: another master's value, the correct output value, or any value if a tap races
(43_engine R263; 70_reset R345, R346). -/
theorem writtenWord_cases {s : State} {pol : Policy} {i : Nat} {p : Pixel}
    (h : conv s pol (pointX s i) (pointY s i) = .ok p) :
    writtenWord s pol i p = readWord s.mem (pointAddr s i) ∨ writtenWord s pol i p = s.correctWord pol i ∨
      ∃ a ∈ tapAddrs s pol i, s.races a := by
  unfold writtenWord
  split
  · exact .inl rfl
  · exact .inr (outputWord_cases h)

/-- Without a race a completed point leaves its correct output value (43_engine R263). -/
theorem writtenWord_correct {s : State} {pol : Policy} {i : Nat} {p : Pixel}
    (h : conv s pol (pointX s i) (pointY s i) = .ok p) (hr : ∀ a ∈ tapAddrs s pol i, ¬ s.races a)
    (ho : ∀ o ∈ s.overs, o.addr = pointAddr s i → o.byPass = true) : writtenWord s pol i p = s.correctWord pol i := by
  simp only [writtenWord, contested_eq_false ho, Bool.false_and, Bool.false_eq_true, if_false]
  exact (outputWord_cases h).resolve_right fun ⟨a, ha, hra⟩ => hr a ha hra

/-! ### What the invariant of a running pass gives -/

section
variable {s : State} (h : s.passRunning) (hb : s.status.busy = true)
include h hb

theorem passRunning_policy : ∃ pol, s.ctrl.policy = some pol := by
  obtain ⟨-, -, -, hbpol, -⟩ := h hb
  exact policy_isSome hbpol

/-- The engine is enabled: nothing has told the pass to stop, and reset is not asserted (43_engine R262). -/
theorem passRunning_enabled : s.stop = .none ∧ s.inReset = false := by
  obtain ⟨-, -, -, -, hst, hr, -⟩ := h hb
  exact ⟨hst, hr⟩

/-- PENDING lies within the raster. -/
theorem passRunning_pendingWf : pendingWfFrom (imgW s * imgH s) 0 s.pending = true := by
  obtain ⟨-, -, -, -, -, -, -, hwf, -⟩ := h hb
  exact hwf

/-- Points are pending, and PCOUNT counts the others (43_engine R266). -/
theorem passRunning_count : pendingSize s.pending ≠ 0 ∧ s.pcount.toNat + pendingSize s.pending = imgW s * imgH s := by
  obtain ⟨-, -, -, -, -, -, -, -, hcount⟩ := h hb
  exact hcount

end

theorem toNat_add_one {x : Word} (h : x.toNat + 1 < 2 ^ 32) : (x + 1).toNat = x.toNat + 1 := BitVec.toNat_add_of_lt h

/-! ### The output points of a pass -/

/-- The states that any number of output points, completed or failed, in any order, lead to from `s`: a completed point is
written and leaves PENDING, a refused write leaves any word, a refused read leaves memory; FAULT_ADDR, STOP and what is outside
the pass are left open (43_engine R262, R264, R267). -/
inductive PassPoints (pol : Policy) (s : State) : State → Prop
  | start : PassPoints pol s s
  | written {u : State} (i : Nat) (p : Pixel) (before : PassPoints pol s u) (pending : pendingHas u.pending i = true)
      (sum : conv u pol (pointX u i) (pointY u i) = .ok p) (writable : refusesWrite u (pointAddr u i) = false) :
      PassPoints pol s { passWrite u (pointAddr u i) (writtenWord u pol i p) with
        pending := pendingRemove u.pending i, pcount := u.pcount + 1, free := u.free + 1 }
  | refused {u : State} (i : Nat) (v : Word) (before : PassPoints pol s u) (pending : pendingHas u.pending i = true)
      (refused : refusesWrite u (pointAddr u i) = true) : PassPoints pol s (passWrite u (pointAddr u i) v)
  | aside {u : State} (fa : Word) (st : Stop) (ag : List Event) (fr : Nat) (before : PassPoints pol s u) :
      PassPoints pol s { u with faultAddr := fa, stop := st, agenda := ag, free := fr }

theorem PassPoints.of_attempt {pol : Policy} {s u t : State} {i : Nat} {o : Option Word} (h : PassPoints pol s u)
    (hi : pendingHas u.pending i = true) (ha : attempt pol i u = (o, t)) : PassPoints pol s t := by
  cases o with
  | none =>
    obtain ⟨p, hc, hw, rfl⟩ := attempt_written ha
    exact .written i p h hi hc hw
  | some a =>
    rcases attempt_failed ha with ⟨-, -, rfl⟩ | ⟨rfl, hw, rfl⟩
    · exact .aside _ _ _ _ h
    · exact .aside _ _ _ _ (.refused i _ h hi hw)

/-- A stopped pass does nothing but further points before it ends (43_engine R267). -/
theorem PassPoints.of_drained {pol : Policy} {s u : State} (h : PassPoints pol s u) (hp : u.ctrl.policy = some pol) :
    PassPoints pol s (drained u) := by
  refine drained_induct (P := PassPoints pol s) (fun v pol' i t hp' hv hi ht => ?written)
    (fun v pol' i a t hp' hv hi ht => ?failed) (.aside _ _ _ _ h)
  case written =>
    cases hp.symm.trans hp'
    exact hv.of_attempt hi ht
  case failed =>
    cases hp.symm.trans hp'
    exact .aside _ _ _ _ (hv.of_attempt hi ht)

namespace PassPoints

variable {pol : Policy} {s u : State}

theorem config (h : PassPoints pol s u) : u.config = s.config := by
  induction h with
  | start => rfl
  | written _ _ _ _ _ _ ih => exact ih
  | refused _ _ _ _ _ ih => exact ih
  | aside _ _ _ _ _ ih => exact ih

theorem busMap (h : PassPoints pol s u) : u.busMap = s.busMap := by
  induction h with
  | start => rfl
  | written _ _ _ _ _ _ ih => exact ih
  | refused _ _ _ _ _ ih => exact ih
  | aside _ _ _ _ _ ih => exact ih

theorem memCanonical (h : PassPoints pol s u) (hc : s.memCanonical) : u.memCanonical := by
  induction h with
  | start => exact hc
  | written _ _ _ _ _ _ ih => exact wf_writeWord _ _ ih
  | refused _ _ _ _ _ ih => exact wf_writeWord _ _ ih
  | aside _ _ _ _ _ ih => exact ih

/-- The write of another point leaves this one's word, where the two addresses differ (20_memory R98). -/
theorem readWord_writeOther (h : PassPoints pol s u) (hc : s.memCanonical) (hs : s.basesAligned) {i n : Nat} (v : Word)
    (hne : pointAddr s n ≠ pointAddr s i) :
    readWord (writeWord u.mem (pointAddr u n) v) (pointAddr s i) = readWord u.mem (pointAddr s i) := by
  rw [pointAddr_of_config h.config]
  exact readWord_writeWord_other (h.memCanonical hc)
    (disjointWords_of_aligned (pointAddr_aligned hs i) (pointAddr_aligned hs n) hne.symm)

/-! #### PENDING and PCOUNT -/

variable (h : PassPoints pol s u) (hwf : pendingWfFrom (imgW s * imgH s) 0 s.pending = true)
include h hwf

theorem pendingWf : pendingWfFrom (imgW s * imgH s) 0 u.pending = true := by
  induction h with
  | start => exact hwf
  | written _ _ _ _ _ _ ih => exact pendingWf_remove ih
  | refused _ _ _ _ _ ih => exact ih
  | aside _ _ _ _ _ ih => exact ih

/-- No point becomes pending. -/
theorem wasPending {n : Nat} (hn : pendingHas u.pending n = true) : pendingHas s.pending n = true := by
  induction h with
  | start => exact hn
  | written i p before _ _ _ ih =>
    rw [pendingHas_remove (before.pendingWf hwf)] at hn
    exact ih (Bool.and_eq_true_iff.mp hn).1
  | refused _ _ _ _ _ ih => exact ih hn
  | aside _ _ _ _ _ ih => exact ih hn

/-- PCOUNT counts the points that leave PENDING, and does not wrap (10_state R48; 43_engine R266). -/
theorem count (hcount : s.pcount.toNat + pendingSize s.pending = imgW s * imgH s) :
    s.pcount.toNat ≤ u.pcount.toNat ∧ u.pcount.toNat + pendingSize u.pending = imgW s * imgH s := by
  induction h with
  | start => exact ⟨Nat.le_refl _, hcount⟩
  | @written u i p before hi _ _ ih =>
    have hsize := pendingSize_remove (before.pendingWf hwf) hi
    have hlt := raster_lt s
    have hone : (u.pcount + 1).toNat = u.pcount.toNat + 1 := toNat_add_one (by omega)
    dsimp only
    rw [hone]
    omega
  | refused _ _ _ _ _ ih => exact ih
  | aside _ _ _ _ _ ih => exact ih

/-- Every word that the pass wrote is an output word (43_engine R274). -/
theorem overs {o : Overwrite} (ho : o ∈ u.overs) :
    o ∈ s.overs ∨ (o.byPass = true ∧ ∃ n, n < imgW s * imgH s ∧ pointAddr s n = o.addr) := by
  have output {u : State} {i : Nat} (before : PassPoints pol s u) (hi : pendingHas u.pending i = true) :
      ∃ n, n < imgW s * imgH s ∧ pointAddr s n = pointAddr u i :=
    ⟨i, (pendingHas_bounds (before.pendingWf hwf) hi).2, (pointAddr_of_config before.config i).symm⟩
  induction h with
  | start => exact .inl ho
  | written i p before hi _ _ ih =>
    rcases List.mem_cons.mp ho with rfl | ho
    · exact .inr ⟨rfl, output before hi⟩
    · exact ih ho
  | refused i v before hi _ ih =>
    rcases List.mem_cons.mp ho with rfl | ho
    · exact .inr ⟨rfl, output before hi⟩
    · exact ih ho
  | aside _ _ _ _ _ ih => exact ih ho

/-- A read that races later in a pass races from the start: what the pass writes are its output words (70_reset R345). -/
theorem races {a : Word} (ha : u.races a) : s.races a := by
  rcases ha with ⟨o, ho, rfl⟩ | ⟨n, hn, rfl⟩
  · exact (h.overs hwf ho).imp (fun hs => ⟨o, hs, rfl⟩) (·.2)
  · rw [imgW_of_config h.config, imgH_of_config h.config] at hn
    exact .inr ⟨n, hn, (pointAddr_of_config h.config n).symm⟩

/-! #### Memory -/

variable (hc : s.memCanonical)
include hc

/-- A byte outside the pending output words is as before (43_engine R271). -/
theorem readByte_outside {k : Nat}
    (hk : ∀ i j, pendingHas s.pending i = true → j < 4 → k ≠ byteAddr (pointAddr s i) j) :
    readByte u.mem k = readByte s.mem k := by
  have write {u : State} {i : Nat} (v : Word) (before : PassPoints pol s u) (hi : pendingHas u.pending i = true) :
      readByte (writeWord u.mem (pointAddr u i) v) k = readByte u.mem k :=
    readByte_writeWord_outside (before.memCanonical hc) fun j hj => by
      rw [pointAddr_of_config before.config]; exact hk i j (before.wasPending hwf hi) hj
  induction h with
  | start => rfl
  | written i p before hi _ _ ih => exact (write _ before hi).trans ih
  | refused i v before hi _ ih => exact (write v before hi).trans ih
  | aside _ _ _ _ _ ih => exact ih

variable (hs : s.basesAligned)
include hs

/-- An aligned word that is no output word is as before. -/
theorem readWord_outside {a : Word} (ha : a.toNat % 4 = 0) (hout : ∀ n, n < imgW s * imgH s → pointAddr s n ≠ a) :
    readWord u.mem a = readWord s.mem a :=
  readWord_congr fun j hj => h.readByte_outside hwf hc fun i j' hi hj' =>
    disjointWords_of_aligned ha (pointAddr_aligned hs i) (hout i (pendingHas_bounds hwf hi).2).symm j j' hj hj'

/-- A point none of whose taps races keeps its correct output value (43_engine R263; 70_reset R345). -/
theorem correctWord {n : Nat} {p : Pixel} (hp : conv u pol (pointX u n) (pointY u n) = .ok p)
    (hr : ∀ a ∈ tapAddrs s pol n, ¬ s.races a) : u.correctWord pol n = s.correctWord pol n := by
  have hsame : ∀ a ∈ tapAddrs s pol n, readWord u.mem a = readWord s.mem a := fun a ha =>
    h.readWord_outside hwf hc hs (tapAddrs_aligned hs ha) fun i hi e => hr a ha (.inr ⟨i, hi, e⟩)
  have hp' : conv s pol (pointX s n) (pointY s n) = .ok p := (conv_of_config h.config h.busMap hsame).symm.trans hp
  rw [← correctWord_of_conv hp, ← correctWord_of_conv hp']

/-- Every output word whose write is not refused holds its value from before or its correct output value, or a tap of the point
races: each completed point at its address leaves that, and no other point touches it (43_engine R267). -/
theorem keptOrCorrect {i : Nat} (hw : refusesWrite s (pointAddr s i) = false) : s.keptOrCorrect u pol i := by
  induction h with
  | start => exact .inl rfl
  | aside _ _ _ _ _ ih => exact ih
  | refused n v before hn refused ih =>
    have hne : pointAddr s n ≠ pointAddr s i := by
      intro e
      rw [pointAddr_of_config before.config, refusesWrite_of_busMap before.busMap, e, hw] at refused
      exact nomatch refused
    exact keptOrCorrect_congr (before.readWord_writeOther hc hs v hne) ih
  | @written u n p before hn sum _ ih =>
    by_cases e : pointAddr s n = pointAddr s i
    case neg => exact keptOrCorrect_congr (before.readWord_writeOther hc hs _ e) ih
    case pos =>
      have hread : readWord (writeWord u.mem (pointAddr u n) (writtenWord u pol n p)) (pointAddr s i) =
          writtenWord u pol n p := by
        rw [pointAddr_of_config before.config, e]
        exact readWord_writeWord_same _ _ (before.memCanonical hc)
      have htaps := tapAddrs_of_config before.config pol n
      by_cases hr : ∃ a ∈ tapAddrs s pol n, s.races a
      · exact .inr ⟨n, before.wasPending hwf hn, e, .inr hr⟩
      have hr : ∀ a ∈ tapAddrs s pol n, ¬ s.races a := fun a ha hra => hr ⟨a, ha, hra⟩
      rcases writtenWord_cases sum with hk | hk | ⟨a, ha, hra⟩
      · refine keptOrCorrect_congr (hread.trans (hk.trans ?_)) ih
        rw [pointAddr_of_config before.config, e]
      · exact .inr ⟨n, before.wasPending hwf hn, e,
          .inl (hread.trans (hk.trans (before.correctWord hwf hc hs sum hr)))⟩
      · exact absurd (before.races hwf hra) (hr a (htaps ▸ ha))

end PassPoints

/-! ### One engine step -/

/-- What a completed point leaves, with the end of the pass after its last one (43_engine R262, R265). -/
theorem settle_none (t : State) : settle (none, t) = { t with
    overs := (settle (none, t)).overs
    status := if pendingSize t.pending = 0 then { t.status with busy := false, done := true, pres := 0 } else t.status } := by
  by_cases h : pendingSize t.pending = 0
  · rw [settle_last h, if_pos h]; rfl
  · rw [settle_more h, if_neg h]

/-- Settles O32: the step is one completed point, whose word is the correct one. -/
theorem engineStepWritesOnePoint : Obligations.EngineStepWritesOnePoint := by
  intro s pol pick i rest ha hc hb hst hr hp hi htaps hw ho
  obtain ⟨t, ht⟩ := attempt_completes (s := { s with agenda := rest }) (fun a hm => (htaps a hm).1) hw
  have hturn := engineTurn_eq (s := { s with agenda := rest }) hb hst hr hp hi
  obtain ⟨p, sum, -, rfl⟩ := attempt_written ht
  have hword : writtenWord { s with agenda := rest } pol i p = s.correctWord pol i :=
    writtenWord_correct (s := { s with agenda := rest }) sum (fun a hm => (htaps a hm).2) ho
  rw [ht, settle_none] at hturn
  refine ⟨_, (step_engine ha).trans (congrArg _ hturn), ?_, fun k hk => ?_, rfl, rfl⟩
  · exact (readWord_writeWord_same _ _ hc).trans hword
  · exact readByte_writeWord_outside hc hk

/-! ### The early ends of a pass -/

theorem stopBy_none {s : State} (h : s.stop = .none) (why : Stop) : s.stopBy why = { s with stop := why } := by
  rw [State.stopBy, if_pos h]

/-- What a stopped pass that was not told to stop before leaves (43_engine R267). -/
theorem drain_stopBy {s : State} (h : s.stop = .none) (why : Stop) :
    drain (s.stopBy why) = { s with
      mem := (drain (s.stopBy why)).mem, pending := (drain (s.stopBy why)).pending
      pcount := (drain (s.stopBy why)).pcount, faultAddr := (drain (s.stopBy why)).faultAddr
      free := (drain (s.stopBy why)).free, stop := why, overs := []
      status := { s.status with busy := false, done := true, pres := why.pres } } := by
  rw [stopBy_none h]; rfl

theorem exec_abort_idle {s : State} (h : s.status.busy = false) : exec .abort s = .next s := by
  simp only [exec, execAbort, h, Bool.false_eq_true, if_false]

theorem exec_abort_busy {s : State} (h : s.status.busy = true) : exec .abort s = .next (drain (s.stopBy .aborted)) := by
  simp only [exec, execAbort, h, if_true]

/-- A pass told to stop drains by further points. -/
theorem PassPoints.stopped {pol : Policy} {s u : State} (h : PassPoints pol s u) (hp : s.ctrl.policy = some pol)
    (why : Stop) : PassPoints pol s (drained (u.stopBy why)) :=
  PassPoints.of_drained (.aside _ _ _ _ h) ((policy_of_config h.config).trans hp)

/-- Settles O31: what ABORT changes is that of further output points and of the end of the pass. -/
theorem abortCommandResult : Obligations.AbortCommandResult := by
  intro s
  refine ⟨exec_abort_idle, fun hb hst => ⟨_, exec_abort_busy hb, drain_stopBy hst .aborted, fun hrun => ?count,
    fun hrun hc hs pol i hp hi hw => ?words⟩⟩
  case count =>
    obtain ⟨pol, hp⟩ := passRunning_policy hrun hb
    exact (PassPoints.start.stopped hp .aborted).count (passRunning_pendingWf hrun hb) (passRunning_count hrun hb).2
  case words =>
    exact (PassPoints.start.stopped hp .aborted).keptOrCorrect (passRunning_pendingWf hrun hb) hc hs hw

/-- An address at which the platform refuses an access of a pending point: the read of a tap, or the write of the output word
(43_engine R262; 60_exceptions R306). -/
def State.refusedAccess (s : State) (pol : Policy) (a : Word) : Prop :=
  ∃ n, pendingHas s.pending n = true ∧
    ((a ∈ tapAddrs s pol n ∧ refusesRead s a = true) ∨ (a = pointAddr s n ∧ refusesWrite s a = true))

/-- An output point that fails gives back the address of a refused access. -/
theorem PassPoints.refusedAccess {pol : Policy} {s u t : State} {i : Nat} {a : Word} (h : PassPoints pol s u)
    (hwf : pendingWfFrom (imgW s * imgH s) 0 s.pending = true) (hi : pendingHas u.pending i = true)
    (ha : attempt pol i u = (some a, t)) : s.refusedAccess pol a := by
  refine ⟨i, h.wasPending hwf hi, ?_⟩
  rw [← tapAddrs_of_config h.config, ← pointAddr_of_config h.config, ← refusesRead_of_busMap h.busMap,
    ← refusesWrite_of_busMap h.busMap]
  exact (attempt_failed ha).imp (fun ⟨hm, hr, _⟩ => ⟨hm, hr⟩) (fun ⟨he, hw, _⟩ => ⟨he, hw⟩)

/-- While a stopped pass drains, FAULT_ADDR stays the address of a refused access (43_engine R267). -/
theorem PassPoints.drained_faultAddr {pol : Policy} {s u : State} (h : PassPoints pol s u) (hp : s.ctrl.policy = some pol)
    (hwf : pendingWfFrom (imgW s * imgH s) 0 s.pending = true) (hf : s.refusedAccess pol u.faultAddr) :
    s.refusedAccess pol (drained u).faultAddr := by
  have hpu : u.ctrl.policy = some pol := (policy_of_config h.config).trans hp
  refine (drained_induct (P := fun v => PassPoints pol s v ∧ s.refusedAccess pol v.faultAddr) ?written ?failed
    ⟨.aside _ _ _ _ h, hf⟩).2
  case written =>
    intro v pol' i t hp' ⟨hv, hfv⟩ hi ht
    cases hpu.symm.trans hp'
    refine ⟨hv.of_attempt hi ht, ?_⟩
    obtain ⟨p, -, -, rfl⟩ := attempt_written ht
    exact hfv
  case failed =>
    intro v pol' i a t hp' ⟨hv, _⟩ hi ht
    cases hpu.symm.trans hp'
    exact ⟨.aside _ _ _ _ (hv.of_attempt hi ht), hv.refusedAccess hwf hi ht⟩

/-- What a bus error of an output point leaves (43_engine R267). -/
theorem passFault_attempt {pol : Policy} {s t : State} {i : Nat} {a : Word} (ht : attempt pol i s = (some a, t))
    (hst : s.stop = .none) : passFault a t = { s with
      mem := (passFault a t).mem, pending := (passFault a t).pending, pcount := (passFault a t).pcount
      faultAddr := (passFault a t).faultAddr, free := (passFault a t).free, stop := .busErr, overs := []
      status := { s.status with busy := false, done := true, pres := 1 } } := by
  have hframe : t = s.withPass t := by simpa only [ht] using attempt_frame pol i s
  have hstop : t.stop = .none := by rw [hframe]; exact hst
  have hdrain := drain_stopBy (s := { t with faultAddr := a }) hstop .busErr
  rw [passFault]
  generalize drain ({ t with faultAddr := a }.stopBy .busErr) = d at hdrain ⊢
  rw [hframe] at hdrain
  exact hdrain

/-- Settles O36: the point that fails, and the points of the drain after it. -/
theorem busErrorEndsThePass : Obligations.BusErrorEndsThePass := by
  intro s pol pick i rest ha hrun hb hp hi hfail
  obtain ⟨hst, hr⟩ := passRunning_enabled hrun hb
  have hwf := passRunning_pendingWf hrun hb
  obtain ⟨a, t, ht⟩ := attempt_fails (s := { s with agenda := rest }) hfail
  have hturn := engineTurn_eq (s := { s with agenda := rest }) hb hst hr hp hi
  rw [ht, settle_failed] at hturn
  have hhas := pendingPick_has hi
  have hstart : PassPoints pol s { s with agenda := rest } := .aside _ _ _ _ .start
  have hfailed : PassPoints pol s { t with faultAddr := a } := .aside _ _ _ _ (hstart.of_attempt hhas ht)
  have hpoints := hfailed.stopped hp .busErr
  obtain ⟨hmono, hsum⟩ := hpoints.count hwf (passRunning_count hrun hb).2
  refine ⟨_, (step_engine ha).trans (congrArg _ hturn), passFault_attempt ht hst, ?fault, hmono, hsum,
    fun hc hs k _ hw => hpoints.keptOrCorrect hwf hc hs hw⟩
  case fault =>
    have hstop : PassPoints pol s ({ t with faultAddr := a }.stopBy .busErr) := .aside _ _ _ _ hfailed
    exact hstop.drained_faultAddr hp hwf (hstart.refusedAccess hwf hhas ht)

/-! ### The memory outside the pending output words -/

/-- After an output point and what follows it memory is that of output points (43_engine R262, R267). -/
theorem settle_mem {pol : Policy} {s : State} {i : Nat} (hp : s.ctrl.policy = some pol)
    (hi : pendingHas s.pending i = true) : ∃ v, PassPoints pol s v ∧ (settle (attempt pol i s)).mem = v.mem := by
  cases ht : attempt pol i s with
  | mk o t =>
    have hpoint : PassPoints pol s t := PassPoints.start.of_attempt hi ht
    cases o with
    | none => exact ⟨t, hpoint, by rw [settle_none]⟩
    | some a => exact ⟨_, PassPoints.stopped (u := { t with faultAddr := a }) (.aside _ _ _ _ hpoint) hp .busErr, rfl⟩

/-- The engine's turn leaves every byte outside the pending output words (43_engine R271). -/
theorem engineTurn_outside (pick : Nat) {s : State} {k : Nat} (hc : s.memCanonical) (hrun : s.passRunning)
    (hk : ∀ i j, pendingHas s.pending i = true → j < 4 → k ≠ byteAddr (pointAddr s i) j) :
    readByte (engineTurn pick s).mem k = readByte s.mem k := by
  rcases engineTurn_cases pick s with e | ⟨pol, i, hb, -, -, hp, hi, e⟩
  · rw [e]
  · obtain ⟨v, hv, hmem⟩ := settle_mem hp (pendingPick_has hi)
    rw [e, hmem]
    exact hv.readByte_outside (passRunning_pendingWf hrun hb) hc hk

/-- ABORT leaves every byte outside the pending output words (43_engine R268). -/
theorem exec_abort_outside {s t : State} {k : Nat} (hc : s.memCanonical) (hrun : s.passRunning)
    (hk : ∀ i j, pendingHas s.pending i = true → j < 4 → k ≠ byteAddr (pointAddr s i) j) (h : exec .abort s = .next t) :
    readByte t.mem k = readByte s.mem k := by
  cases hb : s.status.busy with
  | false =>
    cases h.symm.trans (exec_abort_idle hb)
    rfl
  | true =>
    cases h.symm.trans (exec_abort_busy hb)
    obtain ⟨pol, hp⟩ := passRunning_policy hrun hb
    exact (PassPoints.start.stopped hp .aborted).readByte_outside (passRunning_pendingWf hrun hb) hc hk

/-- Settles O37: ABORT, the engine's turn that the agenda names, and the free one. -/
theorem passWritesOnlyPendingOutputWords : Obligations.PassWritesOnlyPendingOutputWords := by
  refine fun s t k hc hrun hk => ⟨exec_abort_outside hc hrun hk, fun pick rest ha h => ?_, fun ha h => ?_⟩
  · cases h.symm.trans (step_engine ha)
    exact engineTurn_outside pick (s := { s with agenda := rest }) hc hrun hk
  · cases h.symm.trans (step_nil ha)
    exact engineTurn_outside _ hc hrun hk

/-! ### A pass left alone -/

/-- A running pass with nothing on the agenda, none of whose accesses is refused. -/
structure PassAlone (pol : Policy) (s : State) : Prop where
  running  : s.passRunning
  busy     : s.status.busy = true
  agenda   : s.agenda = []
  policy   : s.ctrl.policy = some pol
  accesses : ∀ i, pendingHas s.pending i = true →
    (∀ a ∈ tapAddrs s pol i, refusesRead s a = false) ∧ refusesWrite s (pointAddr s i) = false

theorem PassAlone.pendingWf {pol : Policy} {s : State} (h : PassAlone pol s) :
    pendingWfFrom (imgW s * imgH s) 0 s.pending = true := passRunning_pendingWf h.running h.busy

/-- A step of a pass left alone completes a pending point (43_engine R262). -/
theorem PassAlone.step_completes {pol : Policy} {s : State} (h : PassAlone pol s) :
    ∃ pick i t, pendingPick s.pending pick = some i ∧ attempt pol i s = (none, t) ∧
      step s = .next (settle (none, t)) := by
  obtain ⟨hst, hr⟩ := passRunning_enabled h.running h.busy
  obtain ⟨i, hi⟩ := pendingPick_isSome (Config.passOrder s.free) (passRunning_count h.running h.busy).1
  obtain ⟨hreads, hwrite⟩ := h.accesses i (pendingPick_has hi)
  obtain ⟨t, ht⟩ := attempt_completes hreads hwrite
  exact ⟨_, i, t, hi, ht, (step_nil h.agenda).trans (by rw [engineTurn_eq h.busy hst hr h.policy hi, ht])⟩

/-- After a point that is not the last the pass is still alone. -/
theorem PassAlone.next {pol : Policy} {s t : State} {pick i : Nat} (h : PassAlone pol s)
    (hi : pendingPick s.pending pick = some i) (ht : attempt pol i s = (none, t)) (hne : pendingSize t.pending ≠ 0) :
    PassAlone pol t := by
  have hkept := settle_passKept h.busy ⟨h.running, fun hb => nomatch h.busy.symm.trans hb⟩ hi ht
  rw [settle_more hne] at hkept
  have hpoint : PassPoints pol s t := PassPoints.start.of_attempt (pendingPick_has hi) ht
  have hframe : t = s.withPass t := by simpa only [ht] using attempt_frame pol i s
  refine ⟨hkept.1, by rw [hframe]; exact h.busy, by rw [hframe]; exact h.agenda,
    (policy_of_config hpoint.config).trans h.policy, fun n hn => ?_⟩
  obtain ⟨hreads, hwrite⟩ := h.accesses n (hpoint.wasPending h.pendingWf hn)
  rw [tapAddrs_of_config hpoint.config, pointAddr_of_config hpoint.config, refusesWrite_of_busMap hpoint.busMap]
  exact ⟨fun a ha => (refusesRead_of_busMap hpoint.busMap a).trans (hreads a ha), hwrite⟩

/-- A completed point takes one point out of PENDING and leaves STATUS. -/
theorem PassAlone.takes_one {pol : Policy} {s t : State} {i : Nat} (h : PassAlone pol s)
    (hi : pendingHas s.pending i = true) (ht : attempt pol i s = (none, t)) :
    pendingSize t.pending + 1 = pendingSize s.pending ∧ t.status = s.status := by
  obtain ⟨p, -, -, rfl⟩ := attempt_written ht
  exact ⟨pendingSize_remove h.pendingWf hi, rfl⟩

/-- A pass left alone is busy until as many points have completed as were pending, and then it ends (43_engine R264, R265). -/
theorem PassAlone.run {pol : Policy} {s : State} (n : Nat) {u : State} (h : PassAlone pol u) (hs : PassPoints pol s u)
    (hn : pendingSize u.pending = n + 1) :
    (∀ k, k < n + 1 → ∃ t, Host.Core.run core k u = .next t ∧ t.status.busy = true) ∧
    ∃ t, Host.Core.run core (n + 1) u = .next (passEnd t) ∧ PassPoints pol s t ∧ t.status = u.status ∧
      pendingSize t.pending = 0 := by
  induction n generalizing u with
  | zero =>
    obtain ⟨pick, i, t, hi, ht, hstep⟩ := h.step_completes
    obtain ⟨hsize, hstatus⟩ := h.takes_one (pendingPick_has hi) ht
    have hlast : pendingSize t.pending = 0 := by omega
    rw [settle_last hlast] at hstep
    refine ⟨fun k hk => ?_, t, run_succ core hstep, hs.of_attempt (pendingPick_has hi) ht, hstatus, hlast⟩
    obtain rfl : k = 0 := by omega
    exact ⟨u, rfl, h.busy⟩
  | succ n ih =>
    obtain ⟨pick, i, t, hi, ht, hstep⟩ := h.step_completes
    obtain ⟨hsize, hstatus⟩ := h.takes_one (pendingPick_has hi) ht
    have hmore : pendingSize t.pending ≠ 0 := by omega
    rw [settle_more hmore] at hstep
    obtain ⟨hbusy, v, hrun, hv, hvstatus, hlast⟩ :=
      ih (h.next hi ht hmore) (hs.of_attempt (pendingPick_has hi) ht) (by omega)
    refine ⟨fun k hk => ?_, v, (run_succ core hstep).trans hrun, hv, hvstatus.trans hstatus, hlast⟩
    cases k with
    | zero => exact ⟨u, rfl, h.busy⟩
    | succ k =>
      obtain ⟨w, hw, hb⟩ := hbusy k (by omega)
      exact ⟨w, (run_succ core hstep).trans hw, hb⟩

/-- The whole run of a pass left alone, with PCOUNT at its end (43_engine R265, R266). -/
theorem PassAlone.finishes {pol : Policy} {s : State} (h : PassAlone pol s) :
    (∀ k, k < pendingSize s.pending → ∃ t, Host.Core.run core k s = .next t ∧ t.status.busy = true) ∧
    ∃ t, Host.Core.run core (pendingSize s.pending) s = .next (passEnd t) ∧ PassPoints pol s t ∧
      t.status = s.status ∧ pendingSize t.pending = 0 ∧ t.pcount.toNat = imgW s * imgH s := by
  obtain ⟨hne, hcount⟩ := passRunning_count h.running h.busy
  obtain ⟨n, hn⟩ := Nat.exists_eq_succ_of_ne_zero hne
  obtain ⟨hbusy, t, hrun, hpoints, hstatus, hlast⟩ := h.run n .start hn
  obtain ⟨-, hsum⟩ := hpoints.count h.pendingWf hcount
  exact ⟨hn ▸ hbusy, t, hn ▸ hrun, hpoints, hstatus, hlast, by omega⟩

/-- Settles O34: as many steps as points pending, each of which completes one. -/
theorem passRunsToItsEnd : Obligations.PassRunsToItsEnd := by
  intro s pol hrun hb ha hp hacc
  obtain ⟨hbusy, t, ht, -, hstatus, hlast, hcount⟩ := PassAlone.finishes ⟨hrun, hb, ha, hp, hacc⟩
  exact ⟨hbusy, _, ht, congrArg (Status.ended · 0) hstatus, hlast, hcount⟩

/-! ### What a finished pass leaves in memory -/

/-- A pass just started whose output words may be written, are distinct, and are no source words. -/
structure SeparateWords (pol : Policy) (s : State) : Prop where
  canonical : s.memCanonical
  aligned   : s.basesAligned
  pendingWf : pendingWfFrom (imgW s * imgH s) 0 s.pending = true
  overs     : s.overs = []
  writable  : ∀ i, i < imgW s * imgH s → refusesWrite s (pointAddr s i) = false
  distinct  : ∀ i j, i < imgW s * imgH s → j < imgW s * imgH s → i ≠ j → pointAddr s i ≠ pointAddr s j
  apart     : ∀ i j, i < imgW s * imgH s → j < imgW s * imgH s → pointAddr s j ∉ tapAddrs s pol i

/-- With separate words no tap races: no word was written yet, and no output word is a source word. -/
theorem SeparateWords.not_races {pol : Policy} {s : State} (h : SeparateWords pol s) {i : Nat} (hi : i < imgW s * imgH s) :
    ∀ a ∈ tapAddrs s pol i, ¬ s.races a := by
  rintro a ha (⟨o, ho, -⟩ | ⟨j, hj, rfl⟩)
  · exact List.not_mem_nil (h.overs ▸ ho)
  · exact h.apart i j hi hj ha

/-- With separate words every point that has left PENDING holds the correct output value of the source as it was at the start
(43_engine R263, R271). -/
theorem PassPoints.finishedWord {pol : Policy} {s u : State} (h : PassPoints pol s u) (hsep : SeparateWords pol s)
    {i : Nat} (hi : i < imgW s * imgH s) (hstart : pendingHas s.pending i = true) (hdone : pendingHas u.pending i = false) :
    readWord u.mem (pointAddr s i) = s.correctWord pol i := by
  have hwf := hsep.pendingWf
  induction h with
  | start => exact nomatch hstart.symm.trans hdone
  | aside _ _ _ _ _ ih => exact ih hdone
  | @refused u n v before hn refused ih =>
    have hlt := (pendingHas_bounds (before.pendingWf hwf) hn).2
    rw [pointAddr_of_config before.config, refusesWrite_of_busMap before.busMap, hsep.writable n hlt] at refused
    exact nomatch refused
  | @written u n p before hn sum _ ih =>
    have hlt := (pendingHas_bounds (before.pendingWf hwf) hn).2
    by_cases e : i = n
    case neg =>
      rw [pendingHas_remove (before.pendingWf hwf), decide_eq_true e, Bool.and_true] at hdone
      exact (before.readWord_writeOther hsep.canonical hsep.aligned _ (hsep.distinct n i hlt hi (Ne.symm e))).trans (ih hdone)
    case pos =>
      subst e
      have hr := hsep.not_races hi
      have hru : ∀ a ∈ tapAddrs u pol i, ¬ u.races a := fun a ha hra =>
        hr a (tapAddrs_of_config before.config pol i ▸ ha) (before.races hwf hra)
      have hpass : ∀ o ∈ u.overs, o.addr = pointAddr u i → o.byPass = true := fun o hm _ =>
        (before.overs hwf hm).elim (fun hm => (List.not_mem_nil (hsep.overs ▸ hm)).elim) (·.1)
      rw [← before.correctWord hwf hsep.canonical hsep.aligned sum hr, ← writtenWord_correct sum hru hpass,
        ← pointAddr_of_config before.config]
      exact readWord_writeWord_same _ _ (before.memCanonical hsep.canonical)

/-- Nothing is pending when the count of pending points is 0. -/
theorem pendingHas_of_size_zero {ps : List Span} (h : pendingSize ps = 0) (i : Nat) : pendingHas ps i = false :=
  Bool.eq_false_iff.mpr fun hi => pendingSize_of_has hi h

/-- Settles O35: the run of O34, at whose end every point has left PENDING. -/
theorem finishedPassHoldsTheConvolution : Obligations.FinishedPassHoldsTheConvolution := by
  intro s pol hc hs hrun hb hp ha ho hpend hacc hinj hdisj
  have hhas (i : Nat) : pendingHas s.pending i = true ↔ i < imgW s * imgH s := by
    rw [hpend, pendingHas_all, decide_eq_true_iff]
  have alone : PassAlone pol s := ⟨hrun, hb, ha, hp, fun i hi => hacc i ((hhas i).mp hi)⟩
  obtain ⟨-, t, ht, hpoints, hstatus, hlast, hcount⟩ := alone.finishes
  rw [show pendingSize s.pending = imgW s * imgH s by rw [hpend, pendingSize_all]] at ht
  refine ⟨_, ht, congrArg (Status.ended · 0) hstatus, hcount, fun i hi => ?words, fun k hk => ?others⟩
  case words =>
    exact hpoints.finishedWord ⟨hc, hs, alone.pendingWf, ho, fun j hj => (hacc j hj).2, hinj, hdisj⟩ hi ((hhas i).mpr hi)
      (pendingHas_of_size_zero hlast i)
  case others => exact hpoints.readByte_outside alone.pendingWf hc fun i j hi => hk i j ((hhas i).mp hi)

end Sys2Proof.Machine
end

section
/-! The family of 60_exceptions: every step and every command answers a state, what a rejection changes and which check reports
it, where FAULT_ADDR comes from, and the interrupt line. -/

namespace Sys2Proof.Machine

/-! ### Every step answers a state -/

theorem command_total (w : Word) (s : State) : ∃ t, command w s = .next t := by
  unfold command
  split
  · exact exec_total _ s
  · exact ⟨_, rfl⟩

/-- A transaction is answered in every state: not accepted, with the ERROR response, or with what its register does. -/
theorem portAccess_total (a : Access) (s : State) : ∃ t, portAccess a s = .next t := by
  unfold portAccess portWrite
  split
  · exact ⟨_, rfl⟩
  · split
    · exact ⟨_, rfl⟩
    · split
      · split
        · exact command_total ..
        · exact ⟨_, rfl⟩
      · exact ⟨_, rfl⟩

theorem accessDuring_total (a : Access) (ws : List MemWrite) (s : State) : ∃ t, accessDuring a ws s = .next t := by
  cases hb : s.status.busy with
  | true => rw [accessDuring_busy a ws hb]; exact portAccess_total ..
  | false =>
    obtain ⟨u, hu⟩ := portAccess_total a { s with during := ws }
    exact ⟨_, accessDuring_idle hb hu⟩

/-- Every step has a next state: only a transaction could have none, and it is answered (60_exceptions R300, R310). -/
theorem step_total (s : State) : ∃ t, step s = .next t := by
  cases ha : s.agenda with
  | nil => exact ⟨_, step_nil ha⟩
  | cons e rest =>
    cases e with
    | access a => rw [step_access ha]; exact portAccess_total ..
    | accessDuring a ws => rw [step_accessDuring ha]; exact accessDuring_total ..
    | poll _ _ _ | awaitIrq | engine _ | resetOn | resetOff | memWrite _ _ | memRead _ | setBusMap _ =>
      unfold step; rw [ha]; exact ⟨_, rfl⟩

/-- Settles O6. -/
theorem everyStepAnswersAState : Obligations.EveryStepAnswersAState := ⟨step_total, exec_total⟩

/-! ### The rejection -/

/-- Settles O47: each code listed is its cause's, and a rejection is the record update. -/
theorem rejectionChangesOnlyCerrAndCecode : Obligations.RejectionChangesOnlyCerrAndCecode := by
  refine fun s => ⟨fun p hp => ?_, fun _ => rfl⟩
  have hcode : p.1.code = p.2 := by revert p; decide
  rw [← hcode]
  rfl

/-! ### A bus error of SAMPLE and CONV1 -/

/-- SAMPLE where its checks pass stores what its read gives (41_boundary R202). -/
theorem exec_sample_checked {s : State} {pol : Policy} (d : PReg) (hb : s.status.busy = false)
    (hp : s.ctrl.policy = some pol) (hz : dimZero s = false) :
    exec (.sample d) s =
      .next (storePixel d (sample { s with mem := seenMem s 0 } pol (coordX s) (coordY s)) s) := by
  simp only [exec, execSample, hb, withPolicy_some hp, hz, rejectIf_false]

/-- CONV1 where its checks pass stores what its convolution gives (42_kernel R235). -/
theorem exec_conv1_checked {s : State} {pol : Policy} (d : PReg) (hb : s.status.busy = false)
    (hk : s.status.kvalid = true) (hp : s.ctrl.policy = some pol) (hz : dimZero s = false) :
    exec (.conv1 d) s = .next (storePixel d (convSeen (seenMem s) s pol (coordX s) (coordY s)) s) := by
  simp only [exec, execConv1, hb, hk, withPolicy_some hp, hz, Bool.not_true, rejectIf_false]

/-- A convolution fails with the address of its first refused tap, in row-then-column order (42_kernel R237). -/
theorem convSeen_first {m : Nat → Memory} {s : State} {pol : Policy} {x y : Int} {j i : Nat} (ht : s.isTap j i)
    (hbefore : ∀ j' i', s.isTap j' i' → (j' < j ∨ (j' = j ∧ i' < i)) → refusesRead s (s.tapAddr pol x y j' i') = false)
    (hr : refusesRead s (s.tapAddr pol x y j i) = true) : convSeen m s pol x y = .busErr (s.tapAddr pol x y j i) := by
  obtain ⟨before, after, hsplit, hearlier⟩ := taps_split ht
  have hfirst := accumulate_first (m := m) (after := after) (k := (i, j)) 0 Pixel.zero
    (fun t hm => hbefore t.2 t.1 (hearlier t hm).1 (hearlier t hm).2) hr
  unfold convSeen
  rw [hsplit, hfirst]
  rfl

/-- Settles O25: the read of SAMPLE, and the first refused tap of CONV1, give the address that the rejection stores. -/
theorem busErrorRejectsSampleAndConv1 : Obligations.BusErrorRejectsSampleAndConv1 := by
  intro s d pol hb hp hw hh
  have hz : dimZero s = false := dimZero_eq_false hw hh
  refine ⟨fun mx my hm hr => ?sample, fun j i hk ht hbefore hr => ?conv1⟩
  case sample =>
    have haddr : sampleAddr s pol (coordX s) (coordY s) = srcAddr s mx.toNat my.toNat := sampleAddr_of_mapPoint hm
    rw [← haddr] at hr ⊢
    rw [exec_sample_checked d hb hp hz, sample_busErr (s := { s with mem := seenMem s 0 }) hr]
    rfl
  case conv1 =>
    rw [exec_conv1_checked d hb hk hp hz, coordX, coordY, convSeen_first ht hbefore hr]
    rfl

/-! ### The order of the checks -/

theorem kdimEven_iff (k : KDim) : kdimEven k = true ↔ k.kw.toNat % 2 = 0 ∨ k.kh.toNat % 2 = 0 := by
  simp only [kdimEven, Bool.or_eq_true, beq_iff_eq]

theorem kdimRange_iff (k : KDim) : kdimRange k = true ↔ 15 < k.kw.toNat ∨ 15 < k.kh.toNat := by
  simp only [kdimRange, Bool.or_eq_true, decide_eq_true_eq]
  rfl

theorem policy_of_bpol_reserved {c : Ctrl} (h : c.bpol = 3) : c.policy = none := (policy_eq_none c).mpr h

/-! #### With no pass running, each check that fails after those before it have passed (60_exceptions R303) -/

section
variable {s : State} (hb : s.status.busy = false)
include hb

theorem exec_kcommit_even (he : kdimEven s.kdim = true) : exec .kcommit s = .next (reject .kdimEven s) := by
  simp only [exec, execKcommit, hb, he, rejectIf_false, rejectIf_true]

theorem exec_kcommit_range (he : kdimEven s.kdim = false) (hr : kdimRange s.kdim = true) :
    exec .kcommit s = .next (reject .kdimRange s) := by
  simp only [exec, execKcommit, hb, he, hr, rejectIf_false, rejectIf_true]

theorem exec_start_notCommitted (hk : s.status.kvalid = false) : exec .start s = .next (reject .notCommitted s) := by
  simp only [exec, execStart, hb, hk, Bool.not_false, rejectIf_false, rejectIf_true]

theorem exec_start_bpolReserved (hk : s.status.kvalid = true) (hp : s.ctrl.bpol = 3) :
    exec .start s = .next (reject .bpolReserved s) := by
  simp only [exec, execStart, hb, hk, Bool.not_true, rejectIf_false, withPolicy_none (policy_of_bpol_reserved hp)]

theorem exec_conv1_notCommitted (hk : s.status.kvalid = false) (d : PReg) :
    exec (.conv1 d) s = .next (reject .notCommitted s) := by
  simp only [exec, execConv1, hb, hk, Bool.not_false, rejectIf_false, rejectIf_true]

theorem exec_conv1_bpolReserved (hk : s.status.kvalid = true) (hp : s.ctrl.bpol = 3) (d : PReg) :
    exec (.conv1 d) s = .next (reject .bpolReserved s) := by
  simp only [exec, execConv1, hb, hk, Bool.not_true, rejectIf_false, withPolicy_none (policy_of_bpol_reserved hp)]

theorem exec_conv1_dimZero (hk : s.status.kvalid = true) (hp : s.ctrl.bpol ≠ 3) (hz : dimZero s = true) (d : PReg) :
    exec (.conv1 d) s = .next (reject .dimZero s) := by
  obtain ⟨pol, hpol⟩ := policy_isSome hp
  simp only [exec, execConv1, hb, hk, withPolicy_some hpol, hz, Bool.not_true, rejectIf_false, rejectIf_true]

theorem exec_sample_bpolReserved (hp : s.ctrl.bpol = 3) (d : PReg) :
    exec (.sample d) s = .next (reject .bpolReserved s) := by
  simp only [exec, execSample, hb, rejectIf_false, withPolicy_none (policy_of_bpol_reserved hp)]

theorem exec_sample_dimZero (hp : s.ctrl.bpol ≠ 3) (hz : dimZero s = true) (d : PReg) :
    exec (.sample d) s = .next (reject .dimZero s) := by
  obtain ⟨pol, hpol⟩ := policy_isSome hp
  simp only [exec, execSample, hb, withPolicy_some hpol, hz, rejectIf_false, rejectIf_true]

end

theorem exec_map_bpolReserved {s : State} (hp : s.ctrl.bpol = 3) : exec .map s = .next (reject .bpolReserved s) :=
  withPolicy_none (policy_of_bpol_reserved hp)

theorem exec_map_dimZero {s : State} (hp : s.ctrl.bpol ≠ 3) (hz : dimZero s = true) :
    exec .map s = .next (reject .dimZero s) := by
  obtain ⟨pol, hpol⟩ := policy_isSome hp
  simp only [exec, execMap, withPolicy_some hpol, hz, rejectIf_true]

/-- A command's Pixel result changes a pixel register, or is the rejection BUSERR (60_exceptions R304). -/
theorem storePixel_cases (d : PReg) (r : Bus Pixel) (s : State) :
    storePixel d r s = { s with pregs := (storePixel d r s).pregs } ∨
    storePixel d r s = rejectBusErr (storePixel d r s).faultAddr s := by
  cases r with
  | ok p => exact .inl rfl
  | busErr a => exact .inr rfl

theorem startPass_keeps_cerr (s : State) :
    (startPass s).status.cerr = s.status.cerr ∧ (startPass s).status.cecode = s.status.cecode := by
  unfold startPass
  split
  · exact ⟨rfl, rfl⟩
  · exact ⟨rfl, rfl⟩

/-- NOP, ABORT and the pixel arithmetic have no check: they leave CERR and CECODE (60_exceptions R303). -/
theorem exec_unchecked_keeps_cerr {i : Instr} {s t : State}
    (hi : i.opcode ∈ ([0x00, 0x03, 0x10, 0x11, 0x12, 0x13, 0x14] : List (BitVec 8))) (h : exec i s = .next t) :
    t.status.cerr = s.status.cerr ∧ t.status.cecode = s.status.cecode := by
  cases i with
  | abort =>
    cases hb : s.status.busy with
    | false => cases h.symm.trans (exec_abort_idle hb); exact ⟨rfl, rfl⟩
    | true => cases h.symm.trans (exec_abort_busy hb); exact ⟨rfl, rfl⟩
  | nop | padd _ _ _ | pscale _ _ | pdiv _ _ | tocolor _ | fromcolor _ => cases h; exact ⟨rfl, rfl⟩
  | kcommit | start | map | sample _ | conv1 _ => simp [Instr.opcode] at hi

/-- Settles O48: the rejection of each check where those before it pass, and what each command does where all pass. -/
theorem rejectionsComeInOrder : Obligations.RejectionsComeInOrder := by
  intro s
  refine ⟨fun w e hw => command_illegal (fun i hi => nomatch hw.symm.trans hi) s,
    fun hb i hi => exec_rejects_busy hb ?busy, fun hb => ⟨?even, ?range, ?notCommitted, ?bpol, ?conv1Dim,
      exec_sample_bpolReserved hb, fun hp hz => exec_sample_dimZero hb hp (dimZero_eq_true hz), ?kcommit, ?start, ?sample,
      ?conv1⟩, exec_map_bpolReserved, fun hp hz => exec_map_dimZero hp (dimZero_eq_true hz), ?map,
    fun _ _ => exec_unchecked_keeps_cerr⟩
  case busy => revert i; decide
  case even => exact fun he => exec_kcommit_even hb ((kdimEven_iff _).mpr he)
  case range =>
    intro hw hh hr
    exact exec_kcommit_range hb (Bool.eq_false_iff.mpr fun he => by rw [kdimEven_iff] at he; omega) ((kdimRange_iff _).mpr hr)
  case notCommitted => exact fun hk => ⟨exec_start_notCommitted hb hk, exec_conv1_notCommitted hb hk⟩
  case bpol => exact fun hk hp => ⟨exec_start_bpolReserved hb hk hp, exec_conv1_bpolReserved hb hk hp⟩
  case conv1Dim => exact fun hk hp hz => exec_conv1_dimZero hb hk hp (dimZero_eq_true hz)
  case kcommit =>
    intro hk t h
    cases h.symm.trans (exec_kcommit_legal hb hk)
    exact ⟨rfl, rfl⟩
  case start =>
    intro hk hp t h
    cases h.symm.trans (exec_start hb hk hp)
    exact startPass_keeps_cerr s
  case sample =>
    intro hp hw hh d t h
    obtain ⟨pol, hpol⟩ := policy_isSome hp
    cases h.symm.trans (exec_sample_checked d hb hpol (dimZero_eq_false hw hh))
    exact storePixel_cases ..
  case conv1 =>
    intro hk hp hw hh d t h
    obtain ⟨pol, hpol⟩ := policy_isSome hp
    cases h.symm.trans (exec_conv1_checked d hb hk hpol (dimZero_eq_false hw hh))
    exact storePixel_cases ..
  case map =>
    intro hp hw hh t h
    obtain ⟨pol, hpol⟩ := policy_isSome hp
    cases h.symm.trans (exec_map hpol (dimZero_eq_false hw hh))
    exact ⟨rfl, rfl⟩

/-! ### FAULT_ADDR -/

/-- What FAULT_ADDR may hold after a command: what it held, or an address at which the platform refuses an access
(60_exceptions R306). -/
def State.keptOrRefused (s : State) (a : Word) : Prop :=
  a = s.faultAddr ∨ refusesRead s a = true ∨ refusesWrite s a = true

/-- An output point leaves the map of bus errors. -/
theorem attempt_busMap {pol : Policy} {i : Nat} {s t : State} {o : Option Word} (h : attempt pol i s = (o, t)) :
    t.busMap = s.busMap := by
  rw [show t = s.withPass t by simpa only [h] using attempt_frame pol i s, withPass_busMap]

/-- A stopped pass writes FAULT_ADDR only with the address of a refused access (43_engine R267). -/
theorem drained_keptOrRefused (s : State) : s.keptOrRefused (drained s).faultAddr := by
  refine (drained_induct (P := fun u => u.busMap = s.busMap ∧ s.keptOrRefused u.faultAddr) ?written ?failed
    ⟨rfl, .inl rfl⟩).2
  case written =>
    intro u pol i t _ ⟨hmap, hfault⟩ _ ht
    refine ⟨(attempt_busMap ht).trans hmap, ?_⟩
    obtain ⟨p, -, -, rfl⟩ := attempt_written ht
    exact hfault
  case failed =>
    intro u pol i a t _ ⟨hmap, _⟩ _ ht
    refine ⟨(attempt_busMap ht).trans hmap, .inr ?_⟩
    rw [← refusesRead_of_busMap hmap, ← refusesWrite_of_busMap hmap]
    exact (attempt_failed ht).imp (fun ⟨_, hr, _⟩ => hr) (fun ⟨_, hw, _⟩ => hw)

theorem regWrite_faultAddr (r : Reg) (v : Word) (s : State) : (regWrite r v s).faultAddr = s.faultAddr := by
  rw [regWrite_frame]

theorem startPass_faultAddr (s : State) : (startPass s).faultAddr = s.faultAddr := by
  unfold startPass
  split
  · rfl
  · rfl

/-- Settles O49: of the effects a command can have, only the rejection BUSERR and the drain of ABORT touch FAULT_ADDR. -/
theorem onlyBusErrorsWriteFaultAddr : Obligations.OnlyBusErrorsWriteFaultAddr := by
  refine ⟨regWrite_faultAddr, fun i s t h hne => ?_⟩
  rcases exec_cases h with rfl | ⟨c, rfl⟩ | ⟨a, rfl, hr, hi⟩ | ⟨-, -, -, -, rfl⟩ | ⟨-, -, -, -, rfl⟩ | ⟨rfl, -, rfl⟩ |
    ⟨m, rfl⟩ | ⟨d, p, rfl⟩ | ⟨c, rfl⟩
  case inr.inr.inl =>
    refine ⟨?_, .inl hr⟩
    rcases hi with ⟨d, rfl⟩ | ⟨d, rfl⟩
    · exact .inl rfl
    · exact .inr (.inl rfl)
  case inr.inr.inr.inr.inl => exact absurd (startPass_faultAddr s) hne
  case inr.inr.inr.inr.inr.inl =>
    refine ⟨.inr (.inr rfl), ?_⟩
    rcases drained_keptOrRefused (s.stopBy .aborted) with hkept | hr | hw
    · exact absurd hkept hne
    · exact .inl hr
    · exact .inr ⟨rfl, hw⟩
  all_goals exact absurd rfl hne

/-! ### The interrupt line -/

/-- The interrupt enables in the word of CTRL (10_state R32). -/
theorem ctrl_word_enables (c : Ctrl) : c.word.getLsbD 4 = c.ieDone ∧ c.word.getLsbD 5 = c.ieCerr := by
  simp only [Ctrl.word, BitVec.getLsbD_append, BitVec.getLsbD_ofBool]
  simp

/-- Settles O46: DONE, CERR and their enables are the bits that the two words have there. -/
theorem interruptLineFollowsStatusAndCtrl : Obligations.InterruptLineFollowsStatusAndCtrl := by
  intro s
  obtain ⟨hdone, hcerr⟩ := ctrl_word_enables s.ctrl
  simp only [regRead, status_word_getLsbD, hdone, hcerr]
  rfl

end Sys2Proof.Machine
end

section
/-! The family of 70_reset: what the reset input leaves of the block and of memory, and a word that another master and the pass
both write. -/

namespace Sys2Proof.Machine

/-! ### The reset input -/

/-- A reset with no pass running leaves memory (70_reset R341). -/
theorem abandonPass_mem_idle {s : State} (h : s.status.busy = false) : (abandonPass s).mem = s.mem := by
  simp only [abandonPass, h, Bool.false_eq_true, if_false]

/-- A reset during a pass: points that drain, and then the writes in flight (70_reset R341). -/
theorem abandonPass_busy {s : State} (h : s.status.busy = true) :
    abandonPass s = wildLoop (Config.inFlight s.free) (drained s) := by
  simp only [abandonPass, h, if_true]

/-- The writes in flight leave every byte outside the pending output words (70_reset R341). -/
theorem wildLoop_outside (ks : List Nat) {s : State} {k bound : Nat} (hc : s.memCanonical)
    (hwf : pendingWfFrom bound 0 s.pending = true)
    (hk : ∀ i j, pendingHas s.pending i = true → j < 4 → k ≠ byteAddr (pointAddr s i) j) :
    readByte (wildLoop ks s).mem k = readByte s.mem k := by
  induction ks generalizing s with
  | nil => rfl
  | cons pick ks ih =>
    unfold wildLoop
    split
    · rfl
    · rename_i i hi
      have hwrite : readByte (writeWord s.mem (pointAddr s i) (Config.inFlightWord s.free)) k = readByte s.mem k :=
        readByte_writeWord_outside hc fun j hj => hk i j (pendingPick_has hi) hj
      rw [← hwrite]
      refine ih (wf_writeWord _ _ hc) (pendingWf_remove hwf) fun n j hn hj => hk n j ?_ hj
      rw [pendingHas_remove hwf] at hn
      exact (Bool.and_eq_true_iff.mp hn).1

/-- A reset leaves every byte outside the pending output words of the pass it cuts short (70_reset R341). -/
theorem abandonPass_outside {s : State} {k : Nat} (hc : s.memCanonical) (hrun : s.passRunning)
    (hk : ∀ i j, pendingHas s.pending i = true → j < 4 → k ≠ byteAddr (pointAddr s i) j) :
    readByte (abandonPass s).mem k = readByte s.mem k := by
  cases hb : s.status.busy with
  | false => rw [abandonPass_mem_idle hb]
  | true =>
    obtain ⟨pol, hp⟩ := passRunning_policy hrun hb
    have hwf := passRunning_pendingWf hrun hb
    have hdrained : PassPoints pol s (drained s) := PassPoints.start.of_drained hp
    have hwild := wildLoop_outside (Config.inFlight s.free) (k := k) (hdrained.memCanonical hc) (hdrained.pendingWf hwf)
      fun i j hi hj => by
        rw [pointAddr_of_config hdrained.config]
        exact hk i j (hdrained.wasPending hwf hi) hj
    rw [abandonPass_busy hb, hwild]
    exact hdrained.readByte_outside hwf hc hk

/-- While reset is asserted a transaction has no effect (70_reset R340; log 16). -/
theorem portAccess_inReset (a : Access) {s : State} (h : s.inReset = true) :
    portAccess a s = .next { s with resp := .notAccepted } := if_pos h

/-- Settles O52: `assertReset` is the record update, with the memory of the abandoned pass. -/
theorem resetInputPutsResetValues : Obligations.ResetInputPutsResetValues := by
  refine ⟨fun s rest ha => ⟨_, step_resetOn ha, rfl, fun hb => ?idle, fun hc hrun k hk => ?outside⟩,
    fun s a => portAccess_inReset a⟩
  case idle => exact abandonPass_mem_idle (s := { s with agenda := rest }) hb
  case outside => exact abandonPass_outside (s := { s with agenda := rest }) hc hrun hk

/-! ### A word that another master writes -/

/-- The word that holds the byte at an address starts at the multiple of 4 below it (20_memory R95). -/
theorem wordBase_toNat (a : Word) : (wordBase a).toNat = a.toNat / 4 * 4 := by
  have hmask : wordBase a = a >>> 2 <<< 2 := by
    apply BitVec.eq_of_getLsbD_eq
    intro i hi
    have hbit : ∀ i, i < 32 → (0xFFFFFFFC : Word).getLsbD i = decide (2 ≤ i) := by decide
    rw [wordBase, BitVec.getLsbD_and, hbit i hi, BitVec.getLsbD_shiftLeft, BitVec.getLsbD_ushiftRight]
    by_cases h : 2 ≤ i
    · simp [h, hi, Nat.lt_of_succ_le h]
    · simp [h, Nat.lt_of_not_le h]
  rw [hmask, BitVec.toNat_shiftLeft, BitVec.toNat_ushiftRight, Nat.shiftLeft_eq, Nat.shiftRight_eq_div_pow]
  omega

/-- The four bytes of an aligned word touch that word alone. -/
theorem touchedWords_aligned {a : Word} (ha : a.toNat % 4 = 0) : touchedWords a 4 = [a] := by
  have hbase (k : Nat) (hk : k < 4) : wordBase (a + BitVec.ofNat 32 k) = a := by
    apply BitVec.eq_of_toNat_eq
    rw [wordBase_toNat, BitVec.toNat_add, BitVec.toNat_ofNat]
    omega
  have hwords : (List.range 4).map (fun k => wordBase (a + BitVec.ofNat 32 k)) = List.replicate 4 a :=
    List.eq_replicate_iff.mpr ⟨rfl, by simpa using hbase⟩
  rw [touchedWords, hwords]
  simp [List.eraseDups_cons, List.replicate]

/-- What another master's write of an aligned word leaves there: its value, or, in a pass that wrote the word, perhaps what it held
(70_reset R346; log 9). -/
def landedWord (s : State) (a v : Word) : Word :=
  if s.status.busy && writtenByPass s a && Config.raceWins s.free a.toNat then readWord s.mem a else v

/-- Another master's write of an aligned word is one write of a word, with a pass running and without (20_memory R98;
70_reset R346). -/
theorem otherWrite_word {s : State} {a : Word} (v : Word) (hc : s.memCanonical) (ha : a.toNat % 4 = 0) :
    (otherWrite a (bytesOfWord v) s).mem = writeWord s.mem a (landedWord s a v) := by
  unfold landedWord
  cases hb : s.status.busy with
  | false =>
    rw [otherWrite_idle _ _ hb]
    rfl
  | true =>
    have hlen : (bytesOfWord v).length = 4 := rfl
    have hread : readWord (writeBytes s.mem a (bytesOfWord v)) a = v := readWord_writeWord_same a v hc
    rw [otherWrite, if_pos hb, hlen, touchedWords_aligned ha, List.foldl_cons, List.foldl_nil, settleWord, hread]
    rfl

/-- A word keeps what it held against another master's write only in a pass that wrote it (70_reset R346). -/
theorem landedWord_cases (s : State) (a v : Word) : landedWord s a v = v ∨
    (s.status.busy = true ∧ (∃ o ∈ s.overs, o.addr = a ∧ o.byPass = true) ∧ landedWord s a v = readWord s.mem a) := by
  unfold landedWord
  split
  · rename_i h
    simp only [writtenByPass, List.any_eq_true, Bool.and_eq_true, beq_iff_eq] at h
    obtain ⟨⟨hb, hpass⟩, -⟩ := h
    exact .inr ⟨hb, hpass, rfl⟩
  · exact .inl rfl

/-- A word keeps what it held against the write of an output point only if another master wrote it (70_reset R346). -/
theorem writtenWord_races (s : State) (pol : Policy) (i : Nat) (p : Pixel) : writtenWord s pol i p = outputWord s pol i p ∨
    ((∃ o ∈ s.overs, o.addr = pointAddr s i ∧ o.byPass = false) ∧
      writtenWord s pol i p = readWord s.mem (pointAddr s i)) := by
  unfold writtenWord
  split
  · rename_i h
    have hother : contested s (pointAddr s i) = true := (Bool.and_eq_true_iff.mp h).1
    simp only [contested, List.any_eq_true, Bool.and_eq_true, beq_iff_eq, Bool.not_eq_true'] at hother
    exact .inr ⟨hother, rfl⟩
  · exact .inl rfl

/-- Settles O54: each of the two writes is one write of a word, whose value is its own or the one it raced with. -/
theorem racingWritesLeaveOneOfTheTwo : Obligations.RacingWritesLeaveOneOfTheTwo := by
  refine ⟨fun s a v rest hc ha hag => ⟨_, step_memWrite hag, otherWrite_frame .., ?otherMaster⟩,
    fun s t pol i hc ht => ?point⟩
  case otherMaster =>
    rw [otherWrite_word (s := { s with agenda := rest }) v hc ha]
    refine ⟨?_, fun k hk => readByte_writeWord_outside hc hk⟩
    rw [readWord_writeWord_same a _ hc]
    exact landedWord_cases { s with agenda := rest } a v
  case point =>
    obtain ⟨p, hp, -, rfl⟩ := attempt_written ht
    refine ⟨p, hp, ?_, fun k hk => readByte_writeWord_outside hc hk⟩
    rw [passWrite_mem, readWord_writeWord_same _ _ hc]
    exact writtenWord_races s pol i p

end Sys2Proof.Machine
end
